-- ==== Sys2Proof/Word.lean ====
section
/-!
DEFINITION. The two widths the block works in: R5, R6 (`00_scope.md`): a byte is 8 bits, a word is 16 bits.
-/

namespace Sys2Proof

/-- A byte: one bus access, one 8-bit register (R6). -/
abbrev Byte := BitVec 8

/-- A word: one 16-bit register, one address (R6). -/
abbrev Word := BitVec 16

end Sys2Proof
end

