-- ==== Sys2Proof/Machine/Bits.lean ====
section
/-!
DEFINITION. Bit-field, sign-extension and byte-order helpers (R6, R7, R67).
-/

namespace Sys2Proof

/-- `v[15:8]` (R7). -/
def hiByte (w : Word) : Byte := w.extractLsb' 8 8

/-- `v[7:0]` (R7). -/
def loByte (w : Word) : Byte := w.extractLsb' 0 8

/-- `h:l`, the word whose high byte is `h` (R7, R67). -/
def joinBytes (h l : Byte) : Word := h ++ l

/-- `sext_16` of an 8-bit value (R7). -/
def sext8 (v : Byte) : Word := v.signExtend 16

/-- `sext_16` of a 5-bit value (R7, R141). -/
def sext5 (v : BitVec 5) : Word := v.signExtend 16

/-- `zext_16` of an 8-bit value (R7). -/
def zext8 (v : Byte) : Word := v.setWidth 16

/-- The 4-bit field `v[7:4]`. -/
def hiNibble (v : Byte) : BitVec 4 := v.extractLsb' 4 4

/-- The 4-bit field `v[3:0]`. -/
def loNibble (v : Byte) : BitVec 4 := v.extractLsb' 0 4

end Sys2Proof
end

