-- ==== Sys2Proof/Machine/Flags.lean ====
section
/-!
DEFINITION. The condition-code register and its evaluator: "pure helper operations, each taking the relevant operand(s)/result
and the current CC value, returning the updated CC" (R30).  A flag an operation does not list stays as it was (R30, D17).

An operation that also computes a result returns the pair of result and new `CC`.
-/

namespace Sys2Proof.Machine

/-- R27: the flags of `CC`. -/
inductive Flag where
  | c
  | v
  | z
  | n
  | i
  | h
  | f
  | e
  deriving DecidableEq, Repr

/-- R27, D1: the bit of a flag. -/
def Flag.bit : Flag → Nat
  | .c => 0
  | .v => 1
  | .z => 2
  | .n => 3
  | .i => 4
  | .h => 5
  | .f => 6
  | .e => 7

/-- The byte with only that bit set. -/
def Flag.mask (k : Flag) : Byte := 1#8 <<< k.bit

def Flag.get (k : Flag) (cc : Byte) : Bool := cc.getLsbD k.bit

def Flag.put (k : Flag) (b : Bool) (cc : Byte) : Byte := if b then cc ||| k.mask else cc &&& ~~~k.mask

/-- A carry as a number (R33: "cin is 0 or CC.C"). -/
def carryIn8 (c : Bool) : Word := if c then 1#16 else 0#16

/-- `NZ8` (R7, R31, R32). -/
def nz8 (r cc : Byte) : Byte := Flag.n.put (r.getLsbD 7) (Flag.z.put (r == 0#8) cc)

/-- `NZ16` (R7, R31, R32). -/
def nz16 (r : Word) (cc : Byte) : Byte := Flag.n.put (r.getLsbD 15) (Flag.z.put (r == 0#16) cc)

/-- `NZ8` with V cleared: loads, logical operations, TST (R184, R250, R228). -/
def nzv8 (r cc : Byte) : Byte := Flag.v.put false (nz8 r cc)

/-- `NZ16` with V cleared (R184). -/
def nzv16 (r : Word) (cc : Byte) : Byte := Flag.v.put false (nz16 r cc)

/-! ## Addition and subtraction -/

/-- `Add8` (R203, R33 to R35). -/
def add8 (a b : Byte) (cin : Bool) (cc : Byte) : Byte × Byte :=
  let r := a.setWidth 16 + b.setWidth 16 + carryIn8 cin
  let half := (loNibble a).toNat + (loNibble b).toNat + cin.toNat
  let res := r.setWidth 8
  (res,
    Flag.h.put (decide (15 < half))
      (Flag.v.put (((a ^^^ res) &&& (b ^^^ res)).getLsbD 7)
        (Flag.c.put (r.getLsbD 8) (nz8 res cc))))

/-- `Add16` (R203). -/
def add16 (a b : Word) (cc : Byte) : Word × Byte :=
  let r := a.setWidth 32 + b.setWidth 32
  let res := r.setWidth 16
  (res, Flag.v.put (((a ^^^ res) &&& (b ^^^ res)).getLsbD 15) (Flag.c.put (r.getLsbD 16) (nz16 res cc)))

/-- `Sub8` (R209): C is the borrow. -/
def sub8 (a b : Byte) (cin : Bool) (cc : Byte) : Byte × Byte :=
  let r := a.setWidth 16 - b.setWidth 16 - carryIn8 cin
  let res := r.setWidth 8
  (res, Flag.v.put (((a ^^^ b) &&& (a ^^^ res)).getLsbD 7) (Flag.c.put (r.getLsbD 8) (nz8 res cc)))

/-- `Sub16` (R209). -/
def sub16 (a b : Word) (cc : Byte) : Word × Byte :=
  let r := a.setWidth 32 - b.setWidth 32
  let res := r.setWidth 16
  (res, Flag.v.put (((a ^^^ b) &&& (a ^^^ res)).getLsbD 15) (Flag.c.put (r.getLsbD 16) (nz16 res cc)))

/-! ## Operations of an accumulator with an operand: register, operand, `CC` -/

/-- ADDA, ADDB (R200, R201): "The carry flag on entry is ignored." -/
def addOp (r m cc : Byte) : Byte × Byte := add8 r m false cc

/-- ADCA, ADCB (R204, R205). -/
def adcOp (r m cc : Byte) : Byte × Byte := add8 r m (Flag.c.get cc) cc

/-- SUBA, SUBB, CMPA, CMPB (R206, R207, R212, R213). -/
def subOp (r m cc : Byte) : Byte × Byte := sub8 r m false cc

/-- SBCA, SBCB (R210, R211). -/
def sbcOp (r m cc : Byte) : Byte × Byte := sub8 r m (Flag.c.get cc) cc

/-- ANDA, ANDB, BITA, BITB (R250, R251, R258, R259). -/
def andOp (r m cc : Byte) : Byte × Byte := (r &&& m, nzv8 (r &&& m) cc)

/-- ORA, ORB (R252, R260). -/
def orOp (r m cc : Byte) : Byte × Byte := (r ||| m, nzv8 (r ||| m) cc)

/-- EORA, EORB (R253, R254). -/
def eorOp (r m cc : Byte) : Byte × Byte := (r ^^^ m, nzv8 (r ^^^ m) cc)

/-- LDA, LDB (R170, R171, R184). -/
def loadOp (_ m cc : Byte) : Byte × Byte := (m, nzv8 m cc)

/-- LDD, LDX, LDY, LDU, LDS (R172 to R176, R184). -/
def loadOp16 (_ m : Word) (cc : Byte) : Word × Byte := (m, nzv16 m cc)

/-! ## Operations on one operand: operand, `CC` -/

/-- NEG (R219 to R221). -/
def negOp (m cc : Byte) : Byte × Byte := sub8 0x00#8 m false cc

/-- INC (R222 to R224). -/
def incOp (m cc : Byte) : Byte × Byte := (m + 1#8, Flag.v.put (m == 0x7F#8) (nz8 (m + 1#8) cc))

/-- DEC (R225 to R227). -/
def decOp (m cc : Byte) : Byte × Byte := (m - 1#8, Flag.v.put (m == 0x80#8) (nz8 (m - 1#8) cc))

/-- TST (R228 to R230). -/
def tstOp (m cc : Byte) : Byte × Byte := (m, nzv8 m cc)

/-- CLR (R190 to R192): N = 0, Z = 1, V = 0, C = 0. -/
def clrOp (_ cc : Byte) : Byte × Byte :=
  (0x00#8, Flag.n.put false (Flag.z.put true (Flag.v.put false (Flag.c.put false cc))))

/-- COM (R255 to R257): "COM sets Carry unconditionally". -/
def comOp (m cc : Byte) : Byte × Byte := (~~~m, Flag.c.put true (nzv8 (~~~m) cc))

/-- ASL, LSL (R280 to R282, R295). -/
def aslOp (m cc : Byte) : Byte × Byte :=
  let r := m <<< 1
  (r, Flag.v.put (m.getLsbD 7 ^^ m.getLsbD 6) (Flag.c.put (m.getLsbD 7) (nz8 r cc)))

/-- ASR (R283 to R285): bit 7 is kept; V unmodified. -/
def asrOp (m cc : Byte) : Byte × Byte :=
  let r := (m >>> 1) ||| (m &&& 0x80#8)
  (r, Flag.c.put (m.getLsbD 0) (nz8 r cc))

/-- LSR (R286 to R288): V unmodified. -/
def lsrOp (m cc : Byte) : Byte × Byte :=
  let r := m >>> 1
  (r, Flag.c.put (m.getLsbD 0) (nz8 r cc))

/-- ROL (R289 to R291): "The old C must be read before C is written." -/
def rolOp (m cc : Byte) : Byte × Byte :=
  let r := (m <<< 1) ||| (if Flag.c.get cc then 0x01#8 else 0x00#8)
  (r, Flag.v.put (m.getLsbD 7 ^^ m.getLsbD 6) (Flag.c.put (m.getLsbD 7) (nz8 r cc)))

/-- ROR (R292 to R294): V unmodified. -/
def rorOp (m cc : Byte) : Byte × Byte :=
  let r := (m >>> 1) ||| (if Flag.c.get cc then 0x80#8 else 0x00#8)
  (r, Flag.c.put (m.getLsbD 0) (nz8 r cc))

/-! ## DAA, MUL, SEX -/

/-- DAA (R235, D18): the correction `cf`. -/
def daaCorrection (a cc : Byte) : Byte :=
  let lo := (loNibble a).toNat
  let hi := (hiNibble a).toNat
  let c6 := if 9 < lo ∨ Flag.h.get cc = true then 0x06#8 else 0x00#8
  let c60 := if (8 < hi ∧ 9 < lo) ∨ 9 < hi ∨ Flag.c.get cc = true then 0x60#8 else 0x00#8
  c6 ||| c60

/-- DAA (R235): "carry is set, never cleared"; V unmodified. -/
def daaOp (a cc : Byte) : Byte × Byte :=
  let t := a.setWidth 16 + (daaCorrection a cc).setWidth 16
  let r := t.setWidth 8
  (r, Flag.c.put (Flag.c.get cc || t.getLsbD 8) (nz8 r cc))

/-- MUL (R232): Z from the product, C its bit 7. -/
def mulOp (a b cc : Byte) : Word × Byte :=
  let r := a.setWidth 16 * b.setWidth 16
  (r, Flag.c.put (r.getLsbD 7) (Flag.z.put (r == 0#16) cc))

/-- SEX (R233, D36): V unmodified. -/
def sexOp (b cc : Byte) : Word × Byte :=
  let d : Word := (if b.getLsbD 7 then 0xFF#8 else 0x00#8) ++ b
  (d, nz16 d cc)

/-! ## Predicates -/

/-- R300: the conditions of the branches. -/
inductive Cond where
  | always
  | never
  | hi
  | ls
  | cc
  | cs
  | ne
  | eq
  | vc
  | vs
  | pl
  | mi
  | ge
  | lt
  | gt
  | le
  deriving DecidableEq, Repr

/-- R300: the predicate column. -/
def Cond.taken (k : Cond) (cc : Byte) : Bool :=
  match k with
  | .always => true
  | .never => false
  | .hi => !Flag.c.get cc && !Flag.z.get cc
  | .ls => Flag.c.get cc || Flag.z.get cc
  | .cc => !Flag.c.get cc
  | .cs => Flag.c.get cc
  | .ne => !Flag.z.get cc
  | .eq => Flag.z.get cc
  | .vc => !Flag.v.get cc
  | .vs => Flag.v.get cc
  | .pl => !Flag.n.get cc
  | .mi => Flag.n.get cc
  | .ge => !(Flag.n.get cc ^^ Flag.v.get cc)
  | .lt => Flag.n.get cc ^^ Flag.v.get cc
  | .gt => !Flag.z.get cc && !(Flag.n.get cc ^^ Flag.v.get cc)
  | .le => Flag.z.get cc || (Flag.n.get cc ^^ Flag.v.get cc)

end Sys2Proof.Machine
end

