-- ==== Sys2Proof/Config.lean ====
section
/-!
DEFINITION. What an implementation of the block fixes (R5, `92_eei_decisions.md` section 1).

`SCHEDULE` (D3) takes its default, instruction-atomic: every effect of an instruction or sequence happens on its first `Step`
call.  `CYCLES` (D5) is the `cycles` column of the opcode table, which stands in `Decode.lean` (`opTable`).
`POWER_ON` (D24) does not appear: every statement about a state holds for every register value.
The block has no value that the spec leaves open in a run (log 18), so no free value stands here.
-/

namespace Sys2Proof.Config

/-- What a byte of memory that nothing has written reads as.  DESIGN CHOICE (log 1): the memory belongs to the external
collaborator (R60, R77) and the spec gives its contents no value; the spec's own examples read `$00`. -/
def unlistedByte : Byte := 0x00#8

/-- `INVALID_CYCLES` (R5, D6): 2 on page 0, 3 behind a page prefix. -/
def invalidCycles (prefixed : Bool) : Nat := if prefixed then 3 else 2

/-- Cycles of the RESET, NMI, FIRQ and IRQ sequences (R420, R500). -/
def resetCycles : Nat := 7
def nmiCycles : Nat := 19
def firqCycles : Nat := 10
def irqCycles : Nat := 19

/-- Cycles that leaving the CWAI and SYNC waits takes (R386, R387: "exit 3 cycles", "exit 2 cycles"). -/
def cwaiExitCycles : Nat := 3
def syncExitCycles : Nat := 2

end Sys2Proof.Config
end

