-- ==== Sys2Proof/Syntax.lean ====
section
/-!
DEFINITION. The instruction set as syntax.  One constructor of `Instr` per mnemonic of `spec/opcode_table.json`; the rows of one
mnemonic (its addressing modes) are the values of its operand.  The aliases of R109 (LSL, BHS, BLO, ...) are second spellings of
the same rows and have no constructor.
-/

namespace Sys2Proof

/-- The opcode page (R42, R9): 0 unprefixed, 1 after `$10`, 2 after `$11`. -/
inductive Page where
  | p0
  | p1
  | p2
  deriving DecidableEq, Repr

/-- The 8-bit registers that TFR, EXG and the stack instructions name (R106, R105). -/
inductive Reg8 where
  | a
  | b
  | cc
  | dp
  deriving DecidableEq, Repr

/-- The 16-bit registers that TFR, EXG and the stack instructions name (R106, R105). -/
inductive Reg16 where
  | d
  | x
  | y
  | u
  | s
  | pc
  deriving DecidableEq, Repr

/-- The base register of an indexed operand (R154). -/
inductive Base where
  | x
  | y
  | u
  | s
  deriving DecidableEq, Repr

/-- An indexed operand: post-byte and offset bytes together (R140).  `ind` is the post-byte's indirect bit `I` (R153); the forms
that have no indirect variant have no such argument (R141 to R143). -/
inductive Idx where
  /-- `n,R`, 5-bit offset (R141) -/
  | off5 (r : Base) (n : BitVec 5)
  /-- `,R+` (R142) -/
  | inc1 (r : Base)
  /-- `,R++` (R142) -/
  | inc2 (r : Base) (ind : Bool)
  /-- `,-R` (R143) -/
  | dec1 (r : Base)
  /-- `,--R` (R143) -/
  | dec2 (r : Base) (ind : Bool)
  /-- `,R` (R144) -/
  | zero (r : Base) (ind : Bool)
  /-- `B,R` (R145) -/
  | accB (r : Base) (ind : Bool)
  /-- `A,R` (R145) -/
  | accA (r : Base) (ind : Bool)
  /-- `D,R` (R148) -/
  | accD (r : Base) (ind : Bool)
  /-- `n,R`, 8-bit offset (R146) -/
  | off8 (r : Base) (ind : Bool) (n : Byte)
  /-- `n,R`, 16-bit offset (R147) -/
  | off16 (r : Base) (ind : Bool) (n : Word)
  /-- `n,PCR`, 8-bit offset (R151); `rr` is the ignored field `pb[6:5]` (R154) -/
  | pcr8 (rr : BitVec 2) (ind : Bool) (n : Byte)
  /-- `n,PCR`, 16-bit offset (R151); `rr` is the ignored field `pb[6:5]` (R154) -/
  | pcr16 (rr : BitVec 2) (ind : Bool) (n : Word)
  /-- `[n]`, extended indirect, post-byte `$9F` (R152) -/
  | extInd (addr : Word)
  /-- one of the 39 post-bytes without a meaning (R155) -/
  | illegal (pb : Byte)
  deriving DecidableEq, Repr

/-- A memory operand: direct, indexed or extended (R133, R140, R135). -/
inductive Ea where
  | dir (lo : Byte)
  | idx (i : Idx)
  | ext (addr : Word)
  deriving DecidableEq, Repr

/-- An 8-bit source operand: immediate or memory (R134, R159). -/
inductive Src8 where
  | imm (v : Byte)
  | mem (ea : Ea)
  deriving DecidableEq, Repr

/-- A 16-bit source operand: immediate or memory (R134, R159). -/
inductive Src16 where
  | imm (v : Word)
  | mem (ea : Ea)
  deriving DecidableEq, Repr

/-- The register mask of PSHS, PULS, PSHU, PULU (R105, R354): bit 7 `pc` down to bit 0 `cc`; `other` is the stack pointer the
instruction is not using. -/
structure StackMask where
  pc : Bool
  other : Bool
  y : Bool
  x : Bool
  dp : Bool
  b : Bool
  a : Bool
  cc : Bool
  deriving DecidableEq, Repr

/-- A 4-bit register code of TFR and EXG (R106): a 16-bit register, an 8-bit register, or a code that names none. -/
inductive RegCode where
  | r16 (r : Reg16)
  | r8 (r : Reg8)
  | unassigned (code : BitVec 4)
  deriving DecidableEq, Repr

/-- The post-byte of TFR and EXG: source and destination (R106). -/
structure RegPair where
  src : RegCode
  dst : RegCode
  deriving DecidableEq, Repr

/-- The instructions: one constructor per mnemonic of the opcode table (R92, R100 to R103). -/
inductive Instr where
  -- 41_data_movement.md: loads
  | lda (src : Src8)
  | ldb (src : Src8)
  | ldd (src : Src16)
  | ldx (src : Src16)
  | ldy (src : Src16)
  | ldu (src : Src16)
  | lds (src : Src16)
  -- 41_data_movement.md: stores
  | sta (ea : Ea)
  | stb (ea : Ea)
  | std (ea : Ea)
  | stx (ea : Ea)
  | sty (ea : Ea)
  | stu (ea : Ea)
  | sts (ea : Ea)
  -- 41_data_movement.md: load effective address, clear
  | leax (idx : Idx)
  | leay (idx : Idx)
  | leas (idx : Idx)
  | leau (idx : Idx)
  | clr (ea : Ea)
  | clra
  | clrb
  -- 42_arithmetic.md: add, subtract
  | adda (src : Src8)
  | addb (src : Src8)
  | addd (src : Src16)
  | adca (src : Src8)
  | adcb (src : Src8)
  | suba (src : Src8)
  | subb (src : Src8)
  | subd (src : Src16)
  | sbca (src : Src8)
  | sbcb (src : Src8)
  -- 42_arithmetic.md: compare
  | cmpa (src : Src8)
  | cmpb (src : Src8)
  | cmpd (src : Src16)
  | cmpx (src : Src16)
  | cmpy (src : Src16)
  | cmpu (src : Src16)
  | cmps (src : Src16)
  -- 42_arithmetic.md: negate, increment, decrement, test
  | neg (ea : Ea)
  | nega
  | negb
  | inc (ea : Ea)
  | inca
  | incb
  | dec (ea : Ea)
  | deca
  | decb
  | tst (ea : Ea)
  | tsta
  | tstb
  -- 42_arithmetic.md: multiply, sign extend, decimal adjust, add B to X
  | mul
  | sex
  | daa
  | abx
  -- 43_logical.md
  | anda (src : Src8)
  | andb (src : Src8)
  | ora (src : Src8)
  | orb (src : Src8)
  | eora (src : Src8)
  | eorb (src : Src8)
  | bita (src : Src8)
  | bitb (src : Src8)
  | com (ea : Ea)
  | coma
  | comb
  | orcc (imm : Byte)
  | andcc (imm : Byte)
  -- 44_shifts_rotates.md
  | asl (ea : Ea)
  | asla
  | aslb
  | asr (ea : Ea)
  | asra
  | asrb
  | lsr (ea : Ea)
  | lsra
  | lsrb
  | rol (ea : Ea)
  | rola
  | rolb
  | ror (ea : Ea)
  | rora
  | rorb
  -- 45_branches_control.md: short branches
  | bra (offset : Byte)
  | brn (offset : Byte)
  | bhi (offset : Byte)
  | bls (offset : Byte)
  | bcc (offset : Byte)
  | bcs (offset : Byte)
  | bne (offset : Byte)
  | beq (offset : Byte)
  | bvc (offset : Byte)
  | bvs (offset : Byte)
  | bpl (offset : Byte)
  | bmi (offset : Byte)
  | bge (offset : Byte)
  | blt (offset : Byte)
  | bgt (offset : Byte)
  | ble (offset : Byte)
  | bsr (offset : Byte)
  -- 45_branches_control.md: long branches
  | lbra (offset : Word)
  | lbrn (offset : Word)
  | lbhi (offset : Word)
  | lbls (offset : Word)
  | lbcc (offset : Word)
  | lbcs (offset : Word)
  | lbne (offset : Word)
  | lbeq (offset : Word)
  | lbvc (offset : Word)
  | lbvs (offset : Word)
  | lbpl (offset : Word)
  | lbmi (offset : Word)
  | lbge (offset : Word)
  | lblt (offset : Word)
  | lbgt (offset : Word)
  | lble (offset : Word)
  | lbsr (offset : Word)
  -- 45_branches_control.md: jump, call, return
  | jmp (ea : Ea)
  | jsr (ea : Ea)
  | rts
  -- 46_stack_ops.md
  | pshs (mask : StackMask)
  | puls (mask : StackMask)
  | pshu (mask : StackMask)
  | pulu (mask : StackMask)
  -- 47_register_transfer.md
  | tfr (pair : RegPair)
  | exg (pair : RegPair)
  -- 48_interrupt_opcodes.md
  | swi
  | swi2
  | swi3
  | rti
  | cwai (imm : Byte)
  | sync
  | nop
  -- 30_encoding.md: the page prefixes (R94)
  | page2
  | page3
  -- 49_invalid_opcodes.md: the 498 invalid entries
  | invalid (page : Page) (opcode : Byte)
  deriving DecidableEq, Repr

end Sys2Proof
end

