-- ==== Sys2Proof/Machine/State.lean ====
section
/-!
DEFINITION. The machine's state as plain data, and the state after RESET.

What the spec gives the block: the register file (R20), the in-flight state (R40 to R42), the scratch registers (R28).  What the
block reads and drives: the input lines (R44), the memory of the bus collaborator (R60) and the record of the calls on it (R70).
-/

namespace Sys2Proof.Machine

/-- R20: the programmer-visible registers.  `D` is an alias of `a:b` (R21) and has no field. -/
structure Regs where
  a : Byte
  b : Byte
  dp : Byte
  cc : Byte
  x : Word
  y : Word
  u : Word
  s : Word
  pc : Word
  deriving DecidableEq, Repr

/-- R44: the five level-sensitive condition inputs, `true` for asserted. -/
structure Lines where
  reset : Bool
  nmi : Bool
  firq : Bool
  irq : Bool
  halt : Bool
  deriving DecidableEq, Repr

/-- No line asserted. -/
def Lines.quiet : Lines := ⟨false, false, false, false, false⟩

/-- R40: the hardware sequences of the exception sequencer. -/
inductive ExcKind where
  | reset
  | nmi
  | firq
  | irq
  deriving DecidableEq, Repr

/-- R40: what the dispatcher is doing. -/
inductive Active where
  /-- ready to fetch: the block is at a fetch boundary -/
  | none
  /-- the microsequencer of this opcode-table entry is running -/
  | instr (page : Page) (opcode : Byte)
  /-- an exception sequence is running -/
  | exc (kind : ExcKind)
  /-- CWAI has stacked the machine state and waits (R386) -/
  | waitCwai
  /-- SYNC waits (R387) -/
  | waitSync
  deriving DecidableEq, Repr

/-- One call of the block on the bus collaborator (R61 to R63), with the byte that passed. -/
inductive BusOp where
  | read (addr : Word) (readOnly : Bool) (value : Byte)
  | write (addr : Word) (value : Byte)
  deriving DecidableEq, Repr

/-- Memory as the list of the addresses that do not read as `Config.unlistedByte`, in rising order (`Machine/Memory.lean`). -/
abbrev Memory := List Host.Cell

/-- The state between two calls of `Step` (R40 to R44). -/
structure State where
  /-- R20 -/
  regs : Regs
  /-- R40 -/
  active : Active
  /-- R42 -/
  page : Page
  /-- R41: cycles the active sequence has consumed, 255 once it is complete -/
  clocksUsed : Byte
  /-- the model's own (log 11): `Step` calls the active sequence still takes -/
  clocksDue : Nat
  /-- the model's own (log 11): what `active` becomes when the active sequence ends (R98) -/
  resume : Active
  /-- R28, D3: holds nothing across a boundary; no rule reads it (log 8) -/
  scratch : Word
  /-- R28, D3: as `scratch` (log 8) -/
  offset : Word
  /-- R44: the levels this `Step` call sees -/
  lines : Lines
  /-- R44: the levels of the following `Step` calls; at the end of the list the levels hold (log 5) -/
  inputs : List Lines
  /-- R60: the bytes behind the bus (log 2) -/
  mem : Memory
  /-- the model's own (log 7): the calls on the bus so far, newest first (R70) -/
  bus : List BusOp
  /-- R99: the cycle total -/
  cycles : Nat
  deriving DecidableEq, Repr

/-- R439: "There are no synchronous faults."  No step of the block faults, so the type has no constructor (log 21). -/
inductive Fault where
  deriving DecidableEq, Repr

/-- Why a meaning is missing. -/
inductive Refusal where
  /-- An arm of `exec` without a meaning raises it.  Safe: the machine stops.  No arm is left without a meaning (log 21). -/
  | notModelled (mnemonic : String)
  deriving DecidableEq, Repr

/-- The registers after RESET (R48, R481): `PC` is the word at `$FFFE:$FFFF`, whose two unlisted bytes read
`Config.unlistedByte`; `CC` and `DP` are `$00`.  DESIGN CHOICE (log 3): the registers RESET leaves alone hold 0. -/
def Regs.reset : Regs where
  a := 0x00#8
  b := 0x00#8
  dp := 0x00#8
  cc := 0x00#8
  x := 0x0000#16
  y := 0x0000#16
  u := 0x0000#16
  s := 0x0000#16
  pc := Config.unlistedByte ++ Config.unlistedByte

/-- The machine right after RESET (R48), at the fetch boundary that follows it, with memory of nothing listed. -/
def State.reset : State where
  regs := .reset
  active := .none
  page := .p0
  clocksUsed := 255#8
  clocksDue := 0
  resume := .none
  scratch := 0x0000#16
  offset := 0x0000#16
  lines := .quiet
  inputs := []
  mem := []
  bus := []
  cycles := 0

/-- What running an instruction, or one step, answers. -/
abbrev Result := Host.Outcome State Fault Refusal

end Sys2Proof.Machine
end

