-- ==== Sys2Proof/Machine/Memory.lean ====
section
/-!
DEFINITION. Memory by address: reading a byte, writing a byte, and the canonical form of the list.
-/

namespace Sys2Proof.Machine

/-- The byte at an address; an address the list does not hold reads as `Config.unlistedByte` (log 1). -/
def Memory.read : Memory → Nat → Byte
  | [], _ => Config.unlistedByte
  | (k, v) :: m, a => if k = a then v else Memory.read m a

/-- The list without an address. -/
def Memory.erase : Memory → Nat → Memory
  | [], _ => []
  | (k, v) :: m, a => if k = a then Memory.erase m a else (k, v) :: Memory.erase m a

/-- A cell put before the first higher address. -/
def Memory.insert : Memory → Nat → Byte → Memory
  | [], a, v => [(a, v)]
  | (k, w) :: m, a, v => if a < k then (a, v) :: (k, w) :: m else (k, w) :: Memory.insert m a v

/-- R62, R74: after the write the address reads as `v`.  Writing what an unlisted address reads as removes the entry. -/
def Memory.write (m : Memory) (a : Nat) (v : Byte) : Memory :=
  if v = Config.unlistedByte then m.erase a else (m.erase a).insert a v

/-- Addresses strictly rising from `lo`, all in the address space (R60), and no entry that an unlisted address would equal. -/
def Memory.wfFrom (lo : Nat) : Memory → Bool
  | [] => true
  | (k, v) :: m => decide (lo ≤ k) && decide (k < 65536) && decide (v ≠ Config.unlistedByte) && Memory.wfFrom (k + 1) m

/-- The canonical form: equal memories are equal lists. -/
def Memory.wf (m : Memory) : Bool := Memory.wfFrom 0 m

end Sys2Proof.Machine
end

