-- ==== Sys2Proof/Machine/Ops.lean ====
section
/-!
DEFINITION. The named operations over registers, bus and stack; taking an exception and returning from one.
-/

namespace Sys2Proof.Machine

/-! ## Registers -/

/-- Reading an 8-bit register (R20). -/
def Regs.get8 (r : Regs) : Reg8 → Byte
  | .a => r.a
  | .b => r.b
  | .cc => r.cc
  | .dp => r.dp

/-- Writing an 8-bit register (R20). -/
def Regs.set8 (r : Regs) : Reg8 → Byte → Regs
  | .a, v => { r with a := v }
  | .b, v => { r with b := v }
  | .cc, v => { r with cc := v }
  | .dp, v => { r with dp := v }

/-- Reading a 16-bit register; `D` reads `A:B` (R21). -/
def Regs.get16 (r : Regs) : Reg16 → Word
  | .d => joinBytes r.a r.b
  | .x => r.x
  | .y => r.y
  | .u => r.u
  | .s => r.s
  | .pc => r.pc

/-- Writing a 16-bit register; writing `D` writes `A` and `B` together (R21). -/
def Regs.set16 (r : Regs) : Reg16 → Word → Regs
  | .d, v => { r with a := hiByte v, b := loByte v }
  | .x, v => { r with x := v }
  | .y, v => { r with y := v }
  | .u, v => { r with u := v }
  | .s, v => { r with s := v }
  | .pc, v => { r with pc := v }

/-- R154: the base register of an indexed operand. -/
def baseReg : Base → Reg16
  | .x => .x
  | .y => .y
  | .u => .u
  | .s => .s

def State.get8 (s : State) (r : Reg8) : Byte := s.regs.get8 r

def State.set8 (s : State) (r : Reg8) (v : Byte) : State := { s with regs := s.regs.set8 r v }

def State.get16 (s : State) (r : Reg16) : Word := s.regs.get16 r

def State.set16 (s : State) (r : Reg16) (v : Word) : State := { s with regs := s.regs.set16 r v }

/-- One flag of `CC` written (R27). -/
def State.setFlag (s : State) (k : Flag) (b : Bool) : State := s.set8 .cc (k.put b (s.get8 .cc))

/-! ## The bus -/

/-- The byte of memory at an address, without a bus call (R47, R474: the view of the tooling). -/
def State.byteAt (s : State) (a : Word) : Byte := Memory.read s.mem a.toNat

/-- The word at an address, high byte at the lower address (R67), without a bus call. -/
def State.wordAt (s : State) (a : Word) : Word := joinBytes (s.byteAt a) (s.byteAt (a + 1#16))

/-- The record of one more call on the bus (R70). -/
def State.record (s : State) (op : BusOp) : State := { s with bus := op :: s.bus }

/-- `MemRead(addr, 1)` (R61): every read of the block has `readOnly = false` (R63). -/
def read8 (a : Word) (s : State) : Byte × State := (s.byteAt a, s.record (.read a false (s.byteAt a)))

/-- `MemRead(addr, 2)` (R64): the high byte first. -/
def read16 (a : Word) (s : State) : Word × State :=
  let (h, s1) := read8 a s
  let (l, s2) := read8 (a + 1#16) s1
  (joinBytes h l, s2)

/-- `MemWrite(addr, 1, v)` (R62). -/
def write8 (a : Word) (v : Byte) (s : State) : State :=
  { s with mem := Memory.write s.mem a.toNat v, bus := .write a v :: s.bus }

/-- `MemWrite(addr, 2, v)` (R65): the high byte first. -/
def write16 (a : Word) (v : Word) (s : State) : State := write8 (a + 1#16) (loByte v) (write8 a (hiByte v) s)

/-! ## The stacks -/

/-- `Push8(sp, v)` (R24): decrement, then write. -/
def push8 (sp : Reg16) (v : Byte) (s : State) : State :=
  let a := s.get16 sp - 1#16
  write8 a v (s.set16 sp a)

/-- `Push16(sp, v)` (R24): the low byte first. -/
def push16 (sp : Reg16) (v : Word) (s : State) : State := push8 sp (hiByte v) (push8 sp (loByte v) s)

/-- `Pull8(sp)` (R24): read, then increment. -/
def pull8 (sp : Reg16) (s : State) : Byte × State :=
  let a := s.get16 sp
  let (v, s1) := read8 a s
  (v, s1.set16 sp (a + 1#16))

/-- `Pull16(sp)` (R24): the high byte first. -/
def pull16 (sp : Reg16) (s : State) : Word × State :=
  let (h, s1) := pull8 sp s
  let (l, s2) := pull8 sp s1
  (joinBytes h l, s2)

/-- `R <- Pull8(sp)`. -/
def pullReg8 (sp : Reg16) (r : Reg8) (s : State) : State :=
  let (v, s1) := pull8 sp s
  s1.set8 r v

/-- `R <- Pull16(sp)`. -/
def pullReg16 (sp : Reg16) (r : Reg16) (s : State) : State :=
  let (v, s1) := pull16 sp s
  s1.set16 r v

/-! ## Exceptions -/

/-- `StackAll()` (R430). -/
def stackAll (s : State) : State :=
  let s1 := push16 .s (s.get16 .pc) s
  let s2 := push16 .s (s.get16 .u) s1
  let s3 := push16 .s (s.get16 .y) s2
  let s4 := push16 .s (s.get16 .x) s3
  let s5 := push8 .s (s.get8 .dp) s4
  let s6 := push8 .s (s.get8 .b) s5
  let s7 := push8 .s (s.get8 .a) s6
  push8 .s (s.get8 .cc) s7

/-- `StackFast()` (R430). -/
def stackFast (s : State) : State := push8 .s (s.get8 .cc) (push16 .s (s.get16 .pc) s)

/-- R436: `PC <- MemRead(vector, 2)`. -/
def vectorFetch (vector : Word) (s : State) : State :=
  let (w, s1) := read16 vector s
  s1.set16 .pc w

/-- `CC.I <- 1 ; CC.F <- 1` (R431). -/
def setMasks (s : State) : State := (s.setFlag .i true).setFlag .f true

/-- Taking an exception that stacks (R430 to R433, R383): `E` says how much is stacked and is written before the stacking (R37);
the masks, where the exception sets them, after it; then the vector fetch. -/
def enterException (full masks : Bool) (vector : Word) (s : State) : State :=
  let s1 := s.setFlag .e full
  let s2 := if full then stackAll s1 else stackFast s1
  let s3 := if masks then setMasks s2 else s2
  vectorFetch vector s3

/-- Leaving the CWAI wait (R386, D16): nothing is stacked again. -/
def leaveCwai (vector : Word) (s : State) : State := vectorFetch vector (setMasks s)

/-- The RESET sequence (R481): `DP`, `PC`, then `CC` "as the final step". -/
def resetSequence (s : State) : State := (vectorFetch 0xFFFE#16 (s.set8 .dp 0x00#8)).set8 .cc 0x00#8

/-- Returning from an exception (R385): the `E` just pulled chooses the short or the long form. -/
def returnFromException (s : State) : State :=
  let s1 := pullReg8 .s .cc s
  let s2 :=
    if Flag.e.get (s1.get8 .cc) then
      pullReg16 .s .u (pullReg16 .s .y (pullReg16 .s .x (pullReg8 .s .dp (pullReg8 .s .b (pullReg8 .s .a s1)))))
    else s1
  pullReg16 .s .pc s2

/-- R71: the vectors. -/
def ExcKind.vector : ExcKind → Word
  | .reset => 0xFFFE#16
  | .nmi => 0xFFFC#16
  | .firq => 0xFFF6#16
  | .irq => 0xFFF8#16

def swiVector : Word := 0xFFFA#16
def swi2Vector : Word := 0xFFF4#16
def swi3Vector : Word := 0xFFF2#16

/-- The hardware sequences (R481, R431 to R433). -/
def ExcKind.sequence (kind : ExcKind) (s : State) : State :=
  match kind with
  | .reset => resetSequence s
  | .nmi => enterException true true ExcKind.nmi.vector s
  | .firq => enterException false true ExcKind.firq.vector s
  | .irq => enterException true true ExcKind.irq.vector s

/-- R420: the cycle counts of the hardware sequences. -/
def ExcKind.cycles : ExcKind → Nat
  | .reset => Config.resetCycles
  | .nmi => Config.nmiCycles
  | .firq => Config.firqCycles
  | .irq => Config.irqCycles

/-! ## The dispatcher's page -/

/-- R94, R42: a page selection byte sets the page of the instruction being decoded. -/
def selectPage (page : Page) (s : State) : State := { s with page := page }

end Sys2Proof.Machine
end

