-- ==== Sys2Proof/Machine/Operands.lean ====
section
/-!
DEFINITION. The addressing-mode resolvers (R130 to R159) and the shapes of instruction they serve.

A meaning is called with `PC` at the following instruction (R25): the dispatcher has fetched every byte of the instruction.
A resolver runs to completion before the operation (R156); `none` is the illegal post-byte, which makes the whole instruction
a no-op (R155).
-/

namespace Sys2Proof.Machine

/-- R153: with the indirect bit, the address is that of the effective address, which is fetched from memory. -/
def indirect (ind : Bool) (p : Word) (s : State) : Word × State := if ind then read16 p s else (p, s)

/-- The indexed resolver (R140 to R156). -/
def resolveIdx (i : Idx) (s : State) : Option (Word × State) :=
  match i with
  | .off5 r n => some (s.get16 (baseReg r) + sext5 n, s)
  | .inc1 r => some (s.get16 (baseReg r), s.set16 (baseReg r) (s.get16 (baseReg r) + 1#16))
  | .inc2 r ind => some (indirect ind (s.get16 (baseReg r)) (s.set16 (baseReg r) (s.get16 (baseReg r) + 2#16)))
  | .dec1 r => some (s.get16 (baseReg r) - 1#16, s.set16 (baseReg r) (s.get16 (baseReg r) - 1#16))
  | .dec2 r ind => some (indirect ind (s.get16 (baseReg r) - 2#16) (s.set16 (baseReg r) (s.get16 (baseReg r) - 2#16)))
  | .zero r ind => some (indirect ind (s.get16 (baseReg r)) s)
  | .accB r ind => some (indirect ind (s.get16 (baseReg r) + sext8 (s.get8 .b)) s)
  | .accA r ind => some (indirect ind (s.get16 (baseReg r) + sext8 (s.get8 .a)) s)
  | .accD r ind => some (indirect ind (s.get16 (baseReg r) + s.get16 .d) s)
  | .off8 r ind n => some (indirect ind (s.get16 (baseReg r) + sext8 n) s)
  | .off16 r ind n => some (indirect ind (s.get16 (baseReg r) + n) s)
  | .pcr8 _ ind n => some (indirect ind (s.get16 .pc + sext8 n) s)
  | .pcr16 _ ind n => some (indirect ind (s.get16 .pc + n) s)
  | .extInd a => some (indirect true a s)
  | .illegal _ => none

/-- The effective address of a memory operand (R133, R135, R140) and the state the resolver leaves. -/
def resolve (ea : Ea) (s : State) : Option (Word × State) :=
  match ea with
  | .dir lo => some (joinBytes (s.get8 .dp) lo, s)
  | .idx i => resolveIdx i s
  | .ext a => some (a, s)

/-- `M8` (R159) and the state after it is read. -/
def operand8 (src : Src8) (s : State) : Option (Byte × State) :=
  match src with
  | .imm v => some (v, s)
  | .mem ea => (resolve ea s).map fun p => read8 p.1 p.2

/-- `M16` (R159) and the state after it is read. -/
def operand16 (src : Src16) (s : State) : Option (Word × State) :=
  match src with
  | .imm v => some (v, s)
  | .mem ea => (resolve ea s).map fun p => read16 p.1 p.2

/-- R155: with an illegal post-byte nothing happens. -/
def orNothing {α : Type} (o : Option (α × State)) (f : α → State → State) (s : State) : State :=
  match o with
  | some p => f p.1 p.2
  | none => s

/-! ## Shapes -/

/-- `R <- op(R, M8)` with its flags. -/
def accumulate8 (r : Reg8) (op : Byte → Byte → Byte → Byte × Byte) (src : Src8) (s : State) : State :=
  orNothing (operand8 src s) (fun m s1 =>
    let p := op (s1.get8 r) m (s1.get8 .cc)
    (s1.set8 r p.1).set8 .cc p.2) s

/-- `R <- op(R, M16)` with its flags. -/
def accumulate16 (r : Reg16) (op : Word → Word → Byte → Word × Byte) (src : Src16) (s : State) : State :=
  orNothing (operand16 src s) (fun m s1 =>
    let p := op (s1.get16 r) m (s1.get8 .cc)
    (s1.set16 r p.1).set8 .cc p.2) s

/-- The flags of `op(R, M8)`, the result discarded ("CMP* affects flags only, never writes back"; BIT). -/
def compare8 (r : Reg8) (op : Byte → Byte → Byte → Byte × Byte) (src : Src8) (s : State) : State :=
  orNothing (operand8 src s) (fun m s1 => s1.set8 .cc (op (s1.get8 r) m (s1.get8 .cc)).2) s

/-- The flags of `op(R, M16)`, the result discarded. -/
def compare16 (r : Reg16) (op : Word → Word → Byte → Word × Byte) (src : Src16) (s : State) : State :=
  orNothing (operand16 src s) (fun m s1 => s1.set8 .cc (op (s1.get16 r) m (s1.get8 .cc)).2) s

/-- R185: a store sets N and Z only; the value is the register's after the resolver has run. -/
def store8 (r : Reg8) (ea : Ea) (s : State) : State :=
  orNothing (resolve ea s) (fun a s1 => write8 a (s1.get8 r) (s1.set8 .cc (nz8 (s1.get8 r) (s1.get8 .cc)))) s

/-- R185, 16 bits. -/
def store16 (r : Reg16) (ea : Ea) (s : State) : State :=
  orNothing (resolve ea s) (fun a s1 => write16 a (s1.get16 r) (s1.set8 .cc (nz16 (s1.get16 r) (s1.get8 .cc)))) s

/-- R231: one read and one write of the same address. -/
def modify (op : Byte → Byte → Byte × Byte) (ea : Ea) (s : State) : State :=
  orNothing (resolve ea s) (fun a s1 =>
    let m := read8 a s1
    let p := op m.1 (m.2.get8 .cc)
    write8 a p.1 (m.2.set8 .cc p.2)) s

/-- R231: the accumulator forms. -/
def modifyAcc (r : Reg8) (op : Byte → Byte → Byte × Byte) (s : State) : State :=
  let p := op (s.get8 r) (s.get8 .cc)
  (s.set8 r p.1).set8 .cc p.2

/-- R228 to R230: memory is read once and not written. -/
def test (op : Byte → Byte → Byte × Byte) (ea : Ea) (s : State) : State :=
  orNothing (resolve ea s) (fun a s1 =>
    let m := read8 a s1
    m.2.set8 .cc (op m.1 (m.2.get8 .cc)).2) s

/-- R188, R189: the effective address itself, no flag. -/
def loadAddress (r : Reg16) (i : Idx) (s : State) : State :=
  orNothing (resolveIdx i s) (fun a s1 => s1.set16 r a) s

/-- R186, R187: the effective address itself, Z from it. -/
def loadAddressZ (r : Reg16) (i : Idx) (s : State) : State :=
  orNothing (resolveIdx i s) (fun a s1 => (s1.set16 r a).setFlag .z (a == 0#16)) s

/-- R131, R300: the branch to `PC + offset`. -/
def branch (k : Cond) (offset : Word) (s : State) : State :=
  if k.taken (s.get8 .cc) then s.set16 .pc (s.get16 .pc + offset) else s

/-- R338: the return address is pushed on `S`. -/
def call (target : Word) (s : State) : State := (push16 .s (s.get16 .pc) s).set16 .pc target

end Sys2Proof.Machine
end

