-- ==== Sys2Proof/Machine/Arithmetic.lean ====
section
/-!
DEFINITION. Arithmetic: add, subtract, compare, negate, increment, decrement, test, MUL, SEX, DAA, ABX (`42_arithmetic.md`).
-/

namespace Sys2Proof.Machine

/-- R200 -/
def execAdda (src : Src8) (s : State) : Result := .next (accumulate8 .a addOp src s)

/-- R201 -/
def execAddb (src : Src8) (s : State) : Result := .next (accumulate8 .b addOp src s)

/-- R202 -/
def execAddd (src : Src16) (s : State) : Result := .next (accumulate16 .d add16 src s)

/-- R204 -/
def execAdca (src : Src8) (s : State) : Result := .next (accumulate8 .a adcOp src s)

/-- R205 -/
def execAdcb (src : Src8) (s : State) : Result := .next (accumulate8 .b adcOp src s)

/-- R206 -/
def execSuba (src : Src8) (s : State) : Result := .next (accumulate8 .a subOp src s)

/-- R207 -/
def execSubb (src : Src8) (s : State) : Result := .next (accumulate8 .b subOp src s)

/-- R208 -/
def execSubd (src : Src16) (s : State) : Result := .next (accumulate16 .d sub16 src s)

/-- R210 -/
def execSbca (src : Src8) (s : State) : Result := .next (accumulate8 .a sbcOp src s)

/-- R211 -/
def execSbcb (src : Src8) (s : State) : Result := .next (accumulate8 .b sbcOp src s)

/-- R212 -/
def execCmpa (src : Src8) (s : State) : Result := .next (compare8 .a subOp src s)

/-- R213 -/
def execCmpb (src : Src8) (s : State) : Result := .next (compare8 .b subOp src s)

/-- R214 -/
def execCmpd (src : Src16) (s : State) : Result := .next (compare16 .d sub16 src s)

/-- R215 -/
def execCmpx (src : Src16) (s : State) : Result := .next (compare16 .x sub16 src s)

/-- R216 -/
def execCmpy (src : Src16) (s : State) : Result := .next (compare16 .y sub16 src s)

/-- R217 -/
def execCmpu (src : Src16) (s : State) : Result := .next (compare16 .u sub16 src s)

/-- R218 -/
def execCmps (src : Src16) (s : State) : Result := .next (compare16 .s sub16 src s)

/-- R219, R231 -/
def execNeg (ea : Ea) (s : State) : Result := .next (modify negOp ea s)

/-- R220 -/
def execNega (s : State) : Result := .next (modifyAcc .a negOp s)

/-- R221 -/
def execNegb (s : State) : Result := .next (modifyAcc .b negOp s)

/-- R222, R231 -/
def execInc (ea : Ea) (s : State) : Result := .next (modify incOp ea s)

/-- R223 -/
def execInca (s : State) : Result := .next (modifyAcc .a incOp s)

/-- R224 -/
def execIncb (s : State) : Result := .next (modifyAcc .b incOp s)

/-- R225, R231 -/
def execDec (ea : Ea) (s : State) : Result := .next (modify decOp ea s)

/-- R226 -/
def execDeca (s : State) : Result := .next (modifyAcc .a decOp s)

/-- R227 -/
def execDecb (s : State) : Result := .next (modifyAcc .b decOp s)

/-- R228 -/
def execTst (ea : Ea) (s : State) : Result := .next (test tstOp ea s)

/-- R229 -/
def execTsta (s : State) : Result := .next (modifyAcc .a tstOp s)

/-- R230 -/
def execTstb (s : State) : Result := .next (modifyAcc .b tstOp s)

/-- R232 -/
def execMul (s : State) : Result :=
  let p := mulOp (s.get8 .a) (s.get8 .b) (s.get8 .cc)
  .next ((s.set16 .d p.1).set8 .cc p.2)

/-- R233 -/
def execSex (s : State) : Result :=
  let p := sexOp (s.get8 .b) (s.get8 .cc)
  .next ((s.set16 .d p.1).set8 .cc p.2)

/-- R235 -/
def execDaa (s : State) : Result := .next (modifyAcc .a daaOp s)

/-- R237 -/
def execAbx (s : State) : Result := .next (s.set16 .x (s.get16 .x + zext8 (s.get8 .b)))

end Sys2Proof.Machine
end

