-- ==== Sys2Proof/Machine/Branches.lean ====
section
/-!
DEFINITION. Branches, jumps, calls and returns (`45_branches_control.md`).
-/

namespace Sys2Proof.Machine

/-- R301 -/
def execBra (offset : Byte) (s : State) : Result := .next (branch .always (sext8 offset) s)

/-- R302 -/
def execBrn (offset : Byte) (s : State) : Result := .next (branch .never (sext8 offset) s)

/-- R303 -/
def execBhi (offset : Byte) (s : State) : Result := .next (branch .hi (sext8 offset) s)

/-- R304 -/
def execBls (offset : Byte) (s : State) : Result := .next (branch .ls (sext8 offset) s)

/-- R305 -/
def execBcc (offset : Byte) (s : State) : Result := .next (branch .cc (sext8 offset) s)

/-- R306 -/
def execBcs (offset : Byte) (s : State) : Result := .next (branch .cs (sext8 offset) s)

/-- R307 -/
def execBne (offset : Byte) (s : State) : Result := .next (branch .ne (sext8 offset) s)

/-- R308 -/
def execBeq (offset : Byte) (s : State) : Result := .next (branch .eq (sext8 offset) s)

/-- R309 -/
def execBvc (offset : Byte) (s : State) : Result := .next (branch .vc (sext8 offset) s)

/-- R310 -/
def execBvs (offset : Byte) (s : State) : Result := .next (branch .vs (sext8 offset) s)

/-- R311 -/
def execBpl (offset : Byte) (s : State) : Result := .next (branch .pl (sext8 offset) s)

/-- R312 -/
def execBmi (offset : Byte) (s : State) : Result := .next (branch .mi (sext8 offset) s)

/-- R313 -/
def execBge (offset : Byte) (s : State) : Result := .next (branch .ge (sext8 offset) s)

/-- R314 -/
def execBlt (offset : Byte) (s : State) : Result := .next (branch .lt (sext8 offset) s)

/-- R315 -/
def execBgt (offset : Byte) (s : State) : Result := .next (branch .gt (sext8 offset) s)

/-- R316 -/
def execBle (offset : Byte) (s : State) : Result := .next (branch .le (sext8 offset) s)

/-- R318 -/
def execLbra (offset : Word) (s : State) : Result := .next (branch .always offset s)

/-- R319 -/
def execLbrn (offset : Word) (s : State) : Result := .next (branch .never offset s)

/-- R320 -/
def execLbhi (offset : Word) (s : State) : Result := .next (branch .hi offset s)

/-- R321 -/
def execLbls (offset : Word) (s : State) : Result := .next (branch .ls offset s)

/-- R322 -/
def execLbcc (offset : Word) (s : State) : Result := .next (branch .cc offset s)

/-- R323 -/
def execLbcs (offset : Word) (s : State) : Result := .next (branch .cs offset s)

/-- R324 -/
def execLbne (offset : Word) (s : State) : Result := .next (branch .ne offset s)

/-- R325 -/
def execLbeq (offset : Word) (s : State) : Result := .next (branch .eq offset s)

/-- R326 -/
def execLbvc (offset : Word) (s : State) : Result := .next (branch .vc offset s)

/-- R327 -/
def execLbvs (offset : Word) (s : State) : Result := .next (branch .vs offset s)

/-- R328 -/
def execLbpl (offset : Word) (s : State) : Result := .next (branch .pl offset s)

/-- R329 -/
def execLbmi (offset : Word) (s : State) : Result := .next (branch .mi offset s)

/-- R330 -/
def execLbge (offset : Word) (s : State) : Result := .next (branch .ge offset s)

/-- R331 -/
def execLblt (offset : Word) (s : State) : Result := .next (branch .lt offset s)

/-- R332 -/
def execLbgt (offset : Word) (s : State) : Result := .next (branch .gt offset s)

/-- R333 -/
def execLble (offset : Word) (s : State) : Result := .next (branch .le offset s)

/-- R317, R338 -/
def execBsr (offset : Byte) (s : State) : Result := .next (call (s.get16 .pc + sext8 offset) s)

/-- R334, R338 -/
def execLbsr (offset : Word) (s : State) : Result := .next (call (s.get16 .pc + offset) s)

/-- R335 -/
def execJmp (ea : Ea) (s : State) : Result := .next (orNothing (resolve ea s) (fun a s1 => s1.set16 .pc a) s)

/-- R336, R338: the address is computed before the push -/
def execJsr (ea : Ea) (s : State) : Result := .next (orNothing (resolve ea s) call s)

/-- R337 -/
def execRts (s : State) : Result := .next (pullReg16 .s .pc s)

end Sys2Proof.Machine
end

