-- ==== Sys2Proof/Machine/DataMovement.lean ====
section
/-!
DEFINITION. Data movement: loads, stores, load effective address, clear (`41_data_movement.md`).
-/

namespace Sys2Proof.Machine

/-- R170, R184 -/
def execLda (src : Src8) (s : State) : Result := .next (accumulate8 .a loadOp src s)

/-- R171, R184 -/
def execLdb (src : Src8) (s : State) : Result := .next (accumulate8 .b loadOp src s)

/-- R172, R184 -/
def execLdd (src : Src16) (s : State) : Result := .next (accumulate16 .d loadOp16 src s)

/-- R173, R184 -/
def execLdx (src : Src16) (s : State) : Result := .next (accumulate16 .x loadOp16 src s)

/-- R174, R184 -/
def execLdy (src : Src16) (s : State) : Result := .next (accumulate16 .y loadOp16 src s)

/-- R175, R184 -/
def execLdu (src : Src16) (s : State) : Result := .next (accumulate16 .u loadOp16 src s)

/-- R176, R184 -/
def execLds (src : Src16) (s : State) : Result := .next (accumulate16 .s loadOp16 src s)

/-- R177, R185: V is not cleared -/
def execSta (ea : Ea) (s : State) : Result := .next (store8 .a ea s)

/-- R178, R185: V is not cleared -/
def execStb (ea : Ea) (s : State) : Result := .next (store8 .b ea s)

/-- R179, R185: V is not cleared -/
def execStd (ea : Ea) (s : State) : Result := .next (store16 .d ea s)

/-- R180, R185: V is not cleared -/
def execStx (ea : Ea) (s : State) : Result := .next (store16 .x ea s)

/-- R181, R185: V is not cleared -/
def execSty (ea : Ea) (s : State) : Result := .next (store16 .y ea s)

/-- R182, R185: V is not cleared -/
def execStu (ea : Ea) (s : State) : Result := .next (store16 .u ea s)

/-- R183, R185: V is not cleared -/
def execSts (ea : Ea) (s : State) : Result := .next (store16 .s ea s)

/-- R186 -/
def execLeax (idx : Idx) (s : State) : Result := .next (loadAddressZ .x idx s)

/-- R187 -/
def execLeay (idx : Idx) (s : State) : Result := .next (loadAddressZ .y idx s)

/-- R188 -/
def execLeas (idx : Idx) (s : State) : Result := .next (loadAddress .s idx s)

/-- R189 -/
def execLeau (idx : Idx) (s : State) : Result := .next (loadAddress .u idx s)

/-- R190, D37: read, then written -/
def execClr (ea : Ea) (s : State) : Result := .next (modify clrOp ea s)

/-- R191 -/
def execClra (s : State) : Result := .next (modifyAcc .a clrOp s)

/-- R192 -/
def execClrb (s : State) : Result := .next (modifyAcc .b clrOp s)

end Sys2Proof.Machine
end

