-- ==== Sys2Proof/Machine/Interrupts.lean ====
section
/-!
DEFINITION. Interrupt-related opcodes and NOP (`48_interrupt_opcodes.md`).
-/

namespace Sys2Proof.Machine

/-- R386, R387: the instruction does not retire; the block waits once the instruction's own cycles are over. -/
def thenWait (a : Active) (s : State) : State := { s with resume := a }

/-- R380, R383 -/
def execSwi (s : State) : Result := .next (enterException true true swiVector s)

/-- R381, R383: no mask is set -/
def execSwi2 (s : State) : Result := .next (enterException true false swi2Vector s)

/-- R382, R383: no mask is set -/
def execSwi3 (s : State) : Result := .next (enterException true false swi3Vector s)

/-- R385 -/
def execRti (s : State) : Result := .next (returnFromException s)

/-- R386, the entry phase. -/
def execCwai (imm : Byte) (s : State) : Result :=
  .next (thenWait .waitCwai (stackAll ((s.set8 .cc (s.get8 .cc &&& imm)).setFlag .e true)))

/-- R387 -/
def execSync (s : State) : Result := .next (thenWait .waitSync s)

/-- R388 -/
def execNop (s : State) : Result := .next (s)

end Sys2Proof.Machine
end

