-- ==== Sys2Proof/Machine/Invalid.lean ====
section
/-!
DEFINITION. Invalid opcodes (`49_invalid_opcodes.md`) and the page selection entries of the opcode table (R94).
-/

namespace Sys2Proof.Machine

/-- R410: "leaves all registers except PC unchanged" -/
def execInvalid (_page : Page) (_opcode : Byte) (s : State) : Result := .next (s)

/-- R94: `page <- 1` -/
def execPage2 (s : State) : Result := .next (selectPage .p1 s)

/-- R94: `page <- 2` -/
def execPage3 (s : State) : Result := .next (selectPage .p2 s)

end Sys2Proof.Machine
end

