-- ==== Sys2Proof/Machine/Logical.lean ====
section
/-!
DEFINITION. Logical operations, on accumulators, memory and `CC` (`43_logical.md`).
-/

namespace Sys2Proof.Machine

/-- R250 -/
def execAnda (src : Src8) (s : State) : Result := .next (accumulate8 .a andOp src s)

/-- R251 -/
def execAndb (src : Src8) (s : State) : Result := .next (accumulate8 .b andOp src s)

/-- R252 -/
def execOra (src : Src8) (s : State) : Result := .next (accumulate8 .a orOp src s)

/-- R260 -/
def execOrb (src : Src8) (s : State) : Result := .next (accumulate8 .b orOp src s)

/-- R253 -/
def execEora (src : Src8) (s : State) : Result := .next (accumulate8 .a eorOp src s)

/-- R254 -/
def execEorb (src : Src8) (s : State) : Result := .next (accumulate8 .b eorOp src s)

/-- R258 -/
def execBita (src : Src8) (s : State) : Result := .next (compare8 .a andOp src s)

/-- R259 -/
def execBitb (src : Src8) (s : State) : Result := .next (compare8 .b andOp src s)

/-- R255, R231 -/
def execCom (ea : Ea) (s : State) : Result := .next (modify comOp ea s)

/-- R256 -/
def execComa (s : State) : Result := .next (modifyAcc .a comOp s)

/-- R257 -/
def execComb (s : State) : Result := .next (modifyAcc .b comOp s)

/-- R261 -/
def execOrcc (imm : Byte) (s : State) : Result := .next (s.set8 .cc (s.get8 .cc ||| imm))

/-- R262 -/
def execAndcc (imm : Byte) (s : State) : Result := .next (s.set8 .cc (s.get8 .cc &&& imm))

end Sys2Proof.Machine
end

