-- ==== Sys2Proof/Machine/Shifts.lean ====
section
/-!
DEFINITION. Shifts and rotates by one bit (`44_shifts_rotates.md`); LSL is ASL (R295).
-/

namespace Sys2Proof.Machine

/-- R280, R231 -/
def execAsl (ea : Ea) (s : State) : Result := .next (modify aslOp ea s)

/-- R281 -/
def execAsla (s : State) : Result := .next (modifyAcc .a aslOp s)

/-- R282 -/
def execAslb (s : State) : Result := .next (modifyAcc .b aslOp s)

/-- R283, R231 -/
def execAsr (ea : Ea) (s : State) : Result := .next (modify asrOp ea s)

/-- R284 -/
def execAsra (s : State) : Result := .next (modifyAcc .a asrOp s)

/-- R285 -/
def execAsrb (s : State) : Result := .next (modifyAcc .b asrOp s)

/-- R286, R231 -/
def execLsr (ea : Ea) (s : State) : Result := .next (modify lsrOp ea s)

/-- R287 -/
def execLsra (s : State) : Result := .next (modifyAcc .a lsrOp s)

/-- R288 -/
def execLsrb (s : State) : Result := .next (modifyAcc .b lsrOp s)

/-- R289, R231 -/
def execRol (ea : Ea) (s : State) : Result := .next (modify rolOp ea s)

/-- R290 -/
def execRola (s : State) : Result := .next (modifyAcc .a rolOp s)

/-- R291 -/
def execRolb (s : State) : Result := .next (modifyAcc .b rolOp s)

/-- R292, R231 -/
def execRor (ea : Ea) (s : State) : Result := .next (modify rorOp ea s)

/-- R293 -/
def execRora (s : State) : Result := .next (modifyAcc .a rorOp s)

/-- R294 -/
def execRorb (s : State) : Result := .next (modifyAcc .b rorOp s)

end Sys2Proof.Machine
end

