-- ==== Sys2Proof/Machine/Stack.lean ====
section
/-!
DEFINITION. Stack operations (`46_stack_ops.md`).
-/

namespace Sys2Proof.Machine

/-- `Push(sp, other, mask)` (R355): the values are those at the start of the instruction (R356). -/
def pushMask (sp other : Reg16) (m : StackMask) (s : State) : State :=
  let s1 := if m.pc then push16 sp (s.get16 .pc) s else s
  let s2 := if m.other then push16 sp (s.get16 other) s1 else s1
  let s3 := if m.y then push16 sp (s.get16 .y) s2 else s2
  let s4 := if m.x then push16 sp (s.get16 .x) s3 else s3
  let s5 := if m.dp then push8 sp (s.get8 .dp) s4 else s4
  let s6 := if m.b then push8 sp (s.get8 .b) s5 else s5
  let s7 := if m.a then push8 sp (s.get8 .a) s6 else s6
  if m.cc then push8 sp (s.get8 .cc) s7 else s7

/-- `Pull(sp, other, mask)` (R355). -/
def pullMask (sp other : Reg16) (m : StackMask) (s : State) : State :=
  let s1 := if m.cc then pullReg8 sp .cc s else s
  let s2 := if m.a then pullReg8 sp .a s1 else s1
  let s3 := if m.b then pullReg8 sp .b s2 else s2
  let s4 := if m.dp then pullReg8 sp .dp s3 else s3
  let s5 := if m.x then pullReg16 sp .x s4 else s4
  let s6 := if m.y then pullReg16 sp .y s5 else s5
  let s7 := if m.other then pullReg16 sp other s6 else s6
  if m.pc then pullReg16 sp .pc s7 else s7

/-- R354, R355: how many bytes a mask moves. -/
def maskBytes (m : StackMask) : Nat :=
  2 * m.pc.toNat + 2 * m.other.toNat + 2 * m.y.toNat + 2 * m.x.toNat + m.dp.toNat + m.b.toNat + m.a.toNat + m.cc.toNat

/-- R350 -/
def execPshs (mask : StackMask) (s : State) : Result := .next (pushMask .s .u mask s)

/-- R351 -/
def execPuls (mask : StackMask) (s : State) : Result := .next (pullMask .s .u mask s)

/-- R352 -/
def execPshu (mask : StackMask) (s : State) : Result := .next (pushMask .u .s mask s)

/-- R353 -/
def execPulu (mask : StackMask) (s : State) : Result := .next (pullMask .u .s mask s)

end Sys2Proof.Machine
end

