-- ==== Sys2Proof/Machine/Transfer.lean ====
section
/-!
DEFINITION. Register transfer (`47_register_transfer.md`).
-/

namespace Sys2Proof.Machine

/-- R360, R362, R363: a pair of mixed width, or with a code that names no register, does nothing. -/
def transfer (p : RegPair) (s : State) : State :=
  match p.src, p.dst with
  | .r16 r, .r16 q => s.set16 q (s.get16 r)
  | .r8 r, .r8 q => s.set8 q (s.get8 r)
  | .r16 _, .r8 _ | .r16 _, .unassigned _ | .r8 _, .r16 _ | .r8 _, .unassigned _ => s
  | .unassigned _, .r16 _ | .unassigned _, .r8 _ | .unassigned _, .unassigned _ => s

/-- R361: "both reads happen before either write". -/
def exchange (p : RegPair) (s : State) : State :=
  match p.src, p.dst with
  | .r16 r, .r16 q => (s.set16 r (s.get16 q)).set16 q (s.get16 r)
  | .r8 r, .r8 q => (s.set8 r (s.get8 q)).set8 q (s.get8 r)
  | .r16 _, .r8 _ | .r16 _, .unassigned _ | .r8 _, .r16 _ | .r8 _, .unassigned _ => s
  | .unassigned _, .r16 _ | .unassigned _, .r8 _ | .unassigned _, .unassigned _ => s

/-- R360 -/
def execTfr (pair : RegPair) (s : State) : Result := .next (transfer pair s)

/-- R361 -/
def execExg (pair : RegPair) (s : State) : Result := .next (exchange pair s)

end Sys2Proof.Machine
end

