-- ==== Sys2Proof/Machine/Dispatch.lean ====
section
/-!
DEFINITION. From an instruction to its meaning: one arm per constructor of `Instr`.
-/

namespace Sys2Proof.Machine

def exec (i : Instr) (s : State) : Host.Outcome State Fault Refusal :=
  match i with
  | .lda src => Sys2Proof.Machine.execLda src s
  | .ldb src => Sys2Proof.Machine.execLdb src s
  | .ldd src => Sys2Proof.Machine.execLdd src s
  | .ldx src => Sys2Proof.Machine.execLdx src s
  | .ldy src => Sys2Proof.Machine.execLdy src s
  | .ldu src => Sys2Proof.Machine.execLdu src s
  | .lds src => Sys2Proof.Machine.execLds src s
  | .sta ea => Sys2Proof.Machine.execSta ea s
  | .stb ea => Sys2Proof.Machine.execStb ea s
  | .std ea => Sys2Proof.Machine.execStd ea s
  | .stx ea => Sys2Proof.Machine.execStx ea s
  | .sty ea => Sys2Proof.Machine.execSty ea s
  | .stu ea => Sys2Proof.Machine.execStu ea s
  | .sts ea => Sys2Proof.Machine.execSts ea s
  | .leax idx => Sys2Proof.Machine.execLeax idx s
  | .leay idx => Sys2Proof.Machine.execLeay idx s
  | .leas idx => Sys2Proof.Machine.execLeas idx s
  | .leau idx => Sys2Proof.Machine.execLeau idx s
  | .clr ea => Sys2Proof.Machine.execClr ea s
  | .clra => Sys2Proof.Machine.execClra s
  | .clrb => Sys2Proof.Machine.execClrb s
  | .adda src => Sys2Proof.Machine.execAdda src s
  | .addb src => Sys2Proof.Machine.execAddb src s
  | .addd src => Sys2Proof.Machine.execAddd src s
  | .adca src => Sys2Proof.Machine.execAdca src s
  | .adcb src => Sys2Proof.Machine.execAdcb src s
  | .suba src => Sys2Proof.Machine.execSuba src s
  | .subb src => Sys2Proof.Machine.execSubb src s
  | .subd src => Sys2Proof.Machine.execSubd src s
  | .sbca src => Sys2Proof.Machine.execSbca src s
  | .sbcb src => Sys2Proof.Machine.execSbcb src s
  | .cmpa src => Sys2Proof.Machine.execCmpa src s
  | .cmpb src => Sys2Proof.Machine.execCmpb src s
  | .cmpd src => Sys2Proof.Machine.execCmpd src s
  | .cmpx src => Sys2Proof.Machine.execCmpx src s
  | .cmpy src => Sys2Proof.Machine.execCmpy src s
  | .cmpu src => Sys2Proof.Machine.execCmpu src s
  | .cmps src => Sys2Proof.Machine.execCmps src s
  | .neg ea => Sys2Proof.Machine.execNeg ea s
  | .nega => Sys2Proof.Machine.execNega s
  | .negb => Sys2Proof.Machine.execNegb s
  | .inc ea => Sys2Proof.Machine.execInc ea s
  | .inca => Sys2Proof.Machine.execInca s
  | .incb => Sys2Proof.Machine.execIncb s
  | .dec ea => Sys2Proof.Machine.execDec ea s
  | .deca => Sys2Proof.Machine.execDeca s
  | .decb => Sys2Proof.Machine.execDecb s
  | .tst ea => Sys2Proof.Machine.execTst ea s
  | .tsta => Sys2Proof.Machine.execTsta s
  | .tstb => Sys2Proof.Machine.execTstb s
  | .mul => Sys2Proof.Machine.execMul s
  | .sex => Sys2Proof.Machine.execSex s
  | .daa => Sys2Proof.Machine.execDaa s
  | .abx => Sys2Proof.Machine.execAbx s
  | .anda src => Sys2Proof.Machine.execAnda src s
  | .andb src => Sys2Proof.Machine.execAndb src s
  | .ora src => Sys2Proof.Machine.execOra src s
  | .orb src => Sys2Proof.Machine.execOrb src s
  | .eora src => Sys2Proof.Machine.execEora src s
  | .eorb src => Sys2Proof.Machine.execEorb src s
  | .bita src => Sys2Proof.Machine.execBita src s
  | .bitb src => Sys2Proof.Machine.execBitb src s
  | .com ea => Sys2Proof.Machine.execCom ea s
  | .coma => Sys2Proof.Machine.execComa s
  | .comb => Sys2Proof.Machine.execComb s
  | .orcc imm => Sys2Proof.Machine.execOrcc imm s
  | .andcc imm => Sys2Proof.Machine.execAndcc imm s
  | .asl ea => Sys2Proof.Machine.execAsl ea s
  | .asla => Sys2Proof.Machine.execAsla s
  | .aslb => Sys2Proof.Machine.execAslb s
  | .asr ea => Sys2Proof.Machine.execAsr ea s
  | .asra => Sys2Proof.Machine.execAsra s
  | .asrb => Sys2Proof.Machine.execAsrb s
  | .lsr ea => Sys2Proof.Machine.execLsr ea s
  | .lsra => Sys2Proof.Machine.execLsra s
  | .lsrb => Sys2Proof.Machine.execLsrb s
  | .rol ea => Sys2Proof.Machine.execRol ea s
  | .rola => Sys2Proof.Machine.execRola s
  | .rolb => Sys2Proof.Machine.execRolb s
  | .ror ea => Sys2Proof.Machine.execRor ea s
  | .rora => Sys2Proof.Machine.execRora s
  | .rorb => Sys2Proof.Machine.execRorb s
  | .bra offset => Sys2Proof.Machine.execBra offset s
  | .brn offset => Sys2Proof.Machine.execBrn offset s
  | .bhi offset => Sys2Proof.Machine.execBhi offset s
  | .bls offset => Sys2Proof.Machine.execBls offset s
  | .bcc offset => Sys2Proof.Machine.execBcc offset s
  | .bcs offset => Sys2Proof.Machine.execBcs offset s
  | .bne offset => Sys2Proof.Machine.execBne offset s
  | .beq offset => Sys2Proof.Machine.execBeq offset s
  | .bvc offset => Sys2Proof.Machine.execBvc offset s
  | .bvs offset => Sys2Proof.Machine.execBvs offset s
  | .bpl offset => Sys2Proof.Machine.execBpl offset s
  | .bmi offset => Sys2Proof.Machine.execBmi offset s
  | .bge offset => Sys2Proof.Machine.execBge offset s
  | .blt offset => Sys2Proof.Machine.execBlt offset s
  | .bgt offset => Sys2Proof.Machine.execBgt offset s
  | .ble offset => Sys2Proof.Machine.execBle offset s
  | .bsr offset => Sys2Proof.Machine.execBsr offset s
  | .lbra offset => Sys2Proof.Machine.execLbra offset s
  | .lbrn offset => Sys2Proof.Machine.execLbrn offset s
  | .lbhi offset => Sys2Proof.Machine.execLbhi offset s
  | .lbls offset => Sys2Proof.Machine.execLbls offset s
  | .lbcc offset => Sys2Proof.Machine.execLbcc offset s
  | .lbcs offset => Sys2Proof.Machine.execLbcs offset s
  | .lbne offset => Sys2Proof.Machine.execLbne offset s
  | .lbeq offset => Sys2Proof.Machine.execLbeq offset s
  | .lbvc offset => Sys2Proof.Machine.execLbvc offset s
  | .lbvs offset => Sys2Proof.Machine.execLbvs offset s
  | .lbpl offset => Sys2Proof.Machine.execLbpl offset s
  | .lbmi offset => Sys2Proof.Machine.execLbmi offset s
  | .lbge offset => Sys2Proof.Machine.execLbge offset s
  | .lblt offset => Sys2Proof.Machine.execLblt offset s
  | .lbgt offset => Sys2Proof.Machine.execLbgt offset s
  | .lble offset => Sys2Proof.Machine.execLble offset s
  | .lbsr offset => Sys2Proof.Machine.execLbsr offset s
  | .jmp ea => Sys2Proof.Machine.execJmp ea s
  | .jsr ea => Sys2Proof.Machine.execJsr ea s
  | .rts => Sys2Proof.Machine.execRts s
  | .pshs mask => Sys2Proof.Machine.execPshs mask s
  | .puls mask => Sys2Proof.Machine.execPuls mask s
  | .pshu mask => Sys2Proof.Machine.execPshu mask s
  | .pulu mask => Sys2Proof.Machine.execPulu mask s
  | .tfr pair => Sys2Proof.Machine.execTfr pair s
  | .exg pair => Sys2Proof.Machine.execExg pair s
  | .swi => Sys2Proof.Machine.execSwi s
  | .swi2 => Sys2Proof.Machine.execSwi2 s
  | .swi3 => Sys2Proof.Machine.execSwi3 s
  | .rti => Sys2Proof.Machine.execRti s
  | .cwai imm => Sys2Proof.Machine.execCwai imm s
  | .sync => Sys2Proof.Machine.execSync s
  | .nop => Sys2Proof.Machine.execNop s
  | .page2 => Sys2Proof.Machine.execPage2 s
  | .page3 => Sys2Proof.Machine.execPage3 s
  | .invalid page opcode => Sys2Proof.Machine.execInvalid page opcode s

end Sys2Proof.Machine
end

