-- ==== Sys2Proof/WellFormed.lean ====
section
/-!
DEFINITION. Which terms of `Instr` are instructions: each check names the rule it comes from.  A term that passes is exactly one
byte sequence (R90), and `decode` gives it back from `encode`.
-/

namespace Sys2Proof

/-- R155: the 39 post-bytes without a meaning. -/
def isIllegalPostByte (pb : Byte) : Bool :=
  pb.getLsbD 7 &&
    (let sub := pb.extractLsb' 0 4
     let ind := pb.getLsbD 4
     sub == 0b0111#4 || sub == 0b1010#4 || sub == 0b1110#4 ||
     (sub == 0b1111#4 && pb != 0x9F#8) ||
     (ind && (sub == 0b0000#4 || sub == 0b0010#4)))

/-- R103: the invalid entries of page 0. -/
def invalidPage0 : List Byte :=
  [0x01#8, 0x02#8, 0x05#8, 0x0B#8, 0x14#8, 0x15#8, 0x18#8, 0x1B#8, 0x38#8, 0x3E#8, 0x41#8, 0x42#8, 0x45#8, 0x4B#8, 0x4E#8,
   0x51#8, 0x52#8, 0x55#8, 0x5B#8, 0x5E#8, 0x61#8, 0x62#8, 0x65#8, 0x6B#8, 0x71#8, 0x72#8, 0x75#8, 0x7B#8, 0x87#8, 0x8F#8,
   0xC7#8, 0xCD#8, 0xCF#8]

/-- R101: the documented entries of page 1. -/
def documentedPage1 : List Byte :=
  [0x21#8, 0x22#8, 0x23#8, 0x24#8, 0x25#8, 0x26#8, 0x27#8, 0x28#8, 0x29#8, 0x2A#8, 0x2B#8, 0x2C#8, 0x2D#8, 0x2E#8, 0x2F#8,
   0x3F#8, 0x83#8, 0x8C#8, 0x8E#8, 0x93#8, 0x9C#8, 0x9E#8, 0x9F#8, 0xA3#8, 0xAC#8, 0xAE#8, 0xAF#8, 0xB3#8, 0xBC#8, 0xBE#8,
   0xBF#8, 0xCE#8, 0xDE#8, 0xDF#8, 0xEE#8, 0xEF#8, 0xFE#8, 0xFF#8]

/-- R102: the documented entries of page 2. -/
def documentedPage2 : List Byte :=
  [0x3F#8, 0x83#8, 0x8C#8, 0x93#8, 0x9C#8, 0xA3#8, 0xAC#8, 0xB3#8, 0xBC#8]

/-- R103: is `(page, opcode)` an entry with no documented mnemonic? -/
def isInvalidEntry : Page → Byte → Bool
  | .p0, op => invalidPage0.contains op
  | .p1, op => !documentedPage1.contains op
  | .p2, op => !documentedPage2.contains op

/-- R155: only a post-byte without a meaning is the illegal form. -/
def Idx.wf : Idx → Bool
  | .illegal pb => isIllegalPostByte pb
  | .off5 .. | .inc1 .. | .inc2 .. | .dec1 .. | .dec2 .. | .zero .. | .accB .. | .accA .. | .accD .. | .off8 .. | .off16 ..
  | .pcr8 .. | .pcr16 .. | .extInd .. => true

def Ea.wf : Ea → Bool
  | .idx i => i.wf
  | .dir _ | .ext _ => true

def Src8.wf : Src8 → Bool
  | .imm _ => true
  | .mem ea => ea.wf

def Src16.wf : Src16 → Bool
  | .imm _ => true
  | .mem ea => ea.wf

/-- R106: the codes that name no register are `0110`, `0111` and `1100` to `1111`. -/
def RegCode.wf : RegCode → Bool
  | .unassigned c => c == 0b0110#4 || c == 0b0111#4 || c.extractLsb' 2 2 == 0b11#2
  | .r16 _ | .r8 _ => true

def RegPair.wf (p : RegPair) : Bool := p.src.wf && p.dst.wf

/-- A well-formed instruction.  A page selection byte alone is not one: "The prefix and the byte after it are one instruction"
(R94). -/
def Instr.wf : Instr → Bool
  | .lda src | .ldb src | .adda src | .addb src | .adca src | .adcb src | .suba src | .subb src | .sbca src | .sbcb src
  | .cmpa src | .cmpb src | .anda src | .andb src | .ora src | .orb src | .eora src | .eorb src | .bita src | .bitb src => src.wf
  | .ldd src | .ldx src | .ldy src | .ldu src | .lds src | .addd src | .subd src | .cmpd src | .cmpx src | .cmpy src
  | .cmpu src | .cmps src => src.wf
  | .sta ea | .stb ea | .std ea | .stx ea | .sty ea | .stu ea | .sts ea | .clr ea | .neg ea | .inc ea | .dec ea
  | .tst ea | .com ea | .asl ea | .asr ea | .lsr ea | .rol ea | .ror ea | .jmp ea | .jsr ea => ea.wf
  | .leax idx | .leay idx | .leas idx | .leau idx => idx.wf
  | .tfr pair | .exg pair => pair.wf
  | .invalid page opcode => isInvalidEntry page opcode
  | .page2 | .page3 => false
  | .orcc _ | .andcc _ | .cwai _ | .bra _ | .brn _ | .bhi _ | .bls _ | .bcc _ | .bcs _ | .bne _ | .beq _ | .bvc _
  | .bvs _ | .bpl _ | .bmi _ | .bge _ | .blt _ | .bgt _ | .ble _ | .bsr _ | .lbra _ | .lbrn _ | .lbhi _ | .lbls _
  | .lbcc _ | .lbcs _ | .lbne _ | .lbeq _ | .lbvc _ | .lbvs _ | .lbpl _ | .lbmi _ | .lbge _ | .lblt _ | .lbgt _
  | .lble _ | .lbsr _ | .pshs _ | .puls _ | .pshu _ | .pulu _ => true
  | .clra | .clrb | .nega | .negb | .inca | .incb | .deca | .decb | .tsta | .tstb | .mul | .sex | .daa | .abx | .coma
  | .comb | .asla | .aslb | .asra | .asrb | .lsra | .lsrb | .rola | .rolb | .rora | .rorb | .rts | .swi | .swi2 | .swi3
  | .rti | .sync | .nop => true

end Sys2Proof
end

