-- ==== Sys2Proof/Decode.lean ====
section
/-!
DEFINITION. From bytes to instructions and back.

The opcode table (R45, R92, R100 to R103) is one total function of page and opcode byte.  `decodeWindow` reads the instruction
that starts a window of five bytes (R90: an instruction is 1 to 5 bytes), so it never refuses; `decode` reads one from a list of
bytes and rejects by name only a list that ends too early.  `encode` is written from the Encoding line of each instruction's rule.
-/

namespace Sys2Proof

/-! ## The opcode table -/

/-- The formats of R91 with the instruction each entry builds from its operand bytes. -/
inductive Form where
  | inh (i : Instr)
  | imm8 (mk : Byte → Instr)
  | imm16 (mk : Word → Instr)
  | dir (mk : Byte → Instr)
  | ext (mk : Word → Instr)
  | idx (mk : Idx → Instr)
  | rel8 (mk : Byte → Instr)
  | rel16 (mk : Word → Instr)
  | stk (mk : StackMask → Instr)
  | rr (mk : RegPair → Instr)
  | pageSelect (page : Page) (i : Instr)
  | invalid (i : Instr)

/-- An entry of the opcode table (R92): format and instruction, minimum and maximum cycle count (`cycles` and `cycles_max` of
`spec/opcode_table.json`). -/
structure OpEntry where
  form : Form
  cycles : Nat
  cyclesMax : Nat

/-- An entry with no documented mnemonic (R103, R410). -/
def invalidEntry (page : Page) (opcode : Byte) : OpEntry :=
  let n := Config.invalidCycles (page != .p0)
  ⟨.invalid (.invalid page opcode), n, n⟩

/-- R100: page 0. -/
def opTable0 (opcode : Byte) : OpEntry :=
  match opcode.toNat with
  | 0x00 => ⟨.dir fun lo => .neg (.dir lo), 6, 6⟩
  | 0x03 => ⟨.dir fun lo => .com (.dir lo), 6, 6⟩
  | 0x04 => ⟨.dir fun lo => .lsr (.dir lo), 6, 6⟩
  | 0x06 => ⟨.dir fun lo => .ror (.dir lo), 6, 6⟩
  | 0x07 => ⟨.dir fun lo => .asr (.dir lo), 6, 6⟩
  | 0x08 => ⟨.dir fun lo => .asl (.dir lo), 6, 6⟩
  | 0x09 => ⟨.dir fun lo => .rol (.dir lo), 6, 6⟩
  | 0x0A => ⟨.dir fun lo => .dec (.dir lo), 6, 6⟩
  | 0x0C => ⟨.dir fun lo => .inc (.dir lo), 6, 6⟩
  | 0x0D => ⟨.dir fun lo => .tst (.dir lo), 6, 6⟩
  | 0x0E => ⟨.dir fun lo => .jmp (.dir lo), 3, 3⟩
  | 0x0F => ⟨.dir fun lo => .clr (.dir lo), 6, 6⟩
  | 0x10 => ⟨.pageSelect .p1 .page2, 1, 1⟩
  | 0x11 => ⟨.pageSelect .p2 .page3, 1, 1⟩
  | 0x12 => ⟨.inh .nop, 2, 2⟩
  | 0x13 => ⟨.inh .sync, 4, 4⟩
  | 0x16 => ⟨.rel16 .lbra, 5, 5⟩
  | 0x17 => ⟨.rel16 .lbsr, 9, 9⟩
  | 0x19 => ⟨.inh .daa, 2, 2⟩
  | 0x1A => ⟨.imm8 .orcc, 3, 3⟩
  | 0x1C => ⟨.imm8 .andcc, 3, 3⟩
  | 0x1D => ⟨.inh .sex, 2, 2⟩
  | 0x1E => ⟨.rr .exg, 8, 8⟩
  | 0x1F => ⟨.rr .tfr, 6, 6⟩
  | 0x20 => ⟨.rel8 .bra, 3, 3⟩
  | 0x21 => ⟨.rel8 .brn, 3, 3⟩
  | 0x22 => ⟨.rel8 .bhi, 3, 3⟩
  | 0x23 => ⟨.rel8 .bls, 3, 3⟩
  | 0x24 => ⟨.rel8 .bcc, 3, 3⟩
  | 0x25 => ⟨.rel8 .bcs, 3, 3⟩
  | 0x26 => ⟨.rel8 .bne, 3, 3⟩
  | 0x27 => ⟨.rel8 .beq, 3, 3⟩
  | 0x28 => ⟨.rel8 .bvc, 3, 3⟩
  | 0x29 => ⟨.rel8 .bvs, 3, 3⟩
  | 0x2A => ⟨.rel8 .bpl, 3, 3⟩
  | 0x2B => ⟨.rel8 .bmi, 3, 3⟩
  | 0x2C => ⟨.rel8 .bge, 3, 3⟩
  | 0x2D => ⟨.rel8 .blt, 3, 3⟩
  | 0x2E => ⟨.rel8 .bgt, 3, 3⟩
  | 0x2F => ⟨.rel8 .ble, 3, 3⟩
  | 0x30 => ⟨.idx .leax, 4, 4⟩
  | 0x31 => ⟨.idx .leay, 4, 4⟩
  | 0x32 => ⟨.idx .leas, 4, 4⟩
  | 0x33 => ⟨.idx .leau, 4, 4⟩
  | 0x34 => ⟨.stk .pshs, 5, 17⟩
  | 0x35 => ⟨.stk .puls, 5, 17⟩
  | 0x36 => ⟨.stk .pshu, 5, 17⟩
  | 0x37 => ⟨.stk .pulu, 5, 17⟩
  | 0x39 => ⟨.inh .rts, 5, 5⟩
  | 0x3A => ⟨.inh .abx, 3, 3⟩
  | 0x3B => ⟨.inh .rti, 6, 15⟩
  | 0x3C => ⟨.imm8 .cwai, 20, 20⟩
  | 0x3D => ⟨.inh .mul, 11, 11⟩
  | 0x3F => ⟨.inh .swi, 19, 19⟩
  | 0x40 => ⟨.inh .nega, 2, 2⟩
  | 0x43 => ⟨.inh .coma, 2, 2⟩
  | 0x44 => ⟨.inh .lsra, 2, 2⟩
  | 0x46 => ⟨.inh .rora, 2, 2⟩
  | 0x47 => ⟨.inh .asra, 2, 2⟩
  | 0x48 => ⟨.inh .asla, 2, 2⟩
  | 0x49 => ⟨.inh .rola, 2, 2⟩
  | 0x4A => ⟨.inh .deca, 2, 2⟩
  | 0x4C => ⟨.inh .inca, 2, 2⟩
  | 0x4D => ⟨.inh .tsta, 2, 2⟩
  | 0x4F => ⟨.inh .clra, 2, 2⟩
  | 0x50 => ⟨.inh .negb, 2, 2⟩
  | 0x53 => ⟨.inh .comb, 2, 2⟩
  | 0x54 => ⟨.inh .lsrb, 2, 2⟩
  | 0x56 => ⟨.inh .rorb, 2, 2⟩
  | 0x57 => ⟨.inh .asrb, 2, 2⟩
  | 0x58 => ⟨.inh .aslb, 2, 2⟩
  | 0x59 => ⟨.inh .rolb, 2, 2⟩
  | 0x5A => ⟨.inh .decb, 2, 2⟩
  | 0x5C => ⟨.inh .incb, 2, 2⟩
  | 0x5D => ⟨.inh .tstb, 2, 2⟩
  | 0x5F => ⟨.inh .clrb, 2, 2⟩
  | 0x60 => ⟨.idx fun i => .neg (.idx i), 6, 6⟩
  | 0x63 => ⟨.idx fun i => .com (.idx i), 6, 6⟩
  | 0x64 => ⟨.idx fun i => .lsr (.idx i), 6, 6⟩
  | 0x66 => ⟨.idx fun i => .ror (.idx i), 6, 6⟩
  | 0x67 => ⟨.idx fun i => .asr (.idx i), 6, 6⟩
  | 0x68 => ⟨.idx fun i => .asl (.idx i), 6, 6⟩
  | 0x69 => ⟨.idx fun i => .rol (.idx i), 6, 6⟩
  | 0x6A => ⟨.idx fun i => .dec (.idx i), 6, 6⟩
  | 0x6C => ⟨.idx fun i => .inc (.idx i), 6, 6⟩
  | 0x6D => ⟨.idx fun i => .tst (.idx i), 6, 6⟩
  | 0x6E => ⟨.idx fun i => .jmp (.idx i), 3, 3⟩
  | 0x6F => ⟨.idx fun i => .clr (.idx i), 6, 6⟩
  | 0x70 => ⟨.ext fun a => .neg (.ext a), 7, 7⟩
  | 0x73 => ⟨.ext fun a => .com (.ext a), 7, 7⟩
  | 0x74 => ⟨.ext fun a => .lsr (.ext a), 7, 7⟩
  | 0x76 => ⟨.ext fun a => .ror (.ext a), 7, 7⟩
  | 0x77 => ⟨.ext fun a => .asr (.ext a), 7, 7⟩
  | 0x78 => ⟨.ext fun a => .asl (.ext a), 7, 7⟩
  | 0x79 => ⟨.ext fun a => .rol (.ext a), 7, 7⟩
  | 0x7A => ⟨.ext fun a => .dec (.ext a), 7, 7⟩
  | 0x7C => ⟨.ext fun a => .inc (.ext a), 7, 7⟩
  | 0x7D => ⟨.ext fun a => .tst (.ext a), 7, 7⟩
  | 0x7E => ⟨.ext fun a => .jmp (.ext a), 4, 4⟩
  | 0x7F => ⟨.ext fun a => .clr (.ext a), 7, 7⟩
  | 0x80 => ⟨.imm8 fun v => .suba (.imm v), 2, 2⟩
  | 0x81 => ⟨.imm8 fun v => .cmpa (.imm v), 2, 2⟩
  | 0x82 => ⟨.imm8 fun v => .sbca (.imm v), 2, 2⟩
  | 0x83 => ⟨.imm16 fun v => .subd (.imm v), 4, 4⟩
  | 0x84 => ⟨.imm8 fun v => .anda (.imm v), 2, 2⟩
  | 0x85 => ⟨.imm8 fun v => .bita (.imm v), 2, 2⟩
  | 0x86 => ⟨.imm8 fun v => .lda (.imm v), 2, 2⟩
  | 0x88 => ⟨.imm8 fun v => .eora (.imm v), 2, 2⟩
  | 0x89 => ⟨.imm8 fun v => .adca (.imm v), 2, 2⟩
  | 0x8A => ⟨.imm8 fun v => .ora (.imm v), 2, 2⟩
  | 0x8B => ⟨.imm8 fun v => .adda (.imm v), 2, 2⟩
  | 0x8C => ⟨.imm16 fun v => .cmpx (.imm v), 4, 4⟩
  | 0x8D => ⟨.rel8 .bsr, 7, 7⟩
  | 0x8E => ⟨.imm16 fun v => .ldx (.imm v), 3, 3⟩
  | 0x90 => ⟨.dir fun lo => .suba (.mem (.dir lo)), 4, 4⟩
  | 0x91 => ⟨.dir fun lo => .cmpa (.mem (.dir lo)), 4, 4⟩
  | 0x92 => ⟨.dir fun lo => .sbca (.mem (.dir lo)), 4, 4⟩
  | 0x93 => ⟨.dir fun lo => .subd (.mem (.dir lo)), 6, 6⟩
  | 0x94 => ⟨.dir fun lo => .anda (.mem (.dir lo)), 4, 4⟩
  | 0x95 => ⟨.dir fun lo => .bita (.mem (.dir lo)), 4, 4⟩
  | 0x96 => ⟨.dir fun lo => .lda (.mem (.dir lo)), 4, 4⟩
  | 0x97 => ⟨.dir fun lo => .sta (.dir lo), 4, 4⟩
  | 0x98 => ⟨.dir fun lo => .eora (.mem (.dir lo)), 4, 4⟩
  | 0x99 => ⟨.dir fun lo => .adca (.mem (.dir lo)), 4, 4⟩
  | 0x9A => ⟨.dir fun lo => .ora (.mem (.dir lo)), 4, 4⟩
  | 0x9B => ⟨.dir fun lo => .adda (.mem (.dir lo)), 4, 4⟩
  | 0x9C => ⟨.dir fun lo => .cmpx (.mem (.dir lo)), 6, 6⟩
  | 0x9D => ⟨.dir fun lo => .jsr (.dir lo), 7, 7⟩
  | 0x9E => ⟨.dir fun lo => .ldx (.mem (.dir lo)), 5, 5⟩
  | 0x9F => ⟨.dir fun lo => .stx (.dir lo), 5, 5⟩
  | 0xA0 => ⟨.idx fun i => .suba (.mem (.idx i)), 4, 4⟩
  | 0xA1 => ⟨.idx fun i => .cmpa (.mem (.idx i)), 4, 4⟩
  | 0xA2 => ⟨.idx fun i => .sbca (.mem (.idx i)), 4, 4⟩
  | 0xA3 => ⟨.idx fun i => .subd (.mem (.idx i)), 6, 6⟩
  | 0xA4 => ⟨.idx fun i => .anda (.mem (.idx i)), 4, 4⟩
  | 0xA5 => ⟨.idx fun i => .bita (.mem (.idx i)), 4, 4⟩
  | 0xA6 => ⟨.idx fun i => .lda (.mem (.idx i)), 4, 4⟩
  | 0xA7 => ⟨.idx fun i => .sta (.idx i), 4, 4⟩
  | 0xA8 => ⟨.idx fun i => .eora (.mem (.idx i)), 4, 4⟩
  | 0xA9 => ⟨.idx fun i => .adca (.mem (.idx i)), 4, 4⟩
  | 0xAA => ⟨.idx fun i => .ora (.mem (.idx i)), 4, 4⟩
  | 0xAB => ⟨.idx fun i => .adda (.mem (.idx i)), 4, 4⟩
  | 0xAC => ⟨.idx fun i => .cmpx (.mem (.idx i)), 6, 6⟩
  | 0xAD => ⟨.idx fun i => .jsr (.idx i), 7, 7⟩
  | 0xAE => ⟨.idx fun i => .ldx (.mem (.idx i)), 5, 5⟩
  | 0xAF => ⟨.idx fun i => .stx (.idx i), 5, 5⟩
  | 0xB0 => ⟨.ext fun a => .suba (.mem (.ext a)), 5, 5⟩
  | 0xB1 => ⟨.ext fun a => .cmpa (.mem (.ext a)), 5, 5⟩
  | 0xB2 => ⟨.ext fun a => .sbca (.mem (.ext a)), 5, 5⟩
  | 0xB3 => ⟨.ext fun a => .subd (.mem (.ext a)), 7, 7⟩
  | 0xB4 => ⟨.ext fun a => .anda (.mem (.ext a)), 5, 5⟩
  | 0xB5 => ⟨.ext fun a => .bita (.mem (.ext a)), 5, 5⟩
  | 0xB6 => ⟨.ext fun a => .lda (.mem (.ext a)), 5, 5⟩
  | 0xB7 => ⟨.ext fun a => .sta (.ext a), 5, 5⟩
  | 0xB8 => ⟨.ext fun a => .eora (.mem (.ext a)), 5, 5⟩
  | 0xB9 => ⟨.ext fun a => .adca (.mem (.ext a)), 5, 5⟩
  | 0xBA => ⟨.ext fun a => .ora (.mem (.ext a)), 5, 5⟩
  | 0xBB => ⟨.ext fun a => .adda (.mem (.ext a)), 5, 5⟩
  | 0xBC => ⟨.ext fun a => .cmpx (.mem (.ext a)), 7, 7⟩
  | 0xBD => ⟨.ext fun a => .jsr (.ext a), 8, 8⟩
  | 0xBE => ⟨.ext fun a => .ldx (.mem (.ext a)), 6, 6⟩
  | 0xBF => ⟨.ext fun a => .stx (.ext a), 6, 6⟩
  | 0xC0 => ⟨.imm8 fun v => .subb (.imm v), 2, 2⟩
  | 0xC1 => ⟨.imm8 fun v => .cmpb (.imm v), 2, 2⟩
  | 0xC2 => ⟨.imm8 fun v => .sbcb (.imm v), 2, 2⟩
  | 0xC3 => ⟨.imm16 fun v => .addd (.imm v), 4, 4⟩
  | 0xC4 => ⟨.imm8 fun v => .andb (.imm v), 2, 2⟩
  | 0xC5 => ⟨.imm8 fun v => .bitb (.imm v), 2, 2⟩
  | 0xC6 => ⟨.imm8 fun v => .ldb (.imm v), 2, 2⟩
  | 0xC8 => ⟨.imm8 fun v => .eorb (.imm v), 2, 2⟩
  | 0xC9 => ⟨.imm8 fun v => .adcb (.imm v), 2, 2⟩
  | 0xCA => ⟨.imm8 fun v => .orb (.imm v), 2, 2⟩
  | 0xCB => ⟨.imm8 fun v => .addb (.imm v), 2, 2⟩
  | 0xCC => ⟨.imm16 fun v => .ldd (.imm v), 3, 3⟩
  | 0xCE => ⟨.imm16 fun v => .ldu (.imm v), 3, 3⟩
  | 0xD0 => ⟨.dir fun lo => .subb (.mem (.dir lo)), 4, 4⟩
  | 0xD1 => ⟨.dir fun lo => .cmpb (.mem (.dir lo)), 4, 4⟩
  | 0xD2 => ⟨.dir fun lo => .sbcb (.mem (.dir lo)), 4, 4⟩
  | 0xD3 => ⟨.dir fun lo => .addd (.mem (.dir lo)), 6, 6⟩
  | 0xD4 => ⟨.dir fun lo => .andb (.mem (.dir lo)), 4, 4⟩
  | 0xD5 => ⟨.dir fun lo => .bitb (.mem (.dir lo)), 4, 4⟩
  | 0xD6 => ⟨.dir fun lo => .ldb (.mem (.dir lo)), 4, 4⟩
  | 0xD7 => ⟨.dir fun lo => .stb (.dir lo), 4, 4⟩
  | 0xD8 => ⟨.dir fun lo => .eorb (.mem (.dir lo)), 4, 4⟩
  | 0xD9 => ⟨.dir fun lo => .adcb (.mem (.dir lo)), 4, 4⟩
  | 0xDA => ⟨.dir fun lo => .orb (.mem (.dir lo)), 4, 4⟩
  | 0xDB => ⟨.dir fun lo => .addb (.mem (.dir lo)), 4, 4⟩
  | 0xDC => ⟨.dir fun lo => .ldd (.mem (.dir lo)), 5, 5⟩
  | 0xDD => ⟨.dir fun lo => .std (.dir lo), 5, 5⟩
  | 0xDE => ⟨.dir fun lo => .ldu (.mem (.dir lo)), 5, 5⟩
  | 0xDF => ⟨.dir fun lo => .stu (.dir lo), 5, 5⟩
  | 0xE0 => ⟨.idx fun i => .subb (.mem (.idx i)), 4, 4⟩
  | 0xE1 => ⟨.idx fun i => .cmpb (.mem (.idx i)), 4, 4⟩
  | 0xE2 => ⟨.idx fun i => .sbcb (.mem (.idx i)), 4, 4⟩
  | 0xE3 => ⟨.idx fun i => .addd (.mem (.idx i)), 6, 6⟩
  | 0xE4 => ⟨.idx fun i => .andb (.mem (.idx i)), 4, 4⟩
  | 0xE5 => ⟨.idx fun i => .bitb (.mem (.idx i)), 4, 4⟩
  | 0xE6 => ⟨.idx fun i => .ldb (.mem (.idx i)), 4, 4⟩
  | 0xE7 => ⟨.idx fun i => .stb (.idx i), 4, 4⟩
  | 0xE8 => ⟨.idx fun i => .eorb (.mem (.idx i)), 4, 4⟩
  | 0xE9 => ⟨.idx fun i => .adcb (.mem (.idx i)), 4, 4⟩
  | 0xEA => ⟨.idx fun i => .orb (.mem (.idx i)), 4, 4⟩
  | 0xEB => ⟨.idx fun i => .addb (.mem (.idx i)), 4, 4⟩
  | 0xEC => ⟨.idx fun i => .ldd (.mem (.idx i)), 5, 5⟩
  | 0xED => ⟨.idx fun i => .std (.idx i), 5, 5⟩
  | 0xEE => ⟨.idx fun i => .ldu (.mem (.idx i)), 5, 5⟩
  | 0xEF => ⟨.idx fun i => .stu (.idx i), 5, 5⟩
  | 0xF0 => ⟨.ext fun a => .subb (.mem (.ext a)), 5, 5⟩
  | 0xF1 => ⟨.ext fun a => .cmpb (.mem (.ext a)), 5, 5⟩
  | 0xF2 => ⟨.ext fun a => .sbcb (.mem (.ext a)), 5, 5⟩
  | 0xF3 => ⟨.ext fun a => .addd (.mem (.ext a)), 7, 7⟩
  | 0xF4 => ⟨.ext fun a => .andb (.mem (.ext a)), 5, 5⟩
  | 0xF5 => ⟨.ext fun a => .bitb (.mem (.ext a)), 5, 5⟩
  | 0xF6 => ⟨.ext fun a => .ldb (.mem (.ext a)), 5, 5⟩
  | 0xF7 => ⟨.ext fun a => .stb (.ext a), 5, 5⟩
  | 0xF8 => ⟨.ext fun a => .eorb (.mem (.ext a)), 5, 5⟩
  | 0xF9 => ⟨.ext fun a => .adcb (.mem (.ext a)), 5, 5⟩
  | 0xFA => ⟨.ext fun a => .orb (.mem (.ext a)), 5, 5⟩
  | 0xFB => ⟨.ext fun a => .addb (.mem (.ext a)), 5, 5⟩
  | 0xFC => ⟨.ext fun a => .ldd (.mem (.ext a)), 6, 6⟩
  | 0xFD => ⟨.ext fun a => .std (.ext a), 6, 6⟩
  | 0xFE => ⟨.ext fun a => .ldu (.mem (.ext a)), 6, 6⟩
  | 0xFF => ⟨.ext fun a => .stu (.ext a), 6, 6⟩
  | _ => invalidEntry .p0 opcode

/-- R101: page 1, behind `$10`. -/
def opTable1 (opcode : Byte) : OpEntry :=
  match opcode.toNat with
  | 0x21 => ⟨.rel16 .lbrn, 5, 6⟩
  | 0x22 => ⟨.rel16 .lbhi, 5, 6⟩
  | 0x23 => ⟨.rel16 .lbls, 5, 6⟩
  | 0x24 => ⟨.rel16 .lbcc, 5, 6⟩
  | 0x25 => ⟨.rel16 .lbcs, 5, 6⟩
  | 0x26 => ⟨.rel16 .lbne, 5, 6⟩
  | 0x27 => ⟨.rel16 .lbeq, 5, 6⟩
  | 0x28 => ⟨.rel16 .lbvc, 5, 6⟩
  | 0x29 => ⟨.rel16 .lbvs, 5, 6⟩
  | 0x2A => ⟨.rel16 .lbpl, 5, 6⟩
  | 0x2B => ⟨.rel16 .lbmi, 5, 6⟩
  | 0x2C => ⟨.rel16 .lbge, 5, 6⟩
  | 0x2D => ⟨.rel16 .lblt, 5, 6⟩
  | 0x2E => ⟨.rel16 .lbgt, 5, 6⟩
  | 0x2F => ⟨.rel16 .lble, 5, 6⟩
  | 0x3F => ⟨.inh .swi2, 20, 20⟩
  | 0x83 => ⟨.imm16 fun v => .cmpd (.imm v), 5, 5⟩
  | 0x8C => ⟨.imm16 fun v => .cmpy (.imm v), 5, 5⟩
  | 0x8E => ⟨.imm16 fun v => .ldy (.imm v), 4, 4⟩
  | 0x93 => ⟨.dir fun lo => .cmpd (.mem (.dir lo)), 7, 7⟩
  | 0x9C => ⟨.dir fun lo => .cmpy (.mem (.dir lo)), 7, 7⟩
  | 0x9E => ⟨.dir fun lo => .ldy (.mem (.dir lo)), 6, 6⟩
  | 0x9F => ⟨.dir fun lo => .sty (.dir lo), 6, 6⟩
  | 0xA3 => ⟨.idx fun i => .cmpd (.mem (.idx i)), 7, 7⟩
  | 0xAC => ⟨.idx fun i => .cmpy (.mem (.idx i)), 7, 7⟩
  | 0xAE => ⟨.idx fun i => .ldy (.mem (.idx i)), 6, 6⟩
  | 0xAF => ⟨.idx fun i => .sty (.idx i), 6, 6⟩
  | 0xB3 => ⟨.ext fun a => .cmpd (.mem (.ext a)), 8, 8⟩
  | 0xBC => ⟨.ext fun a => .cmpy (.mem (.ext a)), 8, 8⟩
  | 0xBE => ⟨.ext fun a => .ldy (.mem (.ext a)), 7, 7⟩
  | 0xBF => ⟨.ext fun a => .sty (.ext a), 7, 7⟩
  | 0xCE => ⟨.imm16 fun v => .lds (.imm v), 4, 4⟩
  | 0xDE => ⟨.dir fun lo => .lds (.mem (.dir lo)), 6, 6⟩
  | 0xDF => ⟨.dir fun lo => .sts (.dir lo), 6, 6⟩
  | 0xEE => ⟨.idx fun i => .lds (.mem (.idx i)), 6, 6⟩
  | 0xEF => ⟨.idx fun i => .sts (.idx i), 6, 6⟩
  | 0xFE => ⟨.ext fun a => .lds (.mem (.ext a)), 7, 7⟩
  | 0xFF => ⟨.ext fun a => .sts (.ext a), 7, 7⟩
  | _ => invalidEntry .p1 opcode

/-- R102: page 2, behind `$11`. -/
def opTable2 (opcode : Byte) : OpEntry :=
  match opcode.toNat with
  | 0x3F => ⟨.inh .swi3, 20, 20⟩
  | 0x83 => ⟨.imm16 fun v => .cmpu (.imm v), 5, 5⟩
  | 0x8C => ⟨.imm16 fun v => .cmps (.imm v), 5, 5⟩
  | 0x93 => ⟨.dir fun lo => .cmpu (.mem (.dir lo)), 7, 7⟩
  | 0x9C => ⟨.dir fun lo => .cmps (.mem (.dir lo)), 7, 7⟩
  | 0xA3 => ⟨.idx fun i => .cmpu (.mem (.idx i)), 7, 7⟩
  | 0xAC => ⟨.idx fun i => .cmps (.mem (.idx i)), 7, 7⟩
  | 0xB3 => ⟨.ext fun a => .cmpu (.mem (.ext a)), 8, 8⟩
  | 0xBC => ⟨.ext fun a => .cmps (.mem (.ext a)), 8, 8⟩
  | _ => invalidEntry .p2 opcode

/-- `OpcodeTable[page][b]` (R92, R94): total over 3 x 256 entries. -/
def opTable : Page → Byte → OpEntry
  | .p0, b => opTable0 b
  | .p1, b => opTable1 b
  | .p2, b => opTable2 b

/-! ## Post-bytes -/

/-- R154: `pb[6:5]`. -/
def baseOf (pb : Byte) : Base :=
  match (pb.extractLsb' 5 2).toNat with
  | 0 => .x
  | 1 => .y
  | 2 => .u
  | _ => .s

/-- R140, R157: the indexed operand whose post-byte is `pb`, with the two bytes after it, and how many of those it takes
(R107). -/
def decodeIdx (pb o1 o2 : Byte) : Idx × Nat :=
  let r := baseOf pb
  let rr := pb.extractLsb' 5 2
  let ind := pb.getLsbD 4
  if !pb.getLsbD 7 then (.off5 r (pb.extractLsb' 0 5), 0)
  else
    match (loNibble pb).toNat with
    | 0x0 => (if ind then .illegal pb else .inc1 r, 0)
    | 0x1 => (.inc2 r ind, 0)
    | 0x2 => (if ind then .illegal pb else .dec1 r, 0)
    | 0x3 => (.dec2 r ind, 0)
    | 0x4 => (.zero r ind, 0)
    | 0x5 => (.accB r ind, 0)
    | 0x6 => (.accA r ind, 0)
    | 0x8 => (.off8 r ind o1, 1)
    | 0x9 => (.off16 r ind (joinBytes o1 o2), 2)
    | 0xB => (.accD r ind, 0)
    | 0xC => (.pcr8 rr ind o1, 1)
    | 0xD => (.pcr16 rr ind (joinBytes o1 o2), 2)
    | 0xF => if pb == 0x9F#8 then (.extInd (joinBytes o1 o2), 2) else (.illegal pb, 0)
    | _ => (.illegal pb, 0)

/-- R105, R354: the stack post-byte. -/
def decodeMask (m : Byte) : StackMask where
  pc := m.getLsbD 7
  other := m.getLsbD 6
  y := m.getLsbD 5
  x := m.getLsbD 4
  dp := m.getLsbD 3
  b := m.getLsbD 2
  a := m.getLsbD 1
  cc := m.getLsbD 0

/-- R106: a register code. -/
def decodeReg (c : BitVec 4) : RegCode :=
  match c.toNat with
  | 0x0 => .r16 .d
  | 0x1 => .r16 .x
  | 0x2 => .r16 .y
  | 0x3 => .r16 .u
  | 0x4 => .r16 .s
  | 0x5 => .r16 .pc
  | 0x8 => .r8 .a
  | 0x9 => .r8 .b
  | 0xA => .r8 .cc
  | 0xB => .r8 .dp
  | _ => .unassigned c

/-- R106: `r[7:4]` is the source, `r[3:0]` the destination. -/
def decodePair (r : Byte) : RegPair := ⟨decodeReg (hiNibble r), decodeReg (loNibble r)⟩

/-! ## Decoding -/

/-- R95: operand assembly.  The instruction an entry builds from the bytes after the opcode, and how many of them it takes. -/
def Form.assemble (f : Form) (b1 b2 b3 : Byte) : Instr × Nat :=
  match f with
  | .inh i => (i, 0)
  | .imm8 mk => (mk b1, 1)
  | .imm16 mk => (mk (joinBytes b1 b2), 2)
  | .dir mk => (mk b1, 1)
  | .ext mk => (mk (joinBytes b1 b2), 2)
  | .idx mk => (mk (decodeIdx b1 b2 b3).1, 1 + (decodeIdx b1 b2 b3).2)
  | .rel8 mk => (mk b1, 1)
  | .rel16 mk => (mk (joinBytes b1 b2), 2)
  | .stk mk => (mk (decodeMask b1), 1)
  | .rr mk => (mk (decodePair b1), 1)
  | .pageSelect _ i => (i, 0)
  | .invalid i => (i, 0)

/-- A decoded instruction: its opcode-table entry `(page, opcode)` (R40), the instruction, and all its bytes (R90). -/
structure Decoded where
  page : Page
  opcode : Byte
  instr : Instr
  length : Nat
  deriving DecidableEq, Repr

/-- The instruction of entry `(page, opcode)` with operand bytes `b1 b2 b3`. -/
def decodeEntry (page : Page) (opcode b1 b2 b3 : Byte) : Decoded :=
  let r := (opTable page opcode).form.assemble b1 b2 b3
  ⟨page, opcode, r.1, 1 + r.2⟩

/-- The same behind a page selection byte, which counts in the length (R90). -/
def decodeBehindPage (page : Page) (opcode b1 b2 b3 : Byte) : Decoded :=
  let d := decodeEntry page opcode b1 b2 b3
  { d with length := 1 + d.length }

/-- R94: the page that a first byte selects; none for an unprefixed opcode. -/
def pageSelected (b : Byte) : Option Page :=
  match (opTable .p0 b).form with
  | .pageSelect page _ => some page
  | .inh _ | .imm8 _ | .imm16 _ | .dir _ | .ext _ | .idx _ | .rel8 _ | .rel16 _ | .stk _ | .rr _ | .invalid _ => none

/-- R94: the instruction that starts the window `b0 .. b4`.  Exactly one page selection byte is honoured. -/
def decodeWindow (b0 b1 b2 b3 b4 : Byte) : Decoded :=
  match pageSelected b0 with
  | some page => decodeBehindPage page b1 b2 b3 b4
  | none => decodeEntry .p0 b0 b1 b2 b3

/-- Why `decode` rejects a list of bytes. -/
inductive DecodeError where
  /-- the list ends before the instruction it starts does; no byte sequence of full length is rejected (R103) -/
  | truncated
  deriving DecidableEq, Repr

/-- The instruction at the head of a list of bytes, and the bytes after it. -/
def decode (bytes : List Byte) : Except DecodeError (Instr × List Byte) :=
  let at' := fun k => bytes.getD k 0x00#8
  let d := decodeWindow (at' 0) (at' 1) (at' 2) (at' 3) (at' 4)
  if d.length ≤ bytes.length then .ok (d.instr, bytes.drop d.length) else .error .truncated

/-! ## Encoding -/

/-- R154, inverse. -/
def baseBits : Base → BitVec 2
  | .x => 0b00#2
  | .y => 0b01#2
  | .u => 0b10#2
  | .s => 0b11#2

/-- A post-byte with `pb[7] = 1`: register field, indirect bit, sub-mode (R140). -/
def postByte (rr : BitVec 2) (ind : Bool) (sub : BitVec 4) : Byte := 0b1#1 ++ rr ++ BitVec.ofBool ind ++ sub

/-- R140: post-byte and offset bytes. -/
def encodeIdx : Idx → List Byte
  | .off5 r n => [0b0#1 ++ baseBits r ++ n]
  | .inc1 r => [postByte (baseBits r) false 0b0000#4]
  | .inc2 r ind => [postByte (baseBits r) ind 0b0001#4]
  | .dec1 r => [postByte (baseBits r) false 0b0010#4]
  | .dec2 r ind => [postByte (baseBits r) ind 0b0011#4]
  | .zero r ind => [postByte (baseBits r) ind 0b0100#4]
  | .accB r ind => [postByte (baseBits r) ind 0b0101#4]
  | .accA r ind => [postByte (baseBits r) ind 0b0110#4]
  | .off8 r ind n => [postByte (baseBits r) ind 0b1000#4, n]
  | .off16 r ind n => [postByte (baseBits r) ind 0b1001#4, hiByte n, loByte n]
  | .accD r ind => [postByte (baseBits r) ind 0b1011#4]
  | .pcr8 rr ind n => [postByte rr ind 0b1100#4, n]
  | .pcr16 rr ind n => [postByte rr ind 0b1101#4, hiByte n, loByte n]
  | .extInd a => [0x9F#8, hiByte a, loByte a]
  | .illegal pb => [pb]

/-- R354: the stack post-byte. -/
def encodeMask (m : StackMask) : Byte :=
  BitVec.ofBool m.pc ++ BitVec.ofBool m.other ++ BitVec.ofBool m.y ++ BitVec.ofBool m.x ++
  BitVec.ofBool m.dp ++ BitVec.ofBool m.b ++ BitVec.ofBool m.a ++ BitVec.ofBool m.cc

/-- R106: the register codes. -/
def encodeReg : RegCode → BitVec 4
  | .r16 .d => 0b0000#4
  | .r16 .x => 0b0001#4
  | .r16 .y => 0b0010#4
  | .r16 .u => 0b0011#4
  | .r16 .s => 0b0100#4
  | .r16 .pc => 0b0101#4
  | .r8 .a => 0b1000#4
  | .r8 .b => 0b1001#4
  | .r8 .cc => 0b1010#4
  | .r8 .dp => 0b1011#4
  | .unassigned c => c

def encodePair (p : RegPair) : Byte := encodeReg p.src ++ encodeReg p.dst

/-- A memory operand under the opcodes of its direct, indexed and extended rows. -/
def encodeEa (dir idx ext : Byte) : Ea → List Byte
  | .dir lo => [dir, lo]
  | .idx i => idx :: encodeIdx i
  | .ext a => [ext, hiByte a, loByte a]

/-- An 8-bit operand under the opcodes of its immediate, direct, indexed and extended rows. -/
def encodeSrc8 (imm dir idx ext : Byte) : Src8 → List Byte
  | .imm v => [imm, v]
  | .mem ea => encodeEa dir idx ext ea

/-- A 16-bit operand under the opcodes of its immediate, direct, indexed and extended rows. -/
def encodeSrc16 (imm dir idx ext : Byte) : Src16 → List Byte
  | .imm v => [imm, hiByte v, loByte v]
  | .mem ea => encodeEa dir idx ext ea

/-- The bytes of an instruction, from the Encoding line of its rule. -/
def encode : Instr → List Byte
  | .lda src => encodeSrc8 0x86#8 0x96#8 0xA6#8 0xB6#8 src
  | .ldb src => encodeSrc8 0xC6#8 0xD6#8 0xE6#8 0xF6#8 src
  | .ldd src => encodeSrc16 0xCC#8 0xDC#8 0xEC#8 0xFC#8 src
  | .ldx src => encodeSrc16 0x8E#8 0x9E#8 0xAE#8 0xBE#8 src
  | .ldy src => 0x10#8 :: encodeSrc16 0x8E#8 0x9E#8 0xAE#8 0xBE#8 src
  | .ldu src => encodeSrc16 0xCE#8 0xDE#8 0xEE#8 0xFE#8 src
  | .lds src => 0x10#8 :: encodeSrc16 0xCE#8 0xDE#8 0xEE#8 0xFE#8 src
  | .sta ea => encodeEa 0x97#8 0xA7#8 0xB7#8 ea
  | .stb ea => encodeEa 0xD7#8 0xE7#8 0xF7#8 ea
  | .std ea => encodeEa 0xDD#8 0xED#8 0xFD#8 ea
  | .stx ea => encodeEa 0x9F#8 0xAF#8 0xBF#8 ea
  | .sty ea => 0x10#8 :: encodeEa 0x9F#8 0xAF#8 0xBF#8 ea
  | .stu ea => encodeEa 0xDF#8 0xEF#8 0xFF#8 ea
  | .sts ea => 0x10#8 :: encodeEa 0xDF#8 0xEF#8 0xFF#8 ea
  | .leax idx => 0x30#8 :: encodeIdx idx
  | .leay idx => 0x31#8 :: encodeIdx idx
  | .leas idx => 0x32#8 :: encodeIdx idx
  | .leau idx => 0x33#8 :: encodeIdx idx
  | .clr ea => encodeEa 0x0F#8 0x6F#8 0x7F#8 ea
  | .clra => [0x4F#8]
  | .clrb => [0x5F#8]
  | .adda src => encodeSrc8 0x8B#8 0x9B#8 0xAB#8 0xBB#8 src
  | .addb src => encodeSrc8 0xCB#8 0xDB#8 0xEB#8 0xFB#8 src
  | .addd src => encodeSrc16 0xC3#8 0xD3#8 0xE3#8 0xF3#8 src
  | .adca src => encodeSrc8 0x89#8 0x99#8 0xA9#8 0xB9#8 src
  | .adcb src => encodeSrc8 0xC9#8 0xD9#8 0xE9#8 0xF9#8 src
  | .suba src => encodeSrc8 0x80#8 0x90#8 0xA0#8 0xB0#8 src
  | .subb src => encodeSrc8 0xC0#8 0xD0#8 0xE0#8 0xF0#8 src
  | .subd src => encodeSrc16 0x83#8 0x93#8 0xA3#8 0xB3#8 src
  | .sbca src => encodeSrc8 0x82#8 0x92#8 0xA2#8 0xB2#8 src
  | .sbcb src => encodeSrc8 0xC2#8 0xD2#8 0xE2#8 0xF2#8 src
  | .cmpa src => encodeSrc8 0x81#8 0x91#8 0xA1#8 0xB1#8 src
  | .cmpb src => encodeSrc8 0xC1#8 0xD1#8 0xE1#8 0xF1#8 src
  | .cmpd src => 0x10#8 :: encodeSrc16 0x83#8 0x93#8 0xA3#8 0xB3#8 src
  | .cmpx src => encodeSrc16 0x8C#8 0x9C#8 0xAC#8 0xBC#8 src
  | .cmpy src => 0x10#8 :: encodeSrc16 0x8C#8 0x9C#8 0xAC#8 0xBC#8 src
  | .cmpu src => 0x11#8 :: encodeSrc16 0x83#8 0x93#8 0xA3#8 0xB3#8 src
  | .cmps src => 0x11#8 :: encodeSrc16 0x8C#8 0x9C#8 0xAC#8 0xBC#8 src
  | .neg ea => encodeEa 0x00#8 0x60#8 0x70#8 ea
  | .nega => [0x40#8]
  | .negb => [0x50#8]
  | .inc ea => encodeEa 0x0C#8 0x6C#8 0x7C#8 ea
  | .inca => [0x4C#8]
  | .incb => [0x5C#8]
  | .dec ea => encodeEa 0x0A#8 0x6A#8 0x7A#8 ea
  | .deca => [0x4A#8]
  | .decb => [0x5A#8]
  | .tst ea => encodeEa 0x0D#8 0x6D#8 0x7D#8 ea
  | .tsta => [0x4D#8]
  | .tstb => [0x5D#8]
  | .mul => [0x3D#8]
  | .sex => [0x1D#8]
  | .daa => [0x19#8]
  | .abx => [0x3A#8]
  | .anda src => encodeSrc8 0x84#8 0x94#8 0xA4#8 0xB4#8 src
  | .andb src => encodeSrc8 0xC4#8 0xD4#8 0xE4#8 0xF4#8 src
  | .ora src => encodeSrc8 0x8A#8 0x9A#8 0xAA#8 0xBA#8 src
  | .orb src => encodeSrc8 0xCA#8 0xDA#8 0xEA#8 0xFA#8 src
  | .eora src => encodeSrc8 0x88#8 0x98#8 0xA8#8 0xB8#8 src
  | .eorb src => encodeSrc8 0xC8#8 0xD8#8 0xE8#8 0xF8#8 src
  | .bita src => encodeSrc8 0x85#8 0x95#8 0xA5#8 0xB5#8 src
  | .bitb src => encodeSrc8 0xC5#8 0xD5#8 0xE5#8 0xF5#8 src
  | .com ea => encodeEa 0x03#8 0x63#8 0x73#8 ea
  | .coma => [0x43#8]
  | .comb => [0x53#8]
  | .orcc imm => [0x1A#8, imm]
  | .andcc imm => [0x1C#8, imm]
  | .asl ea => encodeEa 0x08#8 0x68#8 0x78#8 ea
  | .asla => [0x48#8]
  | .aslb => [0x58#8]
  | .asr ea => encodeEa 0x07#8 0x67#8 0x77#8 ea
  | .asra => [0x47#8]
  | .asrb => [0x57#8]
  | .lsr ea => encodeEa 0x04#8 0x64#8 0x74#8 ea
  | .lsra => [0x44#8]
  | .lsrb => [0x54#8]
  | .rol ea => encodeEa 0x09#8 0x69#8 0x79#8 ea
  | .rola => [0x49#8]
  | .rolb => [0x59#8]
  | .ror ea => encodeEa 0x06#8 0x66#8 0x76#8 ea
  | .rora => [0x46#8]
  | .rorb => [0x56#8]
  | .bra offset => [0x20#8, offset]
  | .brn offset => [0x21#8, offset]
  | .bhi offset => [0x22#8, offset]
  | .bls offset => [0x23#8, offset]
  | .bcc offset => [0x24#8, offset]
  | .bcs offset => [0x25#8, offset]
  | .bne offset => [0x26#8, offset]
  | .beq offset => [0x27#8, offset]
  | .bvc offset => [0x28#8, offset]
  | .bvs offset => [0x29#8, offset]
  | .bpl offset => [0x2A#8, offset]
  | .bmi offset => [0x2B#8, offset]
  | .bge offset => [0x2C#8, offset]
  | .blt offset => [0x2D#8, offset]
  | .bgt offset => [0x2E#8, offset]
  | .ble offset => [0x2F#8, offset]
  | .bsr offset => [0x8D#8, offset]
  | .lbra offset => [0x16#8, hiByte offset, loByte offset]
  | .lbrn offset => [0x10#8, 0x21#8, hiByte offset, loByte offset]
  | .lbhi offset => [0x10#8, 0x22#8, hiByte offset, loByte offset]
  | .lbls offset => [0x10#8, 0x23#8, hiByte offset, loByte offset]
  | .lbcc offset => [0x10#8, 0x24#8, hiByte offset, loByte offset]
  | .lbcs offset => [0x10#8, 0x25#8, hiByte offset, loByte offset]
  | .lbne offset => [0x10#8, 0x26#8, hiByte offset, loByte offset]
  | .lbeq offset => [0x10#8, 0x27#8, hiByte offset, loByte offset]
  | .lbvc offset => [0x10#8, 0x28#8, hiByte offset, loByte offset]
  | .lbvs offset => [0x10#8, 0x29#8, hiByte offset, loByte offset]
  | .lbpl offset => [0x10#8, 0x2A#8, hiByte offset, loByte offset]
  | .lbmi offset => [0x10#8, 0x2B#8, hiByte offset, loByte offset]
  | .lbge offset => [0x10#8, 0x2C#8, hiByte offset, loByte offset]
  | .lblt offset => [0x10#8, 0x2D#8, hiByte offset, loByte offset]
  | .lbgt offset => [0x10#8, 0x2E#8, hiByte offset, loByte offset]
  | .lble offset => [0x10#8, 0x2F#8, hiByte offset, loByte offset]
  | .lbsr offset => [0x17#8, hiByte offset, loByte offset]
  | .jmp ea => encodeEa 0x0E#8 0x6E#8 0x7E#8 ea
  | .jsr ea => encodeEa 0x9D#8 0xAD#8 0xBD#8 ea
  | .rts => [0x39#8]
  | .pshs mask => [0x34#8, encodeMask mask]
  | .puls mask => [0x35#8, encodeMask mask]
  | .pshu mask => [0x36#8, encodeMask mask]
  | .pulu mask => [0x37#8, encodeMask mask]
  | .tfr pair => [0x1F#8, encodePair pair]
  | .exg pair => [0x1E#8, encodePair pair]
  | .swi => [0x3F#8]
  | .swi2 => [0x10#8, 0x3F#8]
  | .swi3 => [0x11#8, 0x3F#8]
  | .rti => [0x3B#8]
  | .cwai imm => [0x3C#8, imm]
  | .sync => [0x13#8]
  | .nop => [0x12#8]
  | .page2 => [0x10#8]
  | .page3 => [0x11#8]
  | .invalid .p0 opcode => [opcode]
  | .invalid .p1 opcode => [0x10#8, opcode]
  | .invalid .p2 opcode => [0x11#8, opcode]

/-! ## The host's reading of a row of the opcode table -/

/-- How many bytes the longest instruction has (R90). -/
def maxLength : Nat := 5

/-- The bytes, in the order the block fetches them, of the row of `spec/opcode_table.json` whose opcode bits are `w`, followed
by zeros.  A row of 8 bits is its opcode byte.  In a row of two opcode bytes the table writes the page selection byte first,
in bits 15..8, and the opcode in bits 7..0 (R92: "the prefix byte followed by the opcode byte"); any other number lays its
lowest byte first (log 9). -/
def tableBytes (nbits w : Nat) : List Byte :=
  let v := w % 2 ^ nbits
  let byte := fun k => BitVec.ofNat 8 (v / 2 ^ (8 * k))
  if 8 < nbits ∧ (pageSelected (byte 1)).isSome then [byte 1, byte 0, byte 2, byte 3, byte 4]
  else [byte 0, byte 1, byte 2, byte 3, byte 4]

/-- The instruction the decoder reads from a row of the table.  A row of one byte names an entry of page 0, which for `$10` and
`$11` is the page selection entry itself (R94, R100; log 9). -/
def decodeTableWord (nbits w : Nat) : Option Instr :=
  let bytes := tableBytes nbits w
  let at' := fun k => bytes.getD k 0x00#8
  if nbits ≤ 8 then some (decodeEntry .p0 (at' 0) (at' 1) (at' 2) (at' 3)).instr
  else some (decodeWindow (at' 0) (at' 1) (at' 2) (at' 3) (at' 4)).instr

end Sys2Proof
end

