-- ==== Sys2Proof/Machine/Fetch.lean ====
section
/-!
DEFINITION. Fetching an instruction (R93, R94), and placing one for the host.
-/

namespace Sys2Proof.Machine

/-- The instruction that starts at `PC` (R90, R94). -/
def decodeAt (s : State) : Decoded :=
  let at' := fun (k : Word) => s.byteAt (s.get16 .pc + k)
  decodeWindow (at' 0#16) (at' 1#16) (at' 2#16) (at' 3#16) (at' 4#16)

/-- `Fetch8()` (R93), the byte read discarded: the decoder has looked at it. -/
def fetch8 (s : State) : State := (read8 (s.get16 .pc) s).2.set16 .pc (s.get16 .pc + 1#16)

/-- `n` calls of `Fetch8()`: the bytes of an instruction, in ascending order (R90). -/
def fetchBytes : Nat → State → State
  | 0, s => s
  | n + 1, s => fetchBytes n (fetch8 s)

/-- R94: the bytes of the instruction fetched, its page selected, its microsequencer active with `clocksUsed` at 0 (R41). -/
def fetched (d : Decoded) (s : State) : State :=
  { selectPage d.page (fetchBytes d.length s) with active := .instr d.page d.opcode, resume := .none, clocksUsed := 0#8 }

/-- Bytes put into memory from outside the machine, from an address on. -/
def placeBytes : List Byte → Word → State → State
  | [], _, s => s
  | b :: bs, a, s => placeBytes bs (a + 1#16) { s with mem := Memory.write s.mem a.toNat b }

end Sys2Proof.Machine
end

