-- ==== Sys2Proof/Machine/Timing.lean ====
section
/-!
DEFINITION. Cycle counts (R97, R158, R500, R501): "total = table entry + indexed addition + 1 per byte moved + 1 if a conditional
long branch is taken + 9 if RTI pulls the long frame + waiting cycles".
-/

namespace Sys2Proof.Machine

/-- R153, R158: indirection adds 3. -/
def indirectCycles (ind : Bool) : Nat := if ind then 3 else 0

/-- R158: what the indexed resolver adds. -/
def idxCycles : Idx → Nat
  | .off5 _ _ => 1
  | .inc1 _ => 2
  | .inc2 _ ind => 3 + indirectCycles ind
  | .dec1 _ => 2
  | .dec2 _ ind => 3 + indirectCycles ind
  | .zero _ ind => 0 + indirectCycles ind
  | .accB _ ind => 1 + indirectCycles ind
  | .accA _ ind => 1 + indirectCycles ind
  | .accD _ ind => 4 + indirectCycles ind
  | .off8 _ ind _ => 1 + indirectCycles ind
  | .off16 _ ind _ => 4 + indirectCycles ind
  | .pcr8 _ ind _ => 1 + indirectCycles ind
  | .pcr16 _ ind _ => 5 + indirectCycles ind
  | .extInd _ => 5
  | .illegal _ => 0

def eaCycles : Ea → Nat
  | .dir _ => 0
  | .idx i => idxCycles i
  | .ext _ => 0

def src8Cycles : Src8 → Nat
  | .imm _ => 0
  | .mem ea => eaCycles ea

def src16Cycles : Src16 → Nat
  | .imm _ => 0
  | .mem ea => eaCycles ea

/-- R300: "5 cycles not taken, 6 taken". -/
def takenCycles (k : Cond) (cc : Byte) : Nat := if k.taken cc then 1 else 0

/-- What an instruction takes beyond its opcode-table entry (R501); `cc` is `CC` at its start, `cc'` at its end. -/
def extraCycles (i : Instr) (cc cc' : Byte) : Nat :=
  match i with
  | .lda src | .ldb src | .adda src | .addb src | .adca src | .adcb src | .suba src | .subb src | .sbca src | .sbcb src
  | .cmpa src | .cmpb src | .anda src | .andb src | .ora src | .orb src | .eora src | .eorb src | .bita src | .bitb src =>
    src8Cycles src
  | .ldd src | .ldx src | .ldy src | .ldu src | .lds src | .addd src | .subd src | .cmpd src | .cmpx src | .cmpy src
  | .cmpu src | .cmps src => src16Cycles src
  | .sta ea | .stb ea | .std ea | .stx ea | .sty ea | .stu ea | .sts ea | .clr ea | .neg ea | .inc ea | .dec ea
  | .tst ea | .com ea | .asl ea | .asr ea | .lsr ea | .rol ea | .ror ea | .jmp ea | .jsr ea => eaCycles ea
  | .leax idx | .leay idx | .leas idx | .leau idx => idxCycles idx
  | .pshs mask | .puls mask | .pshu mask | .pulu mask => maskBytes mask
  | .lbrn _ => takenCycles .never cc
  | .lbhi _ => takenCycles .hi cc
  | .lbls _ => takenCycles .ls cc
  | .lbcc _ => takenCycles .cc cc
  | .lbcs _ => takenCycles .cs cc
  | .lbne _ => takenCycles .ne cc
  | .lbeq _ => takenCycles .eq cc
  | .lbvc _ => takenCycles .vc cc
  | .lbvs _ => takenCycles .vs cc
  | .lbpl _ => takenCycles .pl cc
  | .lbmi _ => takenCycles .mi cc
  | .lbge _ => takenCycles .ge cc
  | .lblt _ => takenCycles .lt cc
  | .lbgt _ => takenCycles .gt cc
  | .lble _ => takenCycles .le cc
  | .rti => if Flag.e.get cc' then 9 else 0
  | .tfr _ | .exg _ | .orcc _ | .andcc _ | .cwai _ | .bra _ | .brn _ | .bhi _ | .bls _ | .bcc _ | .bcs _ | .bne _ | .beq _
  | .bvc _ | .bvs _ | .bpl _ | .bmi _ | .bge _ | .blt _ | .bgt _ | .ble _ | .bsr _ | .lbra _ | .lbsr _ | .invalid _ _ => 0
  | .clra | .clrb | .nega | .negb | .inca | .incb | .deca | .decb | .tsta | .tstb | .mul | .sex | .daa | .abx | .coma
  | .comb | .asla | .aslb | .asra | .asrb | .lsra | .lsrb | .rola | .rolb | .rora | .rorb | .rts | .swi | .swi2 | .swi3
  | .sync | .nop | .page2 | .page3 => 0

/-- R386, R387: of the cycles the table gives CWAI and SYNC, those that leaving the wait takes. -/
def exitCycles : Active → Nat
  | .waitCwai => Config.cwaiExitCycles
  | .waitSync => Config.syncExitCycles
  | .none | .instr _ _ | .exc _ => 0

/-- The `Step` calls an instruction takes before it retires or starts to wait; `s` is the state its meaning started from, `s'`
the state it left. -/
def instrCycles (d : Decoded) (s s' : State) : Nat :=
  (opTable d.page d.opcode).cycles + extraCycles d.instr (s.get8 .cc) (s'.get8 .cc) - exitCycles s'.resume

end Sys2Proof.Machine
end

