-- ==== Sys2Proof/Machine/Sequencer.lean ====
section
/-!
DEFINITION. The dispatch state machine (R96 to R99), the boundary check (R421), the waits (R386, R387, R441).

`begin` is what the `Step` call that finds no sequence running does: with the default `SCHEDULE` (D3) all effects of what it starts
happen there, and `clocksDue` says how many `Step` calls, this one included, it takes.  `clockStep` is the block's `Step()`, one
clock cycle.  `runOut` is all the cycles due at once: the atomic transition of R99.
-/

namespace Sys2Proof.Machine

/-! ## Time -/

/-- One clock cycle passes: the cycle total (R99) and the levels of the lines at the next `Step` call (R44). -/
def tick (s : State) : State :=
  match s.inputs with
  | [] => { s with cycles := s.cycles + 1 }
  | l :: ls => { s with cycles := s.cycles + 1, lines := l, inputs := ls }

/-- `n` clock cycles pass. -/
def ticks : Nat → State → State
  | 0, s => s
  | n + 1, s => ticks n (tick s)

/-- The last cycle of a sequence (R41, R98, D3): the sentinel, or, where the block goes on to wait, the count as it stands. -/
def retire (s : State) : State :=
  { s with
    active := s.resume
    page := .p0
    resume := .none
    clocksUsed := if s.resume = .none then 255#8 else s.clocksUsed }

/-- One cycle of the running sequence; with no sequence running, an idle cycle, which `clocksUsed` does not count (R41, D3). -/
def advance (s : State) : State :=
  match s.clocksDue with
  | 0 => tick s
  | 1 => retire { tick s with clocksDue := 0, clocksUsed := s.clocksUsed + 1#8 }
  | n + 2 => { tick s with clocksDue := n + 1, clocksUsed := s.clocksUsed + 1#8 }

/-- All cycles of the running sequence; with no sequence running, one idle cycle. -/
def runOut (s : State) : State :=
  match s.clocksDue with
  | 0 => tick s
  | n + 1 => retire { ticks (n + 1) s with clocksDue := 0, clocksUsed := s.clocksUsed + BitVec.ofNat 8 (n + 1) }

/-! ## What a `Step` call starts -/

/-- An exception sequence starts (R420, R431 to R433, R481). -/
def startException (kind : ExcKind) (s : State) : State :=
  { kind.sequence s with
    active := .exc kind, resume := .none, page := .p0, clocksUsed := 0#8, clocksDue := kind.cycles }

/-- An instruction is fetched and starts (R94, R97). -/
def startInstruction (s : State) : Result :=
  let d := decodeAt s
  let s1 := fetched d s
  match exec d.instr s1 with
  | .next s2 => .next { s2 with clocksDue := instrCycles d s1 s2 }
  | .fault e => .fault e
  | .refused e => .refused e

/-- The hardware sequence that the lines ask for, in the order of priority RESET, NMI, FIRQ, IRQ (R421, R423); a masked line is
ignored (R424). -/
def requested (l : Lines) (cc : Byte) : Option ExcKind :=
  if l.reset then some .reset
  else if l.nmi then some .nmi
  else if l.firq && !Flag.f.get cc then some .firq
  else if l.irq && !Flag.i.get cc then some .irq
  else none

/-- `BoundaryCheck()` (R421, R440). -/
def boundaryCheck (s : State) : Result :=
  if s.lines.halt then .next s
  else
    match requested s.lines (s.get8 .cc) with
    | some kind => .next (startException kind s)
    | none => startInstruction s

/-- Leaving a wait: its remaining cycles, then the fetch boundary (R386, R387). -/
def leaveWait (n : Nat) (s : State) : State := { s with resume := .none, clocksDue := n }

/-- `CwaiWaitCycle()` (R386). -/
def cwaiWaitCycle (s : State) : State :=
  match requested s.lines (s.get8 .cc) with
  | some .reset => startException .reset s
  | some .nmi => leaveWait Config.cwaiExitCycles (leaveCwai ExcKind.nmi.vector s)
  | some .firq => leaveWait Config.cwaiExitCycles (leaveCwai ExcKind.firq.vector s)
  | some .irq => leaveWait Config.cwaiExitCycles (leaveCwai ExcKind.irq.vector s)
  | none => s

/-- `SyncWaitCycle()` (R387): "regardless of mask state". -/
def syncWaitCycle (s : State) : State :=
  if s.lines.reset then startException .reset s
  else if s.lines.nmi || s.lines.firq || s.lines.irq then leaveWait Config.syncExitCycles s
  else s

/-- What the `Step` call does that finds no cycle due.  A running sequence with no cycle due is no state that a step leaves;
it ends within this call (log 19). -/
def beginSequence (s : State) : Result :=
  match s.active with
  | .none => boundaryCheck s
  | .instr _ _ => .next { s with clocksDue := 1 }
  | .exc _ => .next { s with clocksDue := 1 }
  | .waitCwai => .next (cwaiWaitCycle s)
  | .waitSync => .next (syncWaitCycle s)

/-- What is running after the start of this `Step` call. -/
def running (s : State) : Result := if s.clocksDue = 0 then beginSequence s else .next s

/-- `Step()` (R96): exactly one clock cycle. -/
def clockStep (s : State) : Result :=
  match running s with
  | .next t => .next (advance t)
  | .fault e => .fault e
  | .refused e => .refused e

/-- `n` calls of `Step()`. -/
def clockSteps : Nat → State → Result
  | 0, s => .next s
  | n + 1, s =>
    match clockStep s with
    | .next t => clockSteps n t
    | .fault e => .fault e
    | .refused e => .refused e

/-- The atomic transition of R99: from a fetch boundary to the next one, or to a wait; one idle cycle where nothing starts. -/
def atomicStep (s : State) : Result :=
  match running s with
  | .next t => .next (runOut t)
  | .fault e => .fault e
  | .refused e => .refused e

end Sys2Proof.Machine
end

