-- ==== Sys2Proof/Machine/Step.lean ====
section
/-!
DEFINITION. One step of the machine, and placing an instruction for the host.
-/

namespace Sys2Proof.Machine

/-- One step: the instruction-atomic reading of R99 (log 6). -/
def step (s : State) : Host.Outcome State Fault Refusal := atomicStep s

/-- `s` with the instruction of a row of `spec/opcode_table.json` at `PC`, at a fetch boundary with no line asserted, so that the
next step fetches and runs it (log 4). -/
def State.withFetchWord (s : State) (nbits w : Nat) : State :=
  { placeBytes (tableBytes nbits w) (s.get16 .pc) s with
    active := .none, clocksDue := 0, lines := .quiet }

end Sys2Proof.Machine
end

