-- ==== Sys2Proof/Safety.lean ====
section
/-!
DEFINITION. The vocabulary in which statements about the machine are made: which states count, what a state keeps from another,
and, for each shape of instruction, what it must do.
-/

namespace Sys2Proof.Machine

/-! ## Which states -/

/-- R40: a fetch boundary. -/
def AtBoundary (s : State) : Prop := s.active = .none ∧ s.clocksDue = 0

/-- R98, R42, R40: between two steps the block is at a fetch boundary or waits, with nothing in flight and page 0. -/
def Settled (s : State) : Prop :=
  s.clocksDue = 0 ∧ s.resume = .none ∧ s.page = .p0 ∧ (s.active = .none ∨ s.active = .waitCwai ∨ s.active = .waitSync)

/-- R421: no condition is served at this boundary. -/
def NoRequest (s : State) : Prop :=
  s.lines.halt = false ∧ s.lines.reset = false ∧ s.lines.nmi = false ∧
  (s.lines.firq = true → Flag.f.get (s.get8 .cc) = true) ∧ (s.lines.irq = true → Flag.i.get (s.get8 .cc) = true)

/-- The memory from `a` on holds these bytes. -/
def HoldsBytes (s : State) : Word → List Byte → Prop
  | _, [] => True
  | a, b :: bs => s.byteAt a = b ∧ HoldsBytes s (a + 1#16) bs

/-- `n` bytes of memory from `a` on. -/
def bytesFrom (s : State) : Nat → Word → List Byte
  | 0, _ => []
  | n + 1, a => s.byteAt a :: bytesFrom s n (a + 1#16)

/-! ## What stays -/

/-- Everything but registers, memory and the record of the bus is as it was. -/
def SameControl (s t : State) : Prop :=
  t.active = s.active ∧ t.page = s.page ∧ t.clocksUsed = s.clocksUsed ∧ t.clocksDue = s.clocksDue ∧ t.resume = s.resume ∧
  t.scratch = s.scratch ∧ t.offset = s.offset ∧ t.lines = s.lines ∧ t.inputs = s.inputs ∧ t.cycles = s.cycles

/-- Every byte of memory reads as before. -/
def SameMemory (s t : State) : Prop := ∀ a : Word, t.byteAt a = s.byteAt a

/-- Every byte outside the `n` bytes from `a` on reads as before. -/
def SameMemoryOutside (a : Word) (n : Nat) (s t : State) : Prop :=
  ∀ b : Word, n ≤ (b - a).toNat → t.byteAt b = s.byteAt b

/-- The flags that are not listed are as before. -/
def SameFlags (written : List Flag) (s t : State) : Prop :=
  ∀ k : Flag, k ∉ written → k.get (t.get8 .cc) = k.get (s.get8 .cc)

/-! ## Flags of a result -/

/-- The flag is set. -/
def FlagSet (k : Flag) (t : State) : Prop := k.get (t.get8 .cc) = true

/-- R31, R32 at 8 bits. -/
def ShowsNZ8 (v : Byte) (t : State) : Prop := (FlagSet .n t ↔ v.toInt < 0) ∧ (FlagSet .z t ↔ v.toNat = 0)

/-- R31, R32 at 16 bits. -/
def ShowsNZ16 (v : Word) (t : State) : Prop := (FlagSet .n t ↔ v.toInt < 0) ∧ (FlagSet .z t ↔ v.toNat = 0)

/-- A number that a signed byte holds. -/
def FitsSigned8 (z : Int) : Prop := -128 ≤ z ∧ z ≤ 127

/-- A number that a signed word holds. -/
def FitsSigned16 (z : Int) : Prop := -32768 ≤ z ∧ z ≤ 32767

/-! ## Shapes of results: `s` is the state after the operand is read, `t` the state after the instruction -/

/-- Only the 8-bit register and the listed flags change. -/
def Writes8 (r : Reg8) (v : Byte) (written : List Flag) (s t : State) : Prop :=
  t.regs = (s.regs.set8 r v).set8 .cc (t.get8 .cc) ∧ SameFlags written s t ∧
  SameMemory s t ∧ t.bus = s.bus ∧ SameControl s t

/-- Only the 16-bit register and the listed flags change. -/
def Writes16 (r : Reg16) (v : Word) (written : List Flag) (s t : State) : Prop :=
  t.regs = (s.regs.set16 r v).set8 .cc (t.get8 .cc) ∧ SameFlags written s t ∧
  SameMemory s t ∧ t.bus = s.bus ∧ SameControl s t

/-- Only the listed flags change. -/
def WritesFlags (written : List Flag) (s t : State) : Prop :=
  t.regs = s.regs.set8 .cc (t.get8 .cc) ∧ SameFlags written s t ∧ SameMemory s t ∧ t.bus = s.bus ∧ SameControl s t

/-- Only the byte at `a` and the listed flags change, by these calls on the bus (newest first). -/
def Stores8 (a : Word) (v : Byte) (calls : List BusOp) (written : List Flag) (s t : State) : Prop :=
  t.regs = s.regs.set8 .cc (t.get8 .cc) ∧ SameFlags written s t ∧
  t.byteAt a = v ∧ SameMemoryOutside a 1 s t ∧ t.bus = calls ++ s.bus ∧ SameControl s t

/-- Only the bytes at `a` and `a + 1` and the listed flags change, the high byte written first. -/
def Stores16 (a : Word) (v : Word) (written : List Flag) (s t : State) : Prop :=
  t.regs = s.regs.set8 .cc (t.get8 .cc) ∧ SameFlags written s t ∧
  t.byteAt a = hiByte v ∧ t.byteAt (a + 1#16) = loByte v ∧ SameMemoryOutside a 2 s t ∧
  t.bus = [.write (a + 1#16) (loByte v), .write a (hiByte v)] ++ s.bus ∧ SameControl s t

/-- Only `PC` changes. -/
def JumpsTo (target : Word) (s t : State) : Prop :=
  t.regs = { s.regs with pc := target } ∧ SameMemory s t ∧ t.bus = s.bus ∧ SameControl s t

/-! ## What an operation on one byte computes: operand, carry before, result, state after -/

/-- R219 -/
def Negated (m : Byte) (_carry : Bool) (v : Byte) (t : State) : Prop :=
  v.toNat = (256 - m.toNat) % 256 ∧ ShowsNZ8 v t ∧ (FlagSet .v t ↔ m.toNat = 128) ∧ (FlagSet .c t ↔ m.toNat ≠ 0)

/-- R222 -/
def Incremented (m : Byte) (_carry : Bool) (v : Byte) (t : State) : Prop :=
  v.toNat = (m.toNat + 1) % 256 ∧ ShowsNZ8 v t ∧ (FlagSet .v t ↔ m.toNat = 127)

/-- R225 -/
def Decremented (m : Byte) (_carry : Bool) (v : Byte) (t : State) : Prop :=
  v.toNat = (m.toNat + 255) % 256 ∧ ShowsNZ8 v t ∧ (FlagSet .v t ↔ m.toNat = 128)

/-- R190 -/
def Cleared (_m : Byte) (_carry : Bool) (v : Byte) (t : State) : Prop :=
  v.toNat = 0 ∧ ¬ FlagSet .n t ∧ FlagSet .z t ∧ ¬ FlagSet .v t ∧ ¬ FlagSet .c t

/-- R255 -/
def Complemented (m : Byte) (_carry : Bool) (v : Byte) (t : State) : Prop :=
  v.toNat = 255 - m.toNat ∧ ShowsNZ8 v t ∧ ¬ FlagSet .v t ∧ FlagSet .c t

/-- R280: V is set exactly when the shift changes the sign. -/
def ShiftedLeft (m : Byte) (_carry : Bool) (v : Byte) (t : State) : Prop :=
  v.toNat = 2 * m.toNat % 256 ∧ ShowsNZ8 v t ∧ (FlagSet .c t ↔ 128 ≤ m.toNat) ∧ (FlagSet .v t ↔ ¬ FitsSigned8 (2 * m.toInt))

/-- R283 -/
def ShiftedRightArithmetic (m : Byte) (_carry : Bool) (v : Byte) (t : State) : Prop :=
  v.toInt = m.toInt / 2 ∧ ShowsNZ8 v t ∧ (FlagSet .c t ↔ m.toNat % 2 = 1)

/-- R286 -/
def ShiftedRightLogical (m : Byte) (_carry : Bool) (v : Byte) (t : State) : Prop :=
  v.toNat = m.toNat / 2 ∧ ShowsNZ8 v t ∧ ¬ FlagSet .n t ∧ (FlagSet .c t ↔ m.toNat % 2 = 1)

/-- R289 -/
def RotatedLeft (m : Byte) (carry : Bool) (v : Byte) (t : State) : Prop :=
  v.toNat = (2 * m.toNat + carry.toNat) % 256 ∧ ShowsNZ8 v t ∧ (FlagSet .c t ↔ 128 ≤ m.toNat) ∧
  (FlagSet .v t ↔ ¬ FitsSigned8 (2 * m.toInt))

/-- R292 -/
def RotatedRight (m : Byte) (carry : Bool) (v : Byte) (t : State) : Prop :=
  v.toNat = m.toNat / 2 + 128 * carry.toNat ∧ ShowsNZ8 v t ∧ (FlagSet .c t ↔ m.toNat % 2 = 1)

/-! ## Stack images -/

def wordBytes (w : Word) : List Byte := [hiByte w, loByte w]

/-- R355: what a push of the masked registers leaves in memory, from the new stack pointer upward; `other` is bit 6's register. -/
def stackImage (other : Reg16) (m : StackMask) (r : Regs) : List Byte :=
  (if m.cc then [r.cc] else []) ++ (if m.a then [r.a] else []) ++ (if m.b then [r.b] else []) ++
  (if m.dp then [r.dp] else []) ++ (if m.x then wordBytes r.x else []) ++ (if m.y then wordBytes r.y else []) ++
  (if m.other then wordBytes (r.get16 other) else []) ++ (if m.pc then wordBytes r.pc else [])

/-- R430: the frame of `StackAll`. -/
def frameAll (r : Regs) : List Byte :=
  [r.cc, r.a, r.b, r.dp] ++ wordBytes r.x ++ wordBytes r.y ++ wordBytes r.u ++ wordBytes r.pc

/-- R430: the frame of `StackFast`. -/
def frameFast (r : Regs) : List Byte := [r.cc] ++ wordBytes r.pc

/-- The calls on the bus that leave these bytes by a push, newest first: the lowest address is written last (R24). -/
def pushCalls : Word → List Byte → List BusOp
  | _, [] => []
  | a, b :: bs => .write a b :: pushCalls (a + 1#16) bs

/-- The calls on the bus that read these bytes at ascending addresses, oldest first (R24, R90); `readOnly` is false (R63). -/
def readCalls : Word → List Byte → List BusOp
  | _, [] => []
  | a, b :: bs => .read a false b :: readCalls (a + 1#16) bs

/-- R430 to R433, R383: what entering an exception leaves; `masks` says whether it sets `I` and `F`. -/
def Entered (full masks : Bool) (vector : Word) (s t : State) : Prop :=
  let stacked := { s.regs with cc := Flag.e.put full s.regs.cc }
  let frame := if full then frameAll stacked else frameFast stacked
  t.regs.s = s.regs.s - BitVec.ofNat 16 frame.length ∧
  HoldsBytes t t.regs.s frame ∧ SameMemoryOutside t.regs.s frame.length s t ∧
  t.regs.pc = t.wordAt vector ∧
  (FlagSet .e t ↔ full = true) ∧ (masks = true → FlagSet .i t ∧ FlagSet .f t) ∧
  SameFlags (if masks then [.e, .i, .f] else [.e]) s t ∧
  t.regs.a = s.regs.a ∧ t.regs.b = s.regs.b ∧ t.regs.dp = s.regs.dp ∧
  t.regs.x = s.regs.x ∧ t.regs.y = s.regs.y ∧ t.regs.u = s.regs.u ∧
  t.bus = (readCalls vector [t.byteAt vector, t.byteAt (vector + 1#16)]).reverse ++ pushCalls t.regs.s frame ++ s.bus

/-- A sequence or instruction has retired `n` cycles after `s` (R97, R98); the lines are those of the environment (R44). -/
def RetiredAfter (n : Nat) (s t : State) : Prop :=
  t.active = .none ∧ t.page = .p0 ∧ t.clocksUsed = 255#8 ∧ t.clocksDue = 0 ∧ t.resume = .none ∧
  t.cycles = s.cycles + n ∧ t.lines = (ticks n s).lines ∧ t.inputs = (ticks n s).inputs ∧
  t.scratch = s.scratch ∧ t.offset = s.offset

/-! ## Cycle counts -/

/-- R97, R98: where the bytes of `i` stand at `PC`, a step takes `n` cycles and leaves the block in `a`. -/
def TakesCycles (s : State) (i : Instr) (n : Nat) (a : Active) : Prop :=
  i.wf = true → HoldsBytes s s.regs.pc (encode i) → ∃ t, step s = .next t ∧ t.cycles = s.cycles + n ∧ t.active = a

/-- R158: the indexed forms, each with the cycles it adds. -/
def indexedAdditions (r : Base) (rr : BitVec 2) (n5 : BitVec 5) (n8 pb : Byte) (n16 : Word) : List (Idx × Nat) :=
  [(.off5 r n5, 1), (.inc1 r, 2), (.inc2 r false, 3), (.inc2 r true, 6), (.dec1 r, 2), (.dec2 r false, 3), (.dec2 r true, 6),
    (.zero r false, 0), (.zero r true, 3), (.accB r false, 1), (.accB r true, 4), (.accA r false, 1), (.accA r true, 4)] ++
  [(.off8 r false n8, 1), (.off8 r true n8, 4), (.off16 r false n16, 4), (.off16 r true n16, 7), (.accD r false, 4),
    (.accD r true, 7), (.pcr8 rr false n8, 1), (.pcr8 rr true n8, 4), (.pcr16 rr false n16, 5), (.pcr16 rr true n16, 8),
    (.extInd n16, 5), (.illegal pb, 0)]

end Sys2Proof.Machine
end

