-- ==== Sys2Proof/Certificates/Slice0/Obligations.lean ====
section
/-!
DEFINITION. The statements about the machine, for the provers.  Each names the rules it formalises and, where these carry the spec's own
marks (a decision D<n> of `92_eei_decisions.md`, or general knowledge), what the spec inferred; "operand" is `M8` or `M16` of R159.
A meaning runs with `PC` at the following instruction (R25), so `s` is the state after the instruction's own bytes are fetched.
-/

section

open Sys2Proof Sys2Proof.Machine

/-! ## Encoding and decoding -/

/-- Words written out from the encoding lines of the rules, one or more for each family.
Inferred by the spec (log 13): D2 and D6, the opcode map and the layouts of the post-bytes. -/
def Obligations.DecodesWordsOfEveryFamily : Prop :=
  decode [0x86#8, 0x2A#8] = .ok (.lda (.imm 0x2A#8), []) ∧
  decode [0x97#8, 0x10#8] = .ok (.sta (.dir 0x10#8), []) ∧
  decode [0x10#8, 0x8E#8, 0x12#8, 0x34#8] = .ok (.ldy (.imm 0x1234#16), []) ∧
  decode [0x11#8, 0xB3#8, 0x20#8, 0x01#8] = .ok (.cmpu (.mem (.ext 0x2001#16)), []) ∧
  decode [0xA6#8, 0x9F#8, 0x20#8, 0x00#8] = .ok (.lda (.mem (.idx (.extInd 0x2000#16))), []) ∧
  decode [0x6F#8, 0xB8#8, 0x04#8] = .ok (.clr (.idx (.off8 .y true 0x04#8)), []) ∧
  decode [0x43#8] = .ok (.coma, []) ∧
  decode [0x78#8, 0x20#8, 0x00#8] = .ok (.asl (.ext 0x2000#16), []) ∧
  decode [0x27#8, 0xFE#8] = .ok (.beq 0xFE#8, []) ∧
  decode [0x10#8, 0x22#8, 0x02#8, 0x00#8] = .ok (.lbhi 0x0200#16, []) ∧
  decode [0x34#8, 0x16#8] = .ok (.pshs ⟨false, false, false, true, false, true, true, false⟩, []) ∧
  decode [0x1F#8, 0x8B#8] = .ok (.tfr ⟨.r8 .a, .r8 .dp⟩, []) ∧
  decode [0x3C#8, 0xEF#8] = .ok (.cwai 0xEF#8, []) ∧
  decode [0x11#8, 0x3F#8] = .ok (.swi3, []) ∧
  decode [0x10#8, 0x10#8, 0x8E#8] = .ok (.invalid .p1 0x10#8, [0x8E#8])

/-- R90, R91, R95, R100 to R107: no bit of an encoding is dropped.
Inferred by the spec (log 13): D2 and D6, the opcode map and the layouts of the post-bytes. -/
def Obligations.DecodeInvertsEncode : Prop :=
  ∀ (i : Instr) (rest : List Byte), i.wf = true → decode (encode i ++ rest) = .ok (i, rest)

/-- R90, R92, R103: whatever five bytes stand at `PC`, they begin with exactly one instruction, 1 to 5 bytes long, and its encoding is
those bytes.
Inferred by the spec (log 13): D2, D6 and D9, the opcode map and the layouts of the post-bytes. -/
def Obligations.EveryWindowIsOneInstruction : Prop :=
  ∀ b0 b1 b2 b3 b4 : Byte,
    let d := decodeWindow b0 b1 b2 b3 b4
    d.instr.wf = true ∧ 1 ≤ d.length ∧ d.length ≤ 5 ∧ encode d.instr = [b0, b1, b2, b3, b4].take d.length

/-- R410, R94: a byte sequence that begins with an entry of no documented mnemonic is the invalid opcode alone: one byte on page 0, two
bytes behind a page selection byte; what follows is the next instruction.
Inferred by the spec (log 13): D6. -/
def Obligations.InvalidEntriesTakeNoOperand : Prop :=
  ∀ (op : Byte) (rest : List Byte),
    (isInvalidEntry .p0 op = true → decode (op :: rest) = .ok (.invalid .p0 op, rest)) ∧
    (isInvalidEntry .p1 op = true → decode (0x10#8 :: op :: rest) = .ok (.invalid .p1 op, rest)) ∧
    (isInvalidEntry .p2 op = true → decode (0x11#8 :: op :: rest) = .ok (.invalid .p2 op, rest))

/-! ## Fetching and stepping -/

/-- R96, R94, R97: at a fetch boundary at which nothing is requested, when the bytes at `PC` decode to `i`, a step is the fetch of those
bytes, the meaning of `i`, and the cycles of `i`.
Inferred by the spec (log 13): D3 and D25; one step for a whole instruction is log 6, the cycles are log 12. -/
def Obligations.StepRunsTheDecodedInstruction : Prop :=
  ∀ (s : State) (i : Instr) (rest : List Byte),
    AtBoundary s → NoRequest s → decode (bytesFrom s 5 (s.get16 .pc)) = .ok (i, rest) →
    (decodeAt s).instr = i ∧ (decodeAt s).length + rest.length = 5 ∧
    step s =
      match exec i (fetched (decodeAt s) s) with
      | .next t => .next (runOut { t with clocksDue := instrCycles (decodeAt s) (fetched (decodeAt s) s) t })
      | .fault e => .fault e
      | .refused e => .refused e

/-- R93, R25, R70, R41: fetching reads exactly the instruction's bytes, in ascending order, leaves `PC` at the following instruction, and
changes no other register and no memory.
Inferred by the spec (log 13): D23 and D25; the record of the bus is log 7. -/
def Obligations.FetchReadsTheInstructionsBytes : Prop :=
  ∀ (s : State),
    let d := decodeAt s
    let t := fetched d s
    t.regs = { s.regs with pc := s.regs.pc + BitVec.ofNat 16 d.length } ∧ SameMemory s t ∧
    t.bus = (readCalls s.regs.pc (bytesFrom s d.length s.regs.pc)).reverse ++ s.bus ∧
    t.active = .instr d.page d.opcode ∧ t.page = d.page ∧ t.clocksUsed = 0#8 ∧ t.resume = .none ∧
    t.lines = s.lines ∧ t.inputs = s.inputs ∧ t.cycles = s.cycles

/-! ## Registers and memory words -/

/-- R21: "`D` is a read/write alias" of `A` and `B`, in both directions. -/
def Obligations.DIsTheAliasOfAAndB : Prop :=
  ∀ (s : State) (a b : Byte) (d : Word),
    (((s.set8 .a a).set8 .b b).get16 .d).toNat = 256 * a.toNat + b.toNat ∧
    ((s.set16 .d d).get8 .a).toNat = d.toNat / 256 ∧ ((s.set16 .d d).get8 .b).toNat = d.toNat % 256

/-- R64 to R67: a word is the bytes at an address and the next, the high byte at the lower address; after `$FFFF` comes `$0000`; what is
written is read back.
Inferred by the spec (log 13): D21 and D23, the order of the two accesses. -/
def Obligations.WordsAreBigEndian : Prop :=
  ∀ (s : State) (a v : Word),
    (∀ b : Word, (write16 a v s).byteAt b = if b = a then hiByte v else if b = a + 1#16 then loByte v else s.byteAt b) ∧
    (write16 a v s).wordAt a = v ∧ (read16 a s).1 = s.wordAt a ∧
    (s.wordAt a).toNat = 256 * (s.byteAt a).toNat + (s.byteAt (a + 1#16)).toNat ∧
    (read16 0xFFFF#16 s).1 = joinBytes (s.byteAt 0xFFFF#16) (s.byteAt 0x0000#16)

/-! ## Addressing modes -/

/-- R133, R135, R141 to R151 without indirection: the effective address, and what happens to the base register; no bus call.
Inferred by the spec (log 13): D23, the sub-modes of the indexed mode. -/
def Obligations.DirectAddresses : Prop :=
  ∀ (s : State) (r : Base) (lo n8 : Byte) (n16 : Word) (n5 : BitVec 5) (rr : BitVec 2),
    let base := s.get16 (baseReg r)
    (∃ a, resolve (.dir lo) s = some (a, s) ∧ hiByte a = s.regs.dp ∧ loByte a = lo) ∧
    resolve (.ext n16) s = some (n16, s) ∧
    resolve (.idx (.off5 r n5)) s = some (BitVec.ofInt 16 (base.toNat + n5.toInt), s) ∧
    resolve (.idx (.inc1 r)) s = some (base, s.set16 (baseReg r) (base + 1#16)) ∧
    resolve (.idx (.inc2 r false)) s = some (base, s.set16 (baseReg r) (base + 2#16)) ∧
    resolve (.idx (.dec1 r)) s = some (base - 1#16, s.set16 (baseReg r) (base - 1#16)) ∧
    resolve (.idx (.dec2 r false)) s = some (base - 2#16, s.set16 (baseReg r) (base - 2#16)) ∧
    resolve (.idx (.zero r false)) s = some (base, s) ∧
    resolve (.idx (.accB r false)) s = some (BitVec.ofInt 16 (base.toNat + s.regs.b.toInt), s) ∧
    resolve (.idx (.accA r false)) s = some (BitVec.ofInt 16 (base.toNat + s.regs.a.toInt), s) ∧
    resolve (.idx (.accD r false)) s =
      some (BitVec.ofNat 16 (base.toNat + (256 * s.regs.a.toNat + s.regs.b.toNat)), s) ∧
    resolve (.idx (.off8 r false n8)) s = some (BitVec.ofInt 16 (base.toNat + n8.toInt), s) ∧
    resolve (.idx (.off16 r false n16)) s = some (base + n16, s) ∧
    resolve (.idx (.pcr8 rr false n8)) s = some (BitVec.ofInt 16 (s.regs.pc.toNat + n8.toInt), s) ∧
    resolve (.idx (.pcr16 rr false n16)) s = some (s.regs.pc + n16, s)

/-- R152, R153: an indirect form takes as effective address the word at the address its direct form has, reading its high byte, then its
low byte, after the base register is updated; the rest is as in the direct form.
Inferred by the spec (log 13): D21, the indirect forms and the order of the two reads. -/
def Obligations.IndirectAddresses : Prop :=
  ∀ (s : State) (r : Base) (n8 : Byte) (n16 : Word) (rr : BitVec 2),
    (∀ p ∈ [(Idx.inc2 r true, Idx.inc2 r false), (.dec2 r true, .dec2 r false), (.zero r true, .zero r false),
        (.accB r true, .accB r false), (.accA r true, .accA r false), (.accD r true, .accD r false),
        (.off8 r true n8, .off8 r false n8), (.off16 r true n16, .off16 r false n16),
        (.pcr8 rr true n8, .pcr8 rr false n8), (.pcr16 rr true n16, .pcr16 rr false n16)],
      ∃ pointer s1 t, resolve (.idx p.2) s = some (pointer, s1) ∧
        resolve (.idx p.1) s = some (joinBytes (s.byteAt pointer) (s.byteAt (pointer + 1#16)), t) ∧
        t.regs = s1.regs ∧ SameMemory s1 t ∧ SameControl s1 t ∧
        t.bus = [.read (pointer + 1#16) false (s.byteAt (pointer + 1#16)), .read pointer false (s.byteAt pointer)] ++ s1.bus) ∧
    ∃ t, resolve (.idx (.extInd n16)) s = some (joinBytes (s.byteAt n16) (s.byteAt (n16 + 1#16)), t) ∧
      t.regs = s.regs ∧ SameMemory s t ∧ SameControl s t ∧
      t.bus = [.read (n16 + 1#16) false (s.byteAt (n16 + 1#16)), .read n16 false (s.byteAt n16)] ++ s.bus

/-- R130, R156: a resolver changes no register but the base register of an auto-increment or auto-decrement form, no flag, no memory.
Inferred by the spec (log 13): D35. -/
def Obligations.ResolversChangeOnlyTheirBase : Prop :=
  ∀ (s t : State) (ea : Ea) (a : Word), resolve ea s = some (a, t) →
    SameMemory s t ∧ SameControl s t ∧
    t.regs.a = s.regs.a ∧ t.regs.b = s.regs.b ∧ t.regs.dp = s.regs.dp ∧ t.regs.cc = s.regs.cc ∧ t.regs.pc = s.regs.pc ∧
    ((∀ r ind, ea ≠ .idx (.inc1 r) ∧ ea ≠ .idx (.inc2 r ind) ∧ ea ≠ .idx (.dec1 r) ∧ ea ≠ .idx (.dec2 r ind)) →
      t.regs = s.regs) ∧
    (∀ r ind, ea = .idx (.inc1 r) ∨ ea = .idx (.inc2 r ind) ∨ ea = .idx (.dec1 r) ∨ ea = .idx (.dec2 r ind) →
      ∀ q : Reg16, q ≠ baseReg r → t.get16 q = s.get16 q)

/-- R159, R134: the operand is the immediate itself, with no bus call, or what one read of `EA` (two for a word, high byte first) gives;
reading it changes nothing else.
Inferred by the spec (log 13): D21 and D30, the order of the two reads. -/
def Obligations.OperandsAreReadOnce : Prop :=
  ∀ (s : State) (v8 : Byte) (v16 : Word) (ea : Ea),
    operand8 (.imm v8) s = some (v8, s) ∧ operand16 (.imm v16) s = some (v16, s) ∧
    (∀ a s1, resolve ea s = some (a, s1) →
      (∃ t, operand8 (.mem ea) s = some (s1.byteAt a, t) ∧ t.regs = s1.regs ∧ SameMemory s1 t ∧ SameControl s1 t ∧
        t.bus = .read a false (s1.byteAt a) :: s1.bus) ∧
      (∃ t, operand16 (.mem ea) s = some (joinBytes (s1.byteAt a) (s1.byteAt (a + 1#16)), t) ∧ t.regs = s1.regs ∧
        SameMemory s1 t ∧ SameControl s1 t ∧
        t.bus = [.read (a + 1#16) false (s1.byteAt (a + 1#16)), .read a false (s1.byteAt a)] ++ s1.bus)) ∧
    (resolve ea s = none → operand8 (.mem ea) s = none ∧ operand16 (.mem ea) s = none)

/-- R155: a post-byte without a meaning makes the whole instruction a no-op, whichever instruction it belongs to; no other form lacks an
effective address.
Inferred by the spec (log 13): D9 (log 14). -/
def Obligations.IllegalPostBytesDoNothing : Prop :=
  ∀ (s : State) (ea : Ea),
    (resolve ea s = none ↔ ∃ pb, ea = .idx (.illegal pb)) ∧
    (resolve ea s = none →
      (∀ f ∈ [Instr.lda, .ldb, .adda, .addb, .adca, .adcb, .suba, .subb, .sbca, .sbcb, .cmpa, .cmpb, .anda, .andb, .ora, .orb,
          .eora, .eorb, .bita, .bitb], exec (f (.mem ea)) s = .next s) ∧
      (∀ f ∈ [Instr.ldd, .ldx, .ldy, .ldu, .lds, .addd, .subd, .cmpd, .cmpx, .cmpy, .cmpu, .cmps],
        exec (f (.mem ea)) s = .next s) ∧
      (∀ f ∈ [Instr.sta, .stb, .std, .stx, .sty, .stu, .sts, .clr, .neg, .inc, .dec, .tst, .com, .asl, .asr, .lsr, .rol, .ror,
          .jmp, .jsr], exec (f ea) s = .next s)) ∧
    (∀ pb, ∀ f ∈ [Instr.leax, .leay, .leas, .leau], exec (f (.illegal pb)) s = .next s)

/-! ## Data movement -/

/-- R184, and the registers of R170 to R176: the operand goes to the register, N and Z show it, V is cleared; on the bus there is no call
for an immediate operand, one read for a byte, two for a word, high byte first. -/
def Obligations.LoadsOfBytesAndWords : Prop :=
  (∀ (s s1 : State) (src : Src8) (m : Byte), operand8 src s = some (m, s1) →
    ∀ p ∈ [(Instr.lda, Reg8.a), (.ldb, .b)],
      ∃ t, exec (p.1 src) s = .next t ∧ Writes8 p.2 m [.n, .z, .v] s1 t ∧ ShowsNZ8 m t ∧ ¬ FlagSet .v t ∧
        (∀ v, src = .imm v → m = v ∧ t.bus = s.bus) ∧
        (∀ ea a s0, src = .mem ea → resolve ea s = some (a, s0) → m = s0.byteAt a ∧ t.bus = .read a false m :: s0.bus)) ∧
  (∀ (s s1 : State) (src : Src16) (m : Word), operand16 src s = some (m, s1) →
    ∀ p ∈ [(Instr.ldd, Reg16.d), (.ldx, .x), (.ldy, .y), (.ldu, .u), (.lds, .s)],
      ∃ t, exec (p.1 src) s = .next t ∧ Writes16 p.2 m [.n, .z, .v] s1 t ∧ ShowsNZ16 m t ∧ ¬ FlagSet .v t ∧
        (∀ v, src = .imm v → m = v ∧ t.bus = s.bus) ∧
        (∀ ea a s0, src = .mem ea → resolve ea s = some (a, s0) →
          m = joinBytes (s0.byteAt a) (s0.byteAt (a + 1#16)) ∧
          t.bus = [.read (a + 1#16) false (loByte m), .read a false (hiByte m)] ++ s0.bus))

/-- R177, R178, R185: the register after the resolver is stored; V is left as it was.
Inferred by the spec (log 13): D19 and D35; V left as it was is conflict C4 (log 16). -/
def Obligations.StoresOfAByte : Prop :=
  ∀ (s s1 : State) (ea : Ea) (a : Word), resolve ea s = some (a, s1) →
    ∀ p ∈ [(Instr.sta, Reg8.a), (.stb, .b)],
      ∃ t, exec (p.1 ea) s = .next t ∧
        Stores8 a (s1.get8 p.2) [.write a (s1.get8 p.2)] [.n, .z] s1 t ∧ ShowsNZ8 (s1.get8 p.2) t

/-- R179 to R183, R185, R65, R156.
Inferred by the spec (log 13): D19, D21 and D35; V left as it was is conflict C4 (log 16). -/
def Obligations.StoresOfAWord : Prop :=
  ∀ (s s1 : State) (ea : Ea) (a : Word), resolve ea s = some (a, s1) →
    ∀ p ∈ [(Instr.std, Reg16.d), (.stx, .x), (.sty, .y), (.stu, .u), (.sts, .s)],
      ∃ t, exec (p.1 ea) s = .next t ∧ Stores16 a (s1.get16 p.2) [.n, .z] s1 t ∧ ShowsNZ16 (s1.get16 p.2) t

/-- R186 to R189: LEAX and LEAY write Z, LEAS and LEAU no flag; memory at the address is not touched.
Inferred by the spec (log 13): D35 and D41, the whole of LEA. -/
def Obligations.LoadsOfAnAddress : Prop :=
  ∀ (s s1 : State) (i : Idx) (a : Word), resolve (.idx i) s = some (a, s1) →
    (∀ p ∈ [(Instr.leax, Reg16.x), (.leay, .y)],
      ∃ t, exec (p.1 i) s = .next t ∧ Writes16 p.2 a [.z] s1 t ∧ (FlagSet .z t ↔ a.toNat = 0)) ∧
    (∀ p ∈ [(Instr.leas, Reg16.s), (.leau, .u)], ∃ t, exec (p.1 i) s = .next t ∧ Writes16 p.2 a [] s1 t)

/-! ## Arithmetic -/

/-- R203, and R200, R201, R202, R204, R205 which use it: ADD and ADC of bytes, ADDD of words; ADDD does not write H. -/
def Obligations.AdditionOfBytesAndWords : Prop :=
  (∀ (s s1 : State) (src : Src8) (m : Byte), operand8 src s = some (m, s1) →
    ∀ p ∈ [(Instr.adda, Reg8.a, false), (.addb, .b, false), (.adca, .a, Flag.c.get (s1.get8 .cc)),
        (.adcb, .b, Flag.c.get (s1.get8 .cc))],
      let r := s1.get8 p.2.1
      let sum := r.toNat + m.toNat + p.2.2.toNat
      ∃ t, exec (p.1 src) s = .next t ∧ Writes8 p.2.1 (BitVec.ofNat 8 sum) [.h, .n, .z, .v, .c] s1 t ∧
        ShowsNZ8 (BitVec.ofNat 8 sum) t ∧ (FlagSet .c t ↔ 255 < sum) ∧
        (FlagSet .v t ↔ ¬ FitsSigned8 (r.toInt + m.toInt + p.2.2.toNat)) ∧
        (FlagSet .h t ↔ 15 < r.toNat % 16 + m.toNat % 16 + p.2.2.toNat)) ∧
  (∀ (s s1 : State) (src : Src16) (m : Word), operand16 src s = some (m, s1) →
    let sum := 256 * s1.regs.a.toNat + s1.regs.b.toNat + m.toNat
    ∃ t, exec (.addd src) s = .next t ∧ Writes16 .d (BitVec.ofNat 16 sum) [.n, .z, .v, .c] s1 t ∧
      ShowsNZ16 (BitVec.ofNat 16 sum) t ∧ (FlagSet .c t ↔ 65535 < sum) ∧
      (FlagSet .v t ↔ ¬ FitsSigned16 ((s1.get16 .d).toInt + m.toInt)))

/-- R209, and R206, R207, R208, R210, R211 which use it: SUB and SBC of bytes, SUBD of words.  C is the borrow; H is left as it was
(decision D17).
Inferred by the spec (log 13): D17 (log 15), the formula of V. -/
def Obligations.SubtractionOfBytesAndWords : Prop :=
  (∀ (s s1 : State) (src : Src8) (m : Byte), operand8 src s = some (m, s1) →
    ∀ p ∈ [(Instr.suba, Reg8.a, false), (.subb, .b, false), (.sbca, .a, Flag.c.get (s1.get8 .cc)),
        (.sbcb, .b, Flag.c.get (s1.get8 .cc))],
      let r := s1.get8 p.2.1
      let difference : Int := r.toNat - m.toNat - p.2.2.toNat
      ∃ t, exec (p.1 src) s = .next t ∧ Writes8 p.2.1 (BitVec.ofInt 8 difference) [.n, .z, .v, .c] s1 t ∧
        ShowsNZ8 (BitVec.ofInt 8 difference) t ∧ (FlagSet .c t ↔ difference < 0) ∧
        (FlagSet .v t ↔ ¬ FitsSigned8 (r.toInt - m.toInt - p.2.2.toNat))) ∧
  (∀ (s s1 : State) (src : Src16) (m : Word), operand16 src s = some (m, s1) →
    let d := 256 * s1.regs.a.toNat + s1.regs.b.toNat
    let difference := BitVec.ofInt 16 (d - m.toNat)
    ∃ t, exec (.subd src) s = .next t ∧ Writes16 .d difference [.n, .z, .v, .c] s1 t ∧ ShowsNZ16 difference t ∧
      (FlagSet .c t ↔ d < m.toNat) ∧ (FlagSet .v t ↔ ¬ FitsSigned16 ((s1.get16 .d).toInt - m.toInt)))

/-- R212 to R218, R209: a compare writes flags only: Z is equality, C is unsigned less, N xor V is signed less.
Inferred by the spec (log 13): D17 (log 15), the formula of V. -/
def Obligations.Comparisons : Prop :=
  (∀ (s s1 : State) (src : Src8) (m : Byte), operand8 src s = some (m, s1) →
    ∀ p ∈ [(Instr.cmpa, Reg8.a), (.cmpb, .b)],
      let r := s1.get8 p.2
      ∃ t, exec (p.1 src) s = .next t ∧ WritesFlags [.n, .z, .v, .c] s1 t ∧ ShowsNZ8 (r - m) t ∧
        (FlagSet .z t ↔ r = m) ∧ (FlagSet .c t ↔ r.toNat < m.toNat) ∧
        (FlagSet .v t ↔ ¬ FitsSigned8 (r.toInt - m.toInt)) ∧ ((¬ (FlagSet .n t ↔ FlagSet .v t)) ↔ r.toInt < m.toInt)) ∧
  (∀ (s s1 : State) (src : Src16) (m : Word), operand16 src s = some (m, s1) →
    ∀ p ∈ [(Instr.cmpd, Reg16.d), (.cmpx, .x), (.cmpy, .y), (.cmpu, .u), (.cmps, .s)],
      let r := s1.get16 p.2
      ∃ t, exec (p.1 src) s = .next t ∧ WritesFlags [.n, .z, .v, .c] s1 t ∧ ShowsNZ16 (r - m) t ∧
        (FlagSet .z t ↔ r = m) ∧ (FlagSet .c t ↔ r.toNat < m.toNat) ∧
        (FlagSet .v t ↔ ¬ FitsSigned16 (r.toInt - m.toInt)) ∧ ((¬ (FlagSet .n t ↔ FlagSet .v t)) ↔ r.toInt < m.toInt))

/-- R219, R222, R225, R190, R255, R231: one read and one write of the same byte.
Inferred by the spec (log 13): D17 (log 15), D37 and D41, the read-modify-write template, INC, DEC and CLR. -/
def Obligations.ArithmeticOnMemory : Prop :=
  ∀ (s s1 : State) (ea : Ea) (a : Word), resolve ea s = some (a, s1) →
    ∀ p ∈ [(Instr.neg, [Flag.n, .z, .v, .c], Negated), (.inc, [.n, .z, .v], Incremented), (.dec, [.n, .z, .v], Decremented),
        (.clr, [.n, .z, .v, .c], Cleared), (.com, [.n, .z, .v, .c], Complemented)],
      ∃ t v, exec (p.1 ea) s = .next t ∧
        Stores8 a v [.write a v, .read a false (s1.byteAt a)] p.2.1 s1 t ∧
        p.2.2 (s1.byteAt a) (Flag.c.get (s1.get8 .cc)) v t

/-- R220, R221, R223, R224, R226, R227, R191, R192, R256, R257: the same on an accumulator.
Inferred by the spec (log 13): D17 (log 15) and D41, INC, DEC and CLR. -/
def Obligations.ArithmeticOnAnAccumulator : Prop :=
  ∀ (s : State),
    ∀ p ∈ [(Instr.nega, Reg8.a, [Flag.n, .z, .v, .c], Negated), (.negb, .b, [.n, .z, .v, .c], Negated),
        (.inca, .a, [.n, .z, .v], Incremented), (.incb, .b, [.n, .z, .v], Incremented),
        (.deca, .a, [.n, .z, .v], Decremented), (.decb, .b, [.n, .z, .v], Decremented),
        (.clra, .a, [.n, .z, .v, .c], Cleared), (.clrb, .b, [.n, .z, .v, .c], Cleared),
        (.coma, .a, [.n, .z, .v, .c], Complemented), (.comb, .b, [.n, .z, .v, .c], Complemented)],
      ∃ t v, exec p.1 s = .next t ∧ Writes8 p.2.1 v p.2.2.1 s t ∧
        p.2.2.2 (s.get8 p.2.1) (Flag.c.get (s.get8 .cc)) v t

/-- R228 to R230: memory is read once and not written, the accumulator stays.
Inferred by the spec (log 13): D41, the whole of TST. -/
def Obligations.TestsOfAByte : Prop :=
  (∀ (s s1 : State) (ea : Ea) (a : Word), resolve ea s = some (a, s1) →
    ∃ t, exec (.tst ea) s = .next t ∧ t.regs = s1.regs.set8 .cc (t.get8 .cc) ∧ SameFlags [.n, .z, .v] s1 t ∧
      SameMemory s1 t ∧ t.bus = .read a false (s1.byteAt a) :: s1.bus ∧ SameControl s1 t ∧
      ShowsNZ8 (s1.byteAt a) t ∧ ¬ FlagSet .v t) ∧
  (∀ (s : State), ∀ p ∈ [(Instr.tsta, Reg8.a), (.tstb, .b)],
    ∃ t, exec p.1 s = .next t ∧ WritesFlags [.n, .z, .v] s t ∧ ShowsNZ8 (s.get8 p.2) t ∧ ¬ FlagSet .v t)

/-- R232, R233, R237: MUL is unsigned, SEX signed, ABX zero-extends `B`.
Inferred by the spec (log 13): D36 (log 15) and D41, the whole of MUL, SEX and ABX. -/
def Obligations.MultiplySignExtendAddB : Prop :=
  ∀ (s : State),
    let product := BitVec.ofNat 16 (s.regs.a.toNat * s.regs.b.toNat)
    let extended := BitVec.ofInt 16 s.regs.b.toInt
    (∃ t, exec .mul s = .next t ∧ Writes16 .d product [.z, .c] s t ∧
      (FlagSet .z t ↔ s.regs.a.toNat * s.regs.b.toNat = 0) ∧ (FlagSet .c t ↔ 128 ≤ s.regs.a.toNat * s.regs.b.toNat % 256)) ∧
    (∃ t, exec .sex s = .next t ∧ Writes16 .d extended [.n, .z] s t ∧ ShowsNZ16 extended t) ∧
    (∃ t, exec .abx s = .next t ∧ Writes16 .x (BitVec.ofNat 16 (s.regs.x.toNat + s.regs.b.toNat)) [] s t)

/-- R235: the correction, the adjusted byte, and the carry that is "set, never cleared"; V is left as it was.
Inferred by the spec (log 13): D18 (log 15), the algorithm. -/
def Obligations.DecimalAdjust : Prop :=
  ∀ (s : State),
    let lo := s.regs.a.toNat % 16
    let hi := s.regs.a.toNat / 16
    let low := 9 < lo ∨ FlagSet .h s
    let high := (8 < hi ∧ 9 < lo) ∨ 9 < hi ∨ FlagSet .c s
    ∃ correction t, exec .daa s = .next t ∧
      (¬ low ∧ ¬ high → correction = 0) ∧ (low ∧ ¬ high → correction = 0x06) ∧
      (¬ low ∧ high → correction = 0x60) ∧ (low ∧ high → correction = 0x66) ∧
      Writes8 .a (BitVec.ofNat 8 (s.regs.a.toNat + correction)) [.n, .z, .c] s t ∧
      ShowsNZ8 (BitVec.ofNat 8 (s.regs.a.toNat + correction)) t ∧
      (FlagSet .c t ↔ FlagSet .c s ∨ 255 < s.regs.a.toNat + correction)

/-- R200, R204, R235: ADDA or ADCA of two packed BCD bytes followed by DAA is the decimal sum, with the decimal carry in C.
Inferred by the spec (log 13): D18 (log 15), the algorithm of DAA. -/
def Obligations.DecimalAdditionIsDecimal : Prop :=
  ∀ (s : State) (x y : Nat), x < 100 → y < 100 →
    let bcd := fun n => BitVec.ofNat 8 (16 * (n / 10) + n % 10)
    s.regs.a = bcd x →
    ∀ p ∈ [(Instr.adda, 0), (.adca, (Flag.c.get (s.get8 .cc)).toNat)],
      ∃ t u, exec (p.1 (.imm (bcd y))) s = .next t ∧ exec .daa t = .next u ∧
        u.regs.a = bcd ((x + y + p.2) % 100) ∧ (FlagSet .c u ↔ 100 ≤ x + y + p.2)

/-! ## Logical operations -/

/-- R250 to R254, R260, R258, R259: V cleared, C and H left as they were; BIT writes no register. -/
def Obligations.LogicalOperations : Prop :=
  ∀ (s s1 : State) (src : Src8) (m : Byte), operand8 src s = some (m, s1) →
    (∀ p ∈ [(Instr.anda, Reg8.a, fun x y : Bool => x && y), (.andb, .b, fun x y => x && y), (.ora, .a, fun x y => x || y),
        (.orb, .b, fun x y => x || y), (.eora, .a, fun x y => x != y), (.eorb, .b, fun x y => x != y)],
      ∃ t v, exec (p.1 src) s = .next t ∧ Writes8 p.2.1 v [.n, .z, .v] s1 t ∧ ShowsNZ8 v t ∧ ¬ FlagSet .v t ∧
        ∀ k, k < 8 → v.getLsbD k = p.2.2 ((s1.get8 p.2.1).getLsbD k) (m.getLsbD k)) ∧
    (∀ p ∈ [(Instr.bita, Reg8.a), (.bitb, .b)],
      ∃ t v, exec (p.1 src) s = .next t ∧ WritesFlags [.n, .z, .v] s1 t ∧ ShowsNZ8 v t ∧ ¬ FlagSet .v t ∧
        ∀ k, k < 8 → v.getLsbD k = ((s1.get8 p.2).getLsbD k && m.getLsbD k))

/-- R261, R262: every flag whose mask bit says so, `E`, `F` and `I` among them.
Inferred by the spec (log 13): D1 and D41, the whole of ORCC and ANDCC. -/
def Obligations.MasksOnTheConditionCodes : Prop :=
  ∀ (s : State) (imm : Byte),
    (∃ t, exec (.orcc imm) s = .next t ∧ t.regs = s.regs.set8 .cc (t.get8 .cc) ∧
      SameMemory s t ∧ t.bus = s.bus ∧ SameControl s t ∧
      ∀ k : Flag, FlagSet k t ↔ FlagSet k s ∨ imm.getLsbD k.bit = true) ∧
    (∃ t, exec (.andcc imm) s = .next t ∧ t.regs = s.regs.set8 .cc (t.get8 .cc) ∧
      SameMemory s t ∧ t.bus = s.bus ∧ SameControl s t ∧
      ∀ k : Flag, FlagSet k t ↔ FlagSet k s ∧ imm.getLsbD k.bit = true)

/-! ## Shifts and rotates -/

/-- R280, R283, R286, R289, R292, R295, R231: the memory forms.
Inferred by the spec (log 13): D17 (log 15) and D20, the read-modify-write template. -/
def Obligations.ShiftsOfMemory : Prop :=
  ∀ (s s1 : State) (ea : Ea) (a : Word), resolve ea s = some (a, s1) →
    ∀ p ∈ [(Instr.asl, [Flag.n, .z, .v, .c], ShiftedLeft), (.asr, [.n, .z, .c], ShiftedRightArithmetic),
        (.lsr, [.n, .z, .c], ShiftedRightLogical), (.rol, [.n, .z, .v, .c], RotatedLeft), (.ror, [.n, .z, .c], RotatedRight)],
      ∃ t v, exec (p.1 ea) s = .next t ∧
        Stores8 a v [.write a v, .read a false (s1.byteAt a)] p.2.1 s1 t ∧
        p.2.2 (s1.byteAt a) (Flag.c.get (s1.get8 .cc)) v t

/-- R281, R282, R284, R285, R287, R288, R290, R291, R293, R294: the accumulator forms.
Inferred by the spec (log 13): D17 (log 15) and D20. -/
def Obligations.ShiftsOfAnAccumulator : Prop :=
  ∀ (s : State),
    ∀ p ∈ [(Instr.asla, Reg8.a, [Flag.n, .z, .v, .c], ShiftedLeft), (.aslb, .b, [.n, .z, .v, .c], ShiftedLeft),
        (.asra, .a, [.n, .z, .c], ShiftedRightArithmetic), (.asrb, .b, [.n, .z, .c], ShiftedRightArithmetic),
        (.lsra, .a, [.n, .z, .c], ShiftedRightLogical), (.lsrb, .b, [.n, .z, .c], ShiftedRightLogical),
        (.rola, .a, [.n, .z, .v, .c], RotatedLeft), (.rolb, .b, [.n, .z, .v, .c], RotatedLeft),
        (.rora, .a, [.n, .z, .c], RotatedRight), (.rorb, .b, [.n, .z, .c], RotatedRight)],
      ∃ t v, exec p.1 s = .next t ∧ Writes8 p.2.1 v p.2.2.1 s t ∧
        p.2.2.2 (s.get8 p.2.1) (Flag.c.get (s.get8 .cc)) v t

/-- R289, R292: "nine ROLs restore the operand and C", and so do nine RORs; ROR undoes ROL. -/
def Obligations.RotatesAreNineBitRotations : Prop :=
  ∀ (m cc : Byte),
    let around := fun (op : Byte → Byte → Byte × Byte) (n : Nat) => (fun q : Byte × Byte => op q.1 q.2)^[n] (m, cc)
    (around rolOp 9).1 = m ∧ Flag.c.get (around rolOp 9).2 = Flag.c.get cc ∧
    (around rorOp 9).1 = m ∧ Flag.c.get (around rorOp 9).2 = Flag.c.get cc ∧
    (rorOp (rolOp m cc).1 (rolOp m cc).2).1 = m

/-! ## Branches and control transfer -/

/-- R300 to R316, R318 to R333, R131: the predicate of each branch, short and long, over C, Z, V, N alone; the target is relative to the
following instruction; nothing but `PC` changes.
Inferred by the spec (log 13): D1, D2 and D23. -/
def Obligations.BranchesFollowTheirPredicates : Prop :=
  ∀ (s : State) (o8 : Byte) (o16 : Word),
    ∀ p ∈ [(Instr.bra, Instr.lbra, fun _ _ _ _ : Bool => true), (.brn, .lbrn, fun _ _ _ _ => false),
        (.bhi, .lbhi, fun c z _ _ => !c && !z), (.bls, .lbls, fun c z _ _ => c || z),
        (.bcc, .lbcc, fun c _ _ _ => !c), (.bcs, .lbcs, fun c _ _ _ => c),
        (.bne, .lbne, fun _ z _ _ => !z), (.beq, .lbeq, fun _ z _ _ => z),
        (.bvc, .lbvc, fun _ _ v _ => !v), (.bvs, .lbvs, fun _ _ v _ => v),
        (.bpl, .lbpl, fun _ _ _ n => !n), (.bmi, .lbmi, fun _ _ _ n => n),
        (.bge, .lbge, fun _ _ v n => n == v), (.blt, .lblt, fun _ _ v n => n != v),
        (.bgt, .lbgt, fun _ z v n => !z && (n == v)), (.ble, .lble, fun _ z v n => z || (n != v))],
      let cc := s.regs.cc
      let taken := p.2.2 (cc.getLsbD 0) (cc.getLsbD 2) (cc.getLsbD 1) (cc.getLsbD 3)
      (∃ t, exec (p.1 o8) s = .next t ∧
        JumpsTo (if taken then BitVec.ofInt 16 (s.regs.pc.toNat + o8.toInt) else s.regs.pc) s t) ∧
      (∃ t, exec (p.2.1 o16) s = .next t ∧ JumpsTo (if taken then s.regs.pc + o16 else s.regs.pc) s t)

/-- R317, R334 to R338: where the jumps, calls and the return go, and what a call leaves on the system stack.
Inferred by the spec (log 13): D38 and D41, JMP, JSR, RTS, the stack and the byte order of a call. -/
def Obligations.JumpsCallsAndReturns : Prop :=
  (∀ (s s1 : State) (ea : Ea) (a : Word), resolve ea s = some (a, s1) →
    (∃ t, exec (.jmp ea) s = .next t ∧ JumpsTo a s1 t) ∧
    (∃ t, exec (.jsr ea) s = .next t ∧ t.regs = { s1.regs with pc := a, s := s1.regs.s - 2#16 } ∧
      HoldsBytes t t.regs.s (wordBytes s1.regs.pc) ∧ SameMemoryOutside t.regs.s 2 s1 t ∧
      t.bus = pushCalls t.regs.s (wordBytes s1.regs.pc) ++ s1.bus ∧ SameControl s1 t)) ∧
  (∀ (s : State) (o8 : Byte) (o16 : Word),
    ∀ p ∈ [(Instr.bsr o8, BitVec.ofInt 16 (s.regs.pc.toNat + o8.toInt)), (.lbsr o16, s.regs.pc + o16)],
      ∃ t, exec p.1 s = .next t ∧ t.regs = { s.regs with pc := p.2, s := s.regs.s - 2#16 } ∧
        HoldsBytes t t.regs.s (wordBytes s.regs.pc) ∧ SameMemoryOutside t.regs.s 2 s t ∧
        t.bus = pushCalls t.regs.s (wordBytes s.regs.pc) ++ s.bus ∧ SameControl s t) ∧
  (∀ (s : State),
    ∃ t, exec .rts s = .next t ∧
      t.regs = { s.regs with pc := joinBytes (s.byteAt s.regs.s) (s.byteAt (s.regs.s + 1#16)), s := s.regs.s + 2#16 } ∧
      SameMemory s t ∧ t.bus = (readCalls s.regs.s (bytesFrom s 2 s.regs.s)).reverse ++ s.bus ∧ SameControl s t)

/-! ## Stack operations -/

/-- R350, R352, R354 to R356: the bytes a push leaves, in the fixed order, and the calls on the bus; every other register stays.
Inferred by the spec (log 13): D21 and D33, the byte order of a push. -/
def Obligations.PushesLeaveTheImage : Prop :=
  ∀ (s : State) (m : StackMask),
    (let image := stackImage .u m s.regs
     ∃ t, exec (.pshs m) s = .next t ∧ t.regs = { s.regs with s := s.regs.s - BitVec.ofNat 16 image.length } ∧
      HoldsBytes t t.regs.s image ∧ SameMemoryOutside t.regs.s image.length s t ∧
      t.bus = pushCalls t.regs.s image ++ s.bus ∧ SameControl s t) ∧
    (let image := stackImage .s m s.regs
     ∃ t, exec (.pshu m) s = .next t ∧ t.regs = { s.regs with u := s.regs.u - BitVec.ofNat 16 image.length } ∧
      HoldsBytes t t.regs.u image ∧ SameMemoryOutside t.regs.u image.length s t ∧
      t.bus = pushCalls t.regs.u image ++ s.bus ∧ SameControl s t)

/-- R351, R353 to R356: where memory holds the image of registers `r`, a pull gives the masked registers their values in `r`, leaves every
other register, moves the stack pointer past the image, reads each byte once in ascending order, and writes no memory.
Inferred by the spec (log 13): D21 and D33. -/
def Obligations.PullsTakeTheImage : Prop :=
  ∀ (s : State) (m : StackMask) (r : Regs),
    (HoldsBytes s s.regs.s (stackImage .u m r) →
      let image := stackImage .u m r
      ∃ t, exec (.puls m) s = .next t ∧ SameMemory s t ∧ SameControl s t ∧
        t.bus = (readCalls s.regs.s image).reverse ++ s.bus ∧
        t.regs =
          { cc := if m.cc then r.cc else s.regs.cc, a := if m.a then r.a else s.regs.a, b := if m.b then r.b else s.regs.b,
            dp := if m.dp then r.dp else s.regs.dp, x := if m.x then r.x else s.regs.x, y := if m.y then r.y else s.regs.y,
            u := if m.other then r.u else s.regs.u, s := s.regs.s + BitVec.ofNat 16 image.length,
            pc := if m.pc then r.pc else s.regs.pc }) ∧
    (HoldsBytes s s.regs.u (stackImage .s m r) →
      let image := stackImage .s m r
      ∃ t, exec (.pulu m) s = .next t ∧ SameMemory s t ∧ SameControl s t ∧
        t.bus = (readCalls s.regs.u image).reverse ++ s.bus ∧
        t.regs =
          { cc := if m.cc then r.cc else s.regs.cc, a := if m.a then r.a else s.regs.a, b := if m.b then r.b else s.regs.b,
            dp := if m.dp then r.dp else s.regs.dp, x := if m.x then r.x else s.regs.x, y := if m.y then r.y else s.regs.y,
            s := if m.other then r.s else s.regs.s, u := s.regs.u + BitVec.ofNat 16 image.length,
            pc := if m.pc then r.pc else s.regs.pc })

/-! ## Register transfer -/

/-- R360 to R365: a legal pair moves or exchanges, both reads before either write; no flag is computed; an illegal pair does nothing.
Inferred by the spec (log 13): D8 (log 14) and D34, the register codes. -/
def Obligations.TransfersAndExchanges : Prop :=
  ∀ (s : State),
    (∀ r q : Reg16,
      (∃ t, exec (.tfr ⟨.r16 r, .r16 q⟩) s = .next t ∧ t.get16 q = s.get16 r ∧ (∀ k, k ≠ q → t.get16 k = s.get16 k) ∧
        t.regs.cc = s.regs.cc ∧ t.regs.dp = s.regs.dp ∧ SameMemory s t ∧ t.bus = s.bus ∧ SameControl s t) ∧
      (∃ t, exec (.exg ⟨.r16 r, .r16 q⟩) s = .next t ∧ t.get16 q = s.get16 r ∧ t.get16 r = s.get16 q ∧
        (∀ k, k ≠ q → k ≠ r → t.get16 k = s.get16 k) ∧
        t.regs.cc = s.regs.cc ∧ t.regs.dp = s.regs.dp ∧ SameMemory s t ∧ t.bus = s.bus ∧ SameControl s t)) ∧
    (∀ r q : Reg8,
      (∃ t, exec (.tfr ⟨.r8 r, .r8 q⟩) s = .next t ∧ t.get8 q = s.get8 r ∧ (∀ k, k ≠ q → t.get8 k = s.get8 k) ∧
        (∀ k : Reg16, k ≠ .d → t.get16 k = s.get16 k) ∧ SameMemory s t ∧ t.bus = s.bus ∧ SameControl s t) ∧
      (∃ t, exec (.exg ⟨.r8 r, .r8 q⟩) s = .next t ∧ t.get8 q = s.get8 r ∧ t.get8 r = s.get8 q ∧
        (∀ k, k ≠ q → k ≠ r → t.get8 k = s.get8 k) ∧
        (∀ k : Reg16, k ≠ .d → t.get16 k = s.get16 k) ∧ SameMemory s t ∧ t.bus = s.bus ∧ SameControl s t)) ∧
    (∀ (r : Reg16) (q : Reg8) (c : BitVec 4) (o : RegCode),
      ∀ p ∈ [RegPair.mk (.r16 r) (.r8 q), ⟨.r8 q, .r16 r⟩, ⟨.unassigned c, o⟩, ⟨o, .unassigned c⟩],
        exec (.tfr p) s = .next s ∧ exec (.exg p) s = .next s)

/-! ## Interrupt instructions and no-operations -/

/-- R380 to R383, R430, R436, R37, R71: the frame of twelve bytes with `E` set in it, then the masks (SWI only), then the vector.
Inferred by the spec (log 13): D13, D27 and D30, the masks of SWI2 and SWI3. -/
def Obligations.SoftwareInterruptsEnter : Prop :=
  ∀ (s : State),
    ∀ p ∈ [(Instr.swi, true, 0xFFFA#16), (.swi2, false, 0xFFF4#16), (.swi3, false, 0xFFF2#16)],
      ∃ t, exec p.1 s = .next t ∧ Entered true p.2.1 p.2.2 s t ∧ SameControl s t

/-- R385: the `E` of the pulled `CC` chooses the frame; memory is not written.
Inferred by the spec (log 13): D27, the order of the pulls. -/
def Obligations.RtiTakesTheFrame : Prop :=
  ∀ (s : State) (r : Regs),
    (FlagSet .e { s with regs := r } → HoldsBytes s s.regs.s (frameAll r) →
      ∃ t, exec .rti s = .next t ∧ t.regs = { r with s := s.regs.s + 12#16 } ∧ SameMemory s t ∧ SameControl s t ∧
        t.bus = (readCalls s.regs.s (frameAll r)).reverse ++ s.bus) ∧
    (¬ FlagSet .e { s with regs := r } → HoldsBytes s s.regs.s (frameFast r) →
      ∃ t, exec .rti s = .next t ∧ t.regs = { s.regs with cc := r.cc, pc := r.pc, s := s.regs.s + 3#16 } ∧ SameMemory s t ∧
        SameControl s t ∧ t.bus = (readCalls s.regs.s (frameFast r)).reverse ++ s.bus)

/-- R437: RTI "restores exactly what the entry sequence stacked": from a state with the stack pointer and memory that any entry left,
whatever its other registers, a full frame gives every register back, a fast frame `CC` and `PC`, with `E` as the entry set it.
Inferred by the spec (log 13): D26 and D27. -/
def Obligations.ReturnUndoesEntry : Prop :=
  ∀ (s h : State) (masks : Bool) (vector : Word),
    (h.regs.s = (enterException true masks vector s).regs.s → SameMemory (enterException true masks vector s) h →
      ∃ t, exec .rti h = .next t ∧ t.regs = { s.regs with cc := t.regs.cc } ∧ SameFlags [.e] s t ∧ FlagSet .e t ∧
        SameMemory h t) ∧
    (h.regs.s = (enterException false masks vector s).regs.s → SameMemory (enterException false masks vector s) h →
      ∃ t, exec .rti h = .next t ∧ t.regs = { h.regs with cc := t.regs.cc, pc := s.regs.pc, s := s.regs.s } ∧
        SameFlags [.e] s t ∧ ¬ FlagSet .e t ∧ SameMemory h t)

/-- R386, the entry: `CC` is masked, `E` set, everything stacked; the instruction goes on to wait and vectors nowhere.
Inferred by the spec (log 13): D16 and D27. -/
def Obligations.CwaiStacksAndWaits : Prop :=
  ∀ (s : State) (imm : Byte),
    ∃ t, exec (.cwai imm) s = .next t ∧
      t.regs = { s.regs with cc := t.regs.cc, s := s.regs.s - 12#16 } ∧
      (∀ k : Flag, FlagSet k t ↔ k = .e ∨ (FlagSet k s ∧ imm.getLsbD k.bit = true)) ∧
      HoldsBytes t t.regs.s (frameAll { s.regs with cc := t.regs.cc }) ∧ SameMemoryOutside t.regs.s 12 s t ∧
      t.bus = pushCalls t.regs.s (frameAll { s.regs with cc := t.regs.cc }) ++ s.bus ∧
      t.resume = .waitCwai ∧ SameControl { s with resume := .waitCwai } t

/-- R386, R441, the wait: NMI, an unmasked FIRQ or an unmasked IRQ, in this order, ends it through its vector in three cycles, with both
masks set and nothing stacked; otherwise the cycle is idle.  HALT is not read.
Inferred by the spec (log 13): D14, D15, D16 and D28; the cycles are log 12. -/
def Obligations.CwaiWaitsForAnUnmaskedLine : Prop :=
  ∀ (s : State), s.active = .waitCwai → s.clocksDue = 0 → s.lines.reset = false →
    let firq := s.lines.firq = true ∧ ¬ FlagSet .f s
    let irq := s.lines.irq = true ∧ ¬ FlagSet .i s
    (∀ vector,
      (s.lines.nmi = true ∧ vector = 0xFFFC#16) ∨ (s.lines.nmi = false ∧ firq ∧ vector = 0xFFF6#16) ∨
        (s.lines.nmi = false ∧ ¬ firq ∧ irq ∧ vector = 0xFFF8#16) →
      ∃ t, step s = .next t ∧ t.regs = { s.regs with cc := t.regs.cc, pc := s.wordAt vector } ∧
        SameFlags [.i, .f] s t ∧ FlagSet .i t ∧ FlagSet .f t ∧ SameMemory s t ∧
        t.bus = (readCalls vector (bytesFrom s 2 vector)).reverse ++ s.bus ∧ RetiredAfter 3 s t) ∧
    (s.lines.nmi = false → ¬ firq → ¬ irq → step s = .next (tick s))

/-- R387, R441: SYNC itself changes no register and waits; any of NMI, FIRQ, IRQ, masked or not, ends the wait in two cycles and nothing
else happens; otherwise the cycle is idle.  HALT is not read.
Inferred by the spec (log 13): D14, D15 and D28; the cycles are log 12. -/
def Obligations.SyncWaitsForAnyLine : Prop :=
  (∀ (s : State), ∃ t, exec .sync s = .next t ∧ t.regs = s.regs ∧ SameMemory s t ∧ t.bus = s.bus ∧
    t.resume = .waitSync ∧ SameControl { s with resume := .waitSync } t) ∧
  (∀ (s : State), s.active = .waitSync → s.clocksDue = 0 → s.lines.reset = false →
    (s.lines.nmi = true ∨ s.lines.firq = true ∨ s.lines.irq = true →
      ∃ t, step s = .next t ∧ t.regs = s.regs ∧ SameMemory s t ∧ t.bus = s.bus ∧ RetiredAfter 2 s t) ∧
    (s.lines.nmi = false → s.lines.firq = false → s.lines.irq = false → step s = .next (tick s)))

/-- R388, R410: NOP and every invalid opcode leave everything as it is.
Inferred by the spec (log 13): D6 (log 14) and D41. -/
def Obligations.NoOperationsDoNothing : Prop :=
  ∀ (s : State) (page : Page) (opcode : Byte),
    exec .nop s = .next s ∧ exec (.invalid page opcode) s = .next s

/-- R94: a page selection entry sets the page and nothing else.  The two constructors are the model's choice (log 10): the prefix and the
byte after it are one instruction. -/
def Obligations.PageSelectionSetsThePage : Prop :=
  ∀ (s : State),
    ∀ p ∈ [(Instr.page2, Page.p1), (.page3, .p2)],
      ∃ t, exec p.1 s = .next t ∧ t.page = p.2 ∧ t.regs = s.regs ∧ SameMemory s t ∧ t.bus = s.bus ∧
        SameControl { s with page := p.2 } t

/-! ## Exceptions and the boundary -/

/-- R481, R482, R421, R441: at a boundary without HALT, and in either wait whatever HALT is, RESET comes before every other line: `CC` and
`DP` are cleared, `PC` is the word at `$FFFE`, nothing else changes, in seven cycles.
Inferred by the spec (log 13): D10, D14, D15, D29 and D44. -/
def Obligations.ResetSequence : Prop :=
  ∀ (s : State), s.clocksDue = 0 → s.lines.reset = true →
    (s.active = .none ∧ s.lines.halt = false) ∨ s.active = .waitCwai ∨ s.active = .waitSync →
    ∃ t, step s = .next t ∧ t.regs = { s.regs with cc := 0x00#8, dp := 0x00#8, pc := s.wordAt 0xFFFE#16 } ∧
      SameMemory s t ∧ t.bus = (readCalls 0xFFFE#16 (bytesFrom s 2 0xFFFE#16)).reverse ++ s.bus ∧ RetiredAfter 7 s t

/-- R421, R430, R431, R436: NMI is unmaskable: at a boundary without HALT and RESET, whatever the masks and the lines of lower priority say, `E` is
set, all registers are stacked, `I` and `F` are set, `PC` is the word at `$FFFC`, in nineteen cycles.
Inferred by the spec (log 13): D27, the order within the frame; that the block is left settled is in the model's terms (log 11). -/
def Obligations.NmiEnters : Prop :=
  ∀ (s : State), AtBoundary s → s.lines.halt = false → s.lines.reset = false → s.lines.nmi = true →
    ∃ t, step s = .next t ∧ Entered true true 0xFFFC#16 s t ∧ RetiredAfter 19 s t

/-- R421, R424, R430, R432, R433: at a boundary without HALT, RESET and NMI, FIRQ with `F` clear comes before IRQ with `I` clear; what
each leaves, and in how many cycles.  That IRQ sets `F` is the document's, and departs from the MC6809 (log 16).
Inferred by the spec (log 13): D12, D26, D27 and D29. -/
def Obligations.FirqAndIrqEnter : Prop :=
  ∀ (s : State), AtBoundary s → s.lines.halt = false → s.lines.reset = false → s.lines.nmi = false →
    let firq := s.lines.firq = true ∧ ¬ FlagSet .f s
    let irq := s.lines.irq = true ∧ ¬ FlagSet .i s
    (firq → ∃ t, step s = .next t ∧ Entered false true 0xFFF6#16 s t ∧ RetiredAfter 10 s t) ∧
    (¬ firq → irq → ∃ t, step s = .next t ∧ Entered true true 0xFFF8#16 s t ∧ RetiredAfter 19 s t)

/-- R440, R423: with HALT asserted at a boundary a step is one idle cycle, whatever the other lines say.
Inferred by the spec (log 13): D14 and D44 (log 17). -/
def Obligations.HaltIdlesAtABoundary : Prop :=
  ∀ (s : State), AtBoundary s → s.lines.halt = true →
    ∃ t, step s = .next t ∧ clockStep s = .next t ∧ t.regs = s.regs ∧ t.mem = s.mem ∧ t.bus = s.bus ∧ t.active = .none ∧
      t.clocksUsed = s.clocksUsed ∧ t.page = s.page ∧ t.clocksDue = 0 ∧ t.cycles = s.cycles + 1

/-- R500, R501, R97: the cycle count of every instruction without a memory operand (those with one: `CycleCountsOfOperandForms`).  A
short branch takes 3, taken or not; a conditional long branch one more when it is taken; a push or pull one for each byte moved; RTI
nine more for the full frame.  CWAI and SYNC reach their waits after 17 and 2 of the 20 and 4 cycles of the table.
Inferred by the spec (log 13): D5 and D6; how CWAI and SYNC divide their counts is log 12. -/
def Obligations.CycleCounts : Prop :=
  ∀ (s : State), AtBoundary s → NoRequest s →
    (∀ p ∈ [(Instr.mul, 11), (.abx, 3), (.rts, 5), (.swi, 19), (.swi2, 20), (.swi3, 20),
        (.rti, if (s.byteAt s.regs.s).getLsbD 7 then 15 else 6)], TakesCycles s p.1 p.2 .none) ∧
    (∀ i ∈ [Instr.nop, .sex, .daa, .nega, .negb, .inca, .incb, .deca, .decb, .clra, .clrb, .coma, .comb, .tsta, .tstb,
        .asla, .aslb, .asra, .asrb, .lsra, .lsrb, .rola, .rolb, .rora, .rorb], TakesCycles s i 2 .none) ∧
    (∀ (v : Byte), ∀ p ∈ [(Instr.orcc v, 3), (.andcc v, 3), (.bsr v, 7), (.invalid .p0 v, 2), (.invalid .p1 v, 3),
        (.invalid .p2 v, 3)], TakesCycles s p.1 p.2 .none) ∧
    (∀ (o16 : Word), TakesCycles s (.lbra o16) 5 .none ∧ TakesCycles s (.lbsr o16) 9 .none) ∧
    (∀ (pair : RegPair), TakesCycles s (.tfr pair) 6 .none ∧ TakesCycles s (.exg pair) 8 .none) ∧
    (∀ (o8 : Byte), ∀ f ∈ [Instr.bra, .brn, .bhi, .bls, .bcc, .bcs, .bne, .beq, .bvc, .bvs, .bpl, .bmi, .bge, .blt, .bgt, .ble],
      TakesCycles s (f o8) 3 .none) ∧
    (∀ (o16 : Word),
      ∀ p ∈ [(Instr.lbrn, fun _ _ _ _ : Bool => false),
          (.lbhi, fun c z _ _ => !c && !z), (.lbls, fun c z _ _ => c || z), (.lbcc, fun c _ _ _ => !c), (.lbcs, fun c _ _ _ => c),
          (.lbne, fun _ z _ _ => !z), (.lbeq, fun _ z _ _ => z), (.lbvc, fun _ _ v _ => !v), (.lbvs, fun _ _ v _ => v),
          (.lbpl, fun _ _ _ n => !n), (.lbmi, fun _ _ _ n => n), (.lbge, fun _ _ v n => n == v), (.lblt, fun _ _ v n => n != v),
          (.lbgt, fun _ z v n => !z && (n == v)), (.lble, fun _ z v n => z || (n != v))],
        let cc := s.regs.cc
        let taken := p.2 (cc.getLsbD 0) (cc.getLsbD 2) (cc.getLsbD 1) (cc.getLsbD 3)
        TakesCycles s (p.1 o16) (if taken then 6 else 5) .none) ∧
    (∀ (m : StackMask),
      (∀ f ∈ [Instr.pshs, .puls], TakesCycles s (f m) (5 + (stackImage .u m s.regs).length) .none) ∧
      (∀ f ∈ [Instr.pshu, .pulu], TakesCycles s (f m) (5 + (stackImage .s m s.regs).length) .none)) ∧
    (∀ (v : Byte), TakesCycles s (.cwai v) 17 .waitCwai) ∧ TakesCycles s .sync 2 .waitSync

/-! ## Rules for the whole machine -/

/-- R439: "There are no synchronous faults": from every state a step, and a clock cycle, answers a next state.
Inferred by the spec (log 13): D6, D8, D9 and D32. -/
def Obligations.EveryStepAnswers : Prop :=
  ∀ (s : State), (∃ t, step s = .next t) ∧ (∃ t, clockStep s = .next t) ∧ ∀ i : Instr, ∃ t, exec i s = .next t

/-- R60, R62: a step keeps the memory in its canonical form, with every address in the address space. -/
def Obligations.StepKeepsMemoryCanonical : Prop :=
  ∀ (s t : State), s.mem.wf = true → step s = .next t → t.mem.wf = true

/-- R98, R42, R40: a step goes from a boundary or a wait to a boundary or a wait; a step that starts at a boundary without HALT and ends at
one has set the completion sentinel.
Inferred by the spec (log 13): D3; clocksDue and resume are the model's (log 11). -/
def Obligations.StepKeepsSettled : Prop :=
  ∀ (s t : State), Settled s → step s = .next t →
    Settled t ∧ (s.active = .none → s.lines.halt = false → t.active = .none → t.clocksUsed = 255#8)

/-- The state after RESET has the invariants of `StepKeepsMemoryCanonical` and `StepKeepsSettled`, and is what the RESET sequence leaves
of itself (R48, R481; the values of R482's registers are log 3's). -/
def Obligations.ResetStateIsSettled : Prop :=
  Settled State.reset ∧ State.reset.mem.wf = true ∧ NoRequest State.reset ∧
  (resetSequence State.reset).regs = State.reset.regs ∧ State.reset.regs.cc = 0x00#8 ∧ State.reset.regs.dp = 0x00#8

/-- R99, R96: the atomic transition is exactly its cycle count of single clock cycles.
Inferred by the spec (log 13): D3 (log 6). -/
def Obligations.StepIsItsClockCycles : Prop :=
  ∀ (s t : State), step s = .next t → s.cycles < t.cycles ∧ clockSteps (t.cycles - s.cycles) s = .next t

/-- R44, R422, R28: a step never writes a line: the levels afterwards are the environment's after as many cycles; and it leaves the scratch
registers alone.
Inferred by the spec (log 13): D3; the stream of levels is log 5. -/
def Obligations.StepNeverWritesTheLines : Prop :=
  ∀ (s t : State), step s = .next t →
    t.lines = (ticks (t.cycles - s.cycles) s).lines ∧ t.inputs = (ticks (t.cycles - s.cycles) s).inputs ∧
    t.scratch = s.scratch ∧ t.offset = s.offset

/-- R28: "never observable externally": two states that differ only in the scratch registers step to two states that differ only in
them.
Inferred by the spec (log 13): D3 (log 8). -/
def Obligations.ScratchIsNeverObservable : Prop :=
  ∀ (s t : State) (scratch offset : Word), step s = .next t →
    step { s with scratch := scratch, offset := offset } = .next { t with scratch := scratch, offset := offset }

/-- R63, R70: the calls a step makes on the bus are added to those before, and every read among them has `readOnly` false.
Inferred by the spec (log 13): D30; the record of the bus is log 7. -/
def Obligations.StepReadsAreNotReadOnly : Prop :=
  ∀ (s t : State), step s = .next t →
    ∃ calls, t.bus = calls ++ s.bus ∧ ∀ a ro v, BusOp.read a ro v ∈ calls → ro = false

/-- R26, R38, R36, R37: which instructions can write `DP`, `H` and the bits `E`, `F`, `I`; the others leave them.
Inferred by the spec (log 13): D13 and D17, the list of writers. -/
def Obligations.OnlyListedInstructionsWriteDpAndMasks : Prop :=
  ∀ (i : Instr) (s t : State), exec i s = .next t →
    ((∀ p m, i ≠ .tfr p ∧ i ≠ .exg p ∧ i ≠ .puls m ∧ i ≠ .pulu m) → i ≠ .rti → t.regs.dp = s.regs.dp) ∧
    ((∀ p m v, i ≠ .tfr p ∧ i ≠ .exg p ∧ i ≠ .puls m ∧ i ≠ .pulu m ∧ i ≠ .andcc v ∧ i ≠ .orcc v ∧ i ≠ .cwai v) → i ≠ .rti →
      ((∀ src, i ≠ .adda src ∧ i ≠ .addb src ∧ i ≠ .adca src ∧ i ≠ .adcb src) → (FlagSet .h t ↔ FlagSet .h s)) ∧
      (i ≠ .swi → (FlagSet .i t ↔ FlagSet .i s) ∧ (FlagSet .f t ↔ FlagSet .f s)) ∧
      (i ≠ .swi → i ≠ .swi2 → i ≠ .swi3 → (FlagSet .e t ↔ FlagSet .e s)))

/-- R69, R70: an instruction that is no store, no read-modify-write, no push, no call and no software interrupt leaves every byte of memory
as it was.
Inferred by the spec (log 13): D4. -/
def Obligations.OnlyListedInstructionsWriteMemory : Prop :=
  ∀ (i : Instr) (s t : State), exec i s = .next t →
    (∀ ea, i ≠ .sta ea ∧ i ≠ .stb ea ∧ i ≠ .std ea ∧ i ≠ .stx ea ∧ i ≠ .sty ea ∧ i ≠ .stu ea ∧ i ≠ .sts ea ∧ i ≠ .clr ea ∧
      i ≠ .neg ea ∧ i ≠ .inc ea ∧ i ≠ .dec ea ∧ i ≠ .com ea ∧ i ≠ .asl ea ∧ i ≠ .asr ea ∧ i ≠ .lsr ea ∧ i ≠ .rol ea ∧
      i ≠ .ror ea ∧ i ≠ .jsr ea) →
    (∀ m o8 o16, i ≠ .pshs m ∧ i ≠ .pshu m ∧ i ≠ .bsr o8 ∧ i ≠ .lbsr o16 ∧ i ≠ .cwai o8) →
    i ≠ .swi → i ≠ .swi2 → i ≠ .swi3 → SameMemory s t

/-! ## Cycle counts of operand forms -/

/-- R100 to R102, R158, R501: the cycle count of every instruction with a memory operand, in every form: that of its direct row; one more
for extended; for indexed that of its row and what the form adds; and that of its immediate row.
Inferred by the spec (log 13): D5 and D9, the counts of the table and of R158. -/
def Obligations.CycleCountsOfOperandForms : Prop :=
  ∀ (s : State) (r : Base) (rr : BitVec 2) (n5 : BitVec 5) (n8 lo pb : Byte) (n16 : Word), AtBoundary s → NoRequest s →
    let forms := indexedAdditions r rr n5 n8 pb n16
    (∀ f ∈ [Instr.lda, .ldb, .adda, .addb, .adca, .adcb, .suba, .subb, .sbca, .sbcb, .cmpa, .cmpb, .anda, .andb, .ora, .orb,
        .eora, .eorb, .bita, .bitb],
      TakesCycles s (f (.imm n8)) 2 .none ∧ TakesCycles s (f (.mem (.dir lo))) 4 .none ∧
      TakesCycles s (f (.mem (.ext n16))) 5 .none ∧ ∀ q ∈ forms, TakesCycles s (f (.mem (.idx q.1))) (4 + q.2) .none) ∧
    (∀ p ∈ [(Instr.ldd, 3), (.ldx, 3), (.ldu, 3), (.ldy, 4), (.lds, 4), (.addd, 4), (.subd, 4), (.cmpx, 4), (.cmpd, 5),
        (.cmpy, 5), (.cmpu, 5), (.cmps, 5)],
      TakesCycles s (p.1 (.imm n16)) p.2 .none ∧ TakesCycles s (p.1 (.mem (.dir lo))) (p.2 + 2) .none ∧
      TakesCycles s (p.1 (.mem (.ext n16))) (p.2 + 3) .none ∧
      ∀ q ∈ forms, TakesCycles s (p.1 (.mem (.idx q.1))) (p.2 + 2 + q.2) .none) ∧
    (∀ p ∈ [(Instr.sta, 4), (.stb, 4), (.std, 5), (.stx, 5), (.stu, 5), (.sty, 6), (.sts, 6), (.jmp, 3), (.jsr, 7), (.clr, 6),
        (.neg, 6), (.inc, 6), (.dec, 6), (.com, 6), (.tst, 6), (.asl, 6), (.asr, 6), (.lsr, 6), (.rol, 6), (.ror, 6)],
      TakesCycles s (p.1 (.dir lo)) p.2 .none ∧ TakesCycles s (p.1 (.ext n16)) (p.2 + 1) .none ∧
      ∀ q ∈ forms, TakesCycles s (p.1 (.idx q.1)) (p.2 + q.2) .none) ∧
    (∀ f ∈ [Instr.leax, .leay, .leas, .leau], ∀ q ∈ forms, TakesCycles s (f q.1) (4 + q.2) .none)

end
end

