-- ==== Sys2Proof/Laws/Flags.lean ====
section
/-!
SUPPORT. The condition codes as eight independent flags, and what each operation of the evaluator computes, on numbers.
-/

namespace Sys2Proof.Machine

/-- R27: the flags are independent. -/
@[simp] theorem Flag.get_put (k q : Flag) (b : Bool) (cc : Byte) : k.get (q.put b cc) = if k = q then b else k.get cc := by
  cases b <;> cases k <;> cases q <;>
    simp [Flag.get, Flag.put, Flag.mask, Flag.bit]

/-- `CC` is its eight flags. -/
theorem cc_ext {x y : Byte} (h : ∀ k : Flag, k.get x = k.get y) : x = y := by
  apply BitVec.eq_of_getLsbD_eq
  intro i hi
  have e : ∃ k : Flag, k.bit = i := by
    rcases i with _ | _ | _ | _ | _ | _ | _ | _ | i
    · exact ⟨.c, rfl⟩
    · exact ⟨.v, rfl⟩
    · exact ⟨.z, rfl⟩
    · exact ⟨.n, rfl⟩
    · exact ⟨.i, rfl⟩
    · exact ⟨.h, rfl⟩
    · exact ⟨.f, rfl⟩
    · exact ⟨.e, rfl⟩
    · omega
  obtain ⟨k, rfl⟩ := e
  exact h k

/-! ## Sign bits as numbers -/

theorem byte_sign (v : Byte) : v.getLsbD 7 = decide (128 ≤ v.toNat) := by
  have h : v.getLsbD 7 = v.msb := (BitVec.msb_eq_getLsbD_last v).symm
  rw [h, BitVec.msb_eq_decide]

theorem word_sign (v : Word) : v.getLsbD 15 = decide (32768 ≤ v.toNat) := by
  have h : v.getLsbD 15 = v.msb := (BitVec.msb_eq_getLsbD_last v).symm
  rw [h, BitVec.msb_eq_decide]

theorem byte_toInt (v : Byte) : v.toInt = if v.toNat < 128 then (v.toNat : Int) else v.toNat - 256 := by
  have := v.isLt
  rw [BitVec.toInt_eq_toNat_cond]
  split <;> split <;> omega

theorem word_toInt (v : Word) : v.toInt = if v.toNat < 32768 then (v.toNat : Int) else v.toNat - 65536 := by
  have := v.isLt
  rw [BitVec.toInt_eq_toNat_cond]
  split <;> split <;> omega

theorem byte_sign_iff (v : Byte) : v.getLsbD 7 = true ↔ v.toInt < 0 := by
  have := v.isLt
  rw [byte_sign, byte_toInt, decide_eq_true_eq]
  split <;> omega

theorem word_sign_iff (v : Word) : v.getLsbD 15 = true ↔ v.toInt < 0 := by
  have := v.isLt
  rw [word_sign, word_toInt, decide_eq_true_eq]
  split <;> omega

theorem byte_zero_iff (v : Byte) : (v == 0#8) = true ↔ v.toNat = 0 := by
  rw [beq_iff_eq]
  exact ⟨fun h => by rw [h]; rfl, fun h => BitVec.eq_of_toNat_eq h⟩

theorem word_zero_iff (v : Word) : (v == 0#16) = true ↔ v.toNat = 0 := by
  rw [beq_iff_eq]
  exact ⟨fun h => by rw [h]; rfl, fun h => BitVec.eq_of_toNat_eq h⟩

/-! ## N and Z -/

theorem nz8_n (r cc : Byte) : Flag.n.get (nz8 r cc) = true ↔ r.toInt < 0 := by
  rw [nz8, Flag.get_put, if_pos rfl, byte_sign_iff]

theorem nz8_z (r cc : Byte) : Flag.z.get (nz8 r cc) = true ↔ r.toNat = 0 := by
  simp only [nz8, Flag.get_put, reduceCtorEq, if_false, if_true]; exact byte_zero_iff r

theorem nz8_other (r cc : Byte) {k : Flag} (hn : k ≠ .n) (hz : k ≠ .z) : k.get (nz8 r cc) = k.get cc := by
  simp [nz8, hn, hz]

theorem nz16_n (r : Word) (cc : Byte) : Flag.n.get (nz16 r cc) = true ↔ r.toInt < 0 := by
  rw [nz16, Flag.get_put, if_pos rfl, word_sign_iff]

theorem nz16_z (r : Word) (cc : Byte) : Flag.z.get (nz16 r cc) = true ↔ r.toNat = 0 := by
  simp only [nz16, Flag.get_put, reduceCtorEq, if_false, if_true]; exact word_zero_iff r

theorem nz16_other (r : Word) (cc : Byte) {k : Flag} (hn : k ≠ .n) (hz : k ≠ .z) : k.get (nz16 r cc) = k.get cc := by
  simp [nz16, hn, hz]

/-! ## Addition and subtraction on numbers -/

theorem carryIn8_toNat (c : Bool) : (carryIn8 c).toNat = c.toNat := by cases c <;> rfl

theorem loNibble_toNat (v : Byte) : (loNibble v).toNat = v.toNat % 16 := by
  simp [loNibble, BitVec.extractLsb'_toNat]

theorem hiNibble_toNat (v : Byte) : (hiNibble v).toNat = v.toNat / 16 := by
  have := v.isLt
  simp only [hiNibble, BitVec.extractLsb'_toNat, Nat.shiftRight_eq_div_pow]
  omega

theorem word_bit8 (r : Word) : r.getLsbD 8 = decide (r.toNat / 256 % 2 = 1) := by
  rw [BitVec.getLsbD, Nat.testBit_eq_decide_div_mod_eq]

theorem dword_bit16 (r : BitVec 32) : r.getLsbD 16 = decide (r.toNat / 65536 % 2 = 1) := by
  rw [BitVec.getLsbD, Nat.testBit_eq_decide_div_mod_eq]

/-! The flags an operation puts, one under the other, are read off with `Flag.get_put`; what is left is a fact about numbers. -/

/-- Signed overflow of a byte addition, from the sign bits (R34). -/
theorem add_overflow8 (a b r : Byte) (c : Nat) (hc : c ≤ 1) (hr : r.toNat = (a.toNat + b.toNat + c) % 256) :
    ((a ^^^ r) &&& (b ^^^ r)).getLsbD 7 = true ↔ ¬ (-128 ≤ a.toInt + b.toInt + c ∧ a.toInt + b.toInt + c ≤ 127) := by
  have ha := a.isLt
  have hb := b.isLt
  have hr' := r.isLt
  rw [BitVec.getLsbD_and, BitVec.getLsbD_xor, BitVec.getLsbD_xor, byte_sign, byte_sign, byte_sign, byte_toInt, byte_toInt]
  by_cases h1 : 128 ≤ a.toNat <;> by_cases h2 : 128 ≤ b.toNat <;> by_cases h3 : 128 ≤ r.toNat <;>
    simp only [h1, h2, h3, decide_true, decide_false, Bool.xor_false, Bool.xor_true, Bool.not_true,
      Bool.not_false, Bool.and_true, Bool.and_false, true_iff, false_iff, Bool.false_eq_true] <;>
    (repeat' split) <;> omega

/-- Signed overflow of a word addition (R34). -/
theorem add_overflow16 (a b r : Word) (hr : r.toNat = (a.toNat + b.toNat) % 65536) :
    ((a ^^^ r) &&& (b ^^^ r)).getLsbD 15 = true ↔ ¬ (-32768 ≤ a.toInt + b.toInt ∧ a.toInt + b.toInt ≤ 32767) := by
  have ha := a.isLt
  have hb := b.isLt
  have hr' := r.isLt
  rw [BitVec.getLsbD_and, BitVec.getLsbD_xor, BitVec.getLsbD_xor, word_sign, word_sign, word_sign, word_toInt, word_toInt]
  by_cases h1 : 32768 ≤ a.toNat <;> by_cases h2 : 32768 ≤ b.toNat <;> by_cases h3 : 32768 ≤ r.toNat <;>
    simp only [h1, h2, h3, decide_true, decide_false, Bool.xor_false, Bool.xor_true, Bool.not_true,
      Bool.not_false, Bool.and_true, Bool.and_false, true_iff, false_iff, Bool.false_eq_true] <;>
    (repeat' split) <;> omega

/-- Signed overflow of a byte subtraction (R34). -/
theorem sub_overflow8 (a b r : Byte) (c : Nat) (hc : c ≤ 1) (hr : r.toNat = (a.toNat + 512 - b.toNat - c) % 256) :
    ((a ^^^ b) &&& (a ^^^ r)).getLsbD 7 = true ↔ ¬ (-128 ≤ a.toInt - b.toInt - c ∧ a.toInt - b.toInt - c ≤ 127) := by
  have ha := a.isLt
  have hb := b.isLt
  have hr' := r.isLt
  rw [BitVec.getLsbD_and, BitVec.getLsbD_xor, BitVec.getLsbD_xor, byte_sign, byte_sign, byte_sign, byte_toInt, byte_toInt]
  by_cases h1 : 128 ≤ a.toNat <;> by_cases h2 : 128 ≤ b.toNat <;> by_cases h3 : 128 ≤ r.toNat <;>
    simp only [h1, h2, h3, decide_true, decide_false, Bool.xor_false, Bool.xor_true, Bool.not_true,
      Bool.not_false, Bool.and_true, Bool.and_false, true_iff, false_iff, Bool.false_eq_true] <;>
    (repeat' split) <;> omega

/-- Signed overflow of a word subtraction (R34). -/
theorem sub_overflow16 (a b r : Word) (hr : r.toNat = (a.toNat + 65536 - b.toNat) % 65536) :
    ((a ^^^ b) &&& (a ^^^ r)).getLsbD 15 = true ↔ ¬ (-32768 ≤ a.toInt - b.toInt ∧ a.toInt - b.toInt ≤ 32767) := by
  have ha := a.isLt
  have hb := b.isLt
  have hr' := r.isLt
  rw [BitVec.getLsbD_and, BitVec.getLsbD_xor, BitVec.getLsbD_xor, word_sign, word_sign, word_sign, word_toInt, word_toInt]
  by_cases h1 : 32768 ≤ a.toNat <;> by_cases h2 : 32768 ≤ b.toNat <;> by_cases h3 : 32768 ≤ r.toNat <;>
    simp only [h1, h2, h3, decide_true, decide_false, Bool.xor_false, Bool.xor_true, Bool.not_true,
      Bool.not_false, Bool.and_true, Bool.and_false, true_iff, false_iff, Bool.false_eq_true] <;>
    (repeat' split) <;> omega

/-- `Add8` (R203) on numbers. -/
theorem add8_spec (a b : Byte) (c : Bool) (cc : Byte) :
    let sum := a.toNat + b.toNat + c.toNat
    let out := add8 a b c cc
    out.1 = BitVec.ofNat 8 sum ∧
    (Flag.n.get out.2 = true ↔ out.1.toInt < 0) ∧ (Flag.z.get out.2 = true ↔ out.1.toNat = 0) ∧
    (Flag.c.get out.2 = true ↔ 255 < sum) ∧
    (Flag.v.get out.2 = true ↔
      ¬ (-128 ≤ a.toInt + b.toInt + c.toNat ∧ a.toInt + b.toInt + c.toNat ≤ 127)) ∧
    (Flag.h.get out.2 = true ↔ 15 < a.toNat % 16 + b.toNat % 16 + c.toNat) ∧
    (∀ k : Flag, k ∉ [Flag.h, .n, .z, .v, .c] → k.get out.2 = k.get cc) := by
  have ha := a.isLt
  have hb := b.isLt
  have hc := Bool.toNat_le c
  have hres : (add8 a b c cc).1.toNat = (a.toNat + b.toNat + c.toNat) % 256 := by
    simp [add8, carryIn8_toNat]
  refine ⟨?_, ?_, ?_, ?_, ?_, ?_, ?_⟩
  · exact BitVec.eq_of_toNat_eq (by rw [hres]; simp)
  · simp only [add8, Flag.get_put, reduceCtorEq, if_false]; exact nz8_n _ _
  · simp only [add8, Flag.get_put, reduceCtorEq, if_false]; exact nz8_z _ _
  · simp only [add8, Flag.get_put, reduceCtorEq, if_false, if_true, word_bit8, decide_eq_true_eq, BitVec.toNat_add,
      BitVec.toNat_setWidth, carryIn8_toNat]
    omega
  · simp only [add8, Flag.get_put, reduceCtorEq, if_false, if_true]
    exact add_overflow8 a b _ c.toNat hc hres
  · simp only [add8, Flag.get_put, reduceCtorEq, if_false, if_true, decide_eq_true_eq, loNibble_toNat]
  · intro k hk
    simp only [List.mem_cons, List.not_mem_nil, or_false, not_or] at hk
    simp only [add8, Flag.get_put, hk, if_false, nz8_other _ _ hk.2.1 hk.2.2.1]

/-- `Sub8` (R209) on numbers. -/
theorem sub8_spec (a b : Byte) (c : Bool) (cc : Byte) :
    let difference : Int := a.toNat - b.toNat - c.toNat
    let out := sub8 a b c cc
    out.1 = BitVec.ofInt 8 difference ∧
    (Flag.n.get out.2 = true ↔ out.1.toInt < 0) ∧ (Flag.z.get out.2 = true ↔ out.1.toNat = 0) ∧
    (Flag.c.get out.2 = true ↔ difference < 0) ∧
    (Flag.v.get out.2 = true ↔
      ¬ (-128 ≤ a.toInt - b.toInt - c.toNat ∧ a.toInt - b.toInt - c.toNat ≤ 127)) ∧
    (∀ k : Flag, k ∉ [Flag.n, .z, .v, .c] → k.get out.2 = k.get cc) := by
  have ha := a.isLt
  have hb := b.isLt
  have hc := Bool.toNat_le c
  have hres : (sub8 a b c cc).1.toNat = (a.toNat + 512 - b.toNat - c.toNat) % 256 := by
    simp only [sub8, BitVec.toNat_setWidth, BitVec.toNat_sub, carryIn8_toNat]
    omega
  refine ⟨?_, ?_, ?_, ?_, ?_, ?_⟩
  · refine BitVec.eq_of_toNat_eq ?_
    rw [hres, BitVec.toNat_ofInt]
    omega
  · simp only [sub8, Flag.get_put, reduceCtorEq, if_false]; exact nz8_n _ _
  · simp only [sub8, Flag.get_put, reduceCtorEq, if_false]; exact nz8_z _ _
  · simp only [sub8, Flag.get_put, reduceCtorEq, if_false, if_true, word_bit8, decide_eq_true_eq, BitVec.toNat_sub,
      BitVec.toNat_setWidth, carryIn8_toNat]
    omega
  · simp only [sub8, Flag.get_put, reduceCtorEq, if_false, if_true]
    exact sub_overflow8 a b _ c.toNat hc hres
  · intro k hk
    simp only [List.mem_cons, List.not_mem_nil, or_false, not_or] at hk
    simp only [sub8, Flag.get_put, hk, if_false, nz8_other _ _ hk.1 hk.2.1]

/-- `Add16` (R203) on numbers. -/
theorem add16_spec (a b : Word) (cc : Byte) :
    let sum := a.toNat + b.toNat
    let out := add16 a b cc
    out.1 = BitVec.ofNat 16 sum ∧
    (Flag.n.get out.2 = true ↔ out.1.toInt < 0) ∧ (Flag.z.get out.2 = true ↔ out.1.toNat = 0) ∧
    (Flag.c.get out.2 = true ↔ 65535 < sum) ∧
    (Flag.v.get out.2 = true ↔ ¬ (-32768 ≤ a.toInt + b.toInt ∧ a.toInt + b.toInt ≤ 32767)) ∧
    (∀ k : Flag, k ∉ [Flag.n, .z, .v, .c] → k.get out.2 = k.get cc) := by
  have ha := a.isLt
  have hb := b.isLt
  have hres : (add16 a b cc).1.toNat = (a.toNat + b.toNat) % 65536 := by
    simp only [add16, BitVec.toNat_setWidth, BitVec.toNat_add]
    omega
  refine ⟨?_, ?_, ?_, ?_, ?_, ?_⟩
  · exact BitVec.eq_of_toNat_eq (by rw [hres]; simp)
  · simp only [add16, Flag.get_put, reduceCtorEq, if_false]; exact nz16_n _ _
  · simp only [add16, Flag.get_put, reduceCtorEq, if_false]; exact nz16_z _ _
  · simp only [add16, Flag.get_put, reduceCtorEq, if_false, if_true, dword_bit16, decide_eq_true_eq, BitVec.toNat_add,
      BitVec.toNat_setWidth]
    omega
  · simp only [add16, Flag.get_put, reduceCtorEq, if_false, if_true]
    exact add_overflow16 a b _ hres
  · intro k hk
    simp only [List.mem_cons, List.not_mem_nil, or_false, not_or] at hk
    simp only [add16, Flag.get_put, hk, if_false, nz16_other _ _ hk.1 hk.2.1]

/-- `Sub16` (R209) on numbers. -/
theorem sub16_spec (a b : Word) (cc : Byte) :
    let out := sub16 a b cc
    out.1 = BitVec.ofInt 16 (a.toNat - b.toNat) ∧
    (Flag.n.get out.2 = true ↔ out.1.toInt < 0) ∧ (Flag.z.get out.2 = true ↔ out.1.toNat = 0) ∧
    (Flag.c.get out.2 = true ↔ a.toNat < b.toNat) ∧
    (Flag.v.get out.2 = true ↔ ¬ (-32768 ≤ a.toInt - b.toInt ∧ a.toInt - b.toInt ≤ 32767)) ∧
    (∀ k : Flag, k ∉ [Flag.n, .z, .v, .c] → k.get out.2 = k.get cc) := by
  have ha := a.isLt
  have hb := b.isLt
  have hres : (sub16 a b cc).1.toNat = (a.toNat + 65536 - b.toNat) % 65536 := by
    simp only [sub16, BitVec.toNat_setWidth, BitVec.toNat_sub]
    omega
  refine ⟨?_, ?_, ?_, ?_, ?_, ?_⟩
  · refine BitVec.eq_of_toNat_eq ?_
    rw [hres, BitVec.toNat_ofInt]
    omega
  · simp only [sub16, Flag.get_put, reduceCtorEq, if_false]; exact nz16_n _ _
  · simp only [sub16, Flag.get_put, reduceCtorEq, if_false]; exact nz16_z _ _
  · simp only [sub16, Flag.get_put, reduceCtorEq, if_false, if_true, dword_bit16, decide_eq_true_eq, BitVec.toNat_sub,
      BitVec.toNat_setWidth]
    omega
  · simp only [sub16, Flag.get_put, reduceCtorEq, if_false, if_true]
    exact sub_overflow16 a b _ hres
  · intro k hk
    simp only [List.mem_cons, List.not_mem_nil, or_false, not_or] at hk
    simp only [sub16, Flag.get_put, hk, if_false, nz16_other _ _ hk.1 hk.2.1]

end Sys2Proof.Machine
end

