-- ==== Sys2Proof/Laws/Memory.lean ====
section
/-!
SUPPORT. The laws of memory: a read after a write, and that a write keeps the canonical form.
-/

namespace Sys2Proof.Machine

theorem Memory.read_erase (m : Memory) (a b : Nat) :
    (m.erase a).read b = if b = a then Config.unlistedByte else m.read b := by
  induction m with
  | nil => simp [Memory.erase, Memory.read]
  | cons p m ih =>
    obtain ⟨k, w⟩ := p
    by_cases hk : k = a
    · subst hk
      rw [Memory.erase, if_pos rfl, ih, Memory.read]
      by_cases hb : b = k
      · simp [hb]
      · simp [hb, Ne.symm hb]
    · simp only [Memory.erase, hk, if_false, Memory.read]
      by_cases hb : k = b
      · subst hb; simp [hk]
      · simp [hb, ih]

theorem Memory.read_erase_insert (m : Memory) (a : Nat) (v : Byte) (b : Nat) :
    ((m.erase a).insert a v).read b = if b = a then v else (m.erase a).read b := by
  have key : ∀ l : Memory, (∀ w, (a, w) ∉ l) → (l.insert a v).read b = if b = a then v else l.read b := by
    intro l hl
    induction l with
    | nil =>
      by_cases hb : b = a
      · simp [Memory.insert, Memory.read, hb]
      · simp [Memory.insert, Memory.read, hb, Ne.symm hb]
    | cons p l ih =>
      obtain ⟨k, w⟩ := p
      have hk : k ≠ a := fun h => hl w (by simp [h])
      have hl' : ∀ w, (a, w) ∉ l := fun w h => hl w (List.mem_cons_of_mem _ h)
      by_cases hb : b = a
      · subst hb
        by_cases hlt : b < k
        · simp [Memory.insert, hlt, Memory.read]
        · simp [Memory.insert, hlt, Memory.read, hk, ih hl']
      · by_cases hlt : a < k
        · simp [Memory.insert, hlt, Memory.read, hb, Ne.symm hb]
        · simp [Memory.insert, hlt, Memory.read, hb, ih hl']
  apply key
  intro w h
  induction m with
  | nil => simp [Memory.erase] at h
  | cons p m ih =>
    obtain ⟨k, x⟩ := p
    by_cases hk : k = a
    · simp only [Memory.erase, hk, if_true] at h; exact ih h
    · simp only [Memory.erase, hk, if_false, List.mem_cons, Prod.mk.injEq] at h
      rcases h with ⟨h, _⟩ | h
      · exact hk h.symm
      · exact ih h

/-- R62, R74: a read after a write. -/
theorem Memory.read_write (m : Memory) (a : Nat) (v : Byte) (b : Nat) :
    (m.write a v).read b = if b = a then v else m.read b := by
  unfold Memory.write
  split
  · rename_i h
    rw [Memory.read_erase, h]
  · rw [Memory.read_erase_insert, Memory.read_erase]
    by_cases hb : b = a <;> simp [hb]

theorem Memory.wfFrom_mono {lo lo' : Nat} (m : Memory) (h : lo' ≤ lo) (hm : Memory.wfFrom lo m = true) :
    Memory.wfFrom lo' m = true := by
  cases m with
  | nil => rfl
  | cons p m =>
    simp only [Memory.wfFrom, Bool.and_eq_true, decide_eq_true_eq] at hm ⊢
    exact ⟨⟨⟨Nat.le_trans h hm.1.1.1, hm.1.1.2⟩, hm.1.2⟩, hm.2⟩

theorem Memory.wfFrom_erase {lo : Nat} (m : Memory) (a : Nat) (hm : Memory.wfFrom lo m = true) :
    Memory.wfFrom lo (m.erase a) = true := by
  induction m generalizing lo with
  | nil => rfl
  | cons p m ih =>
    obtain ⟨k, w⟩ := p
    simp only [Memory.wfFrom, Bool.and_eq_true, decide_eq_true_eq] at hm
    by_cases hk : k = a
    · simp only [Memory.erase, hk, if_true]
      exact ih (Memory.wfFrom_mono m (by omega) hm.2)
    · simp only [Memory.erase, hk, if_false, Memory.wfFrom, Bool.and_eq_true, decide_eq_true_eq]
      exact ⟨hm.1, ih hm.2⟩

theorem Memory.wfFrom_insert {lo : Nat} (m : Memory) (a : Nat) (v : Byte) (hlo : lo ≤ a) (ha : a < 65536)
    (hv : v ≠ Config.unlistedByte) (hm : Memory.wfFrom lo m = true) (hne : ∀ w, (a, w) ∉ m) :
    Memory.wfFrom lo (m.insert a v) = true := by
  induction m generalizing lo with
  | nil => simp [Memory.insert, Memory.wfFrom, hlo, ha, hv]
  | cons p m ih =>
    obtain ⟨k, w⟩ := p
    simp only [Memory.wfFrom, Bool.and_eq_true, decide_eq_true_eq] at hm
    have hk : k ≠ a := fun h => hne w (by simp [h])
    by_cases hlt : a < k
    · simp only [Memory.insert, hlt, if_true, Memory.wfFrom, Bool.and_eq_true, decide_eq_true_eq]
      exact ⟨⟨⟨hlo, ha⟩, hv⟩, ⟨⟨by omega, hm.1.1.2⟩, hm.1.2⟩, hm.2⟩
    · simp only [Memory.insert, hlt, if_false, Memory.wfFrom, Bool.and_eq_true, decide_eq_true_eq]
      exact ⟨hm.1, ih (by omega) hm.2 fun w h => hne w (List.mem_cons_of_mem _ h)⟩

theorem Memory.erase_lacks (m : Memory) (a : Nat) : ∀ w, (a, w) ∉ m.erase a := by
  intro w h
  induction m with
  | nil => simp [Memory.erase] at h
  | cons p m ih =>
    obtain ⟨k, x⟩ := p
    by_cases hk : k = a
    · simp only [Memory.erase, hk, if_true] at h; exact ih h
    · simp only [Memory.erase, hk, if_false, List.mem_cons, Prod.mk.injEq] at h
      rcases h with ⟨h, _⟩ | h
      · exact hk h.symm
      · exact ih h

/-- A write keeps the canonical form. -/
theorem Memory.wf_write (m : Memory) (a : Nat) (v : Byte) (ha : a < 65536) (hm : m.wf = true) : (m.write a v).wf = true := by
  unfold Memory.write Memory.wf
  split
  · exact Memory.wfFrom_erase m a hm
  · rename_i h
    exact Memory.wfFrom_insert _ a v (Nat.zero_le a) ha h (Memory.wfFrom_erase m a hm) (Memory.erase_lacks m a)

/-- Where nothing is listed at or after an address, an unlisted byte is read there. -/
theorem Memory.read_of_wfFrom {lo : Nat} (m : Memory) (hm : Memory.wfFrom lo m = true) {a : Nat} (ha : a < lo) :
    m.read a = Config.unlistedByte := by
  induction m generalizing lo with
  | nil => rfl
  | cons p m ih =>
    obtain ⟨k, w⟩ := p
    simp only [Memory.wfFrom, Bool.and_eq_true, decide_eq_true_eq] at hm
    rw [Memory.read, if_neg (by omega)]
    exact ih hm.2 (by omega)

/-- The canonical form is canonical: equal readings, equal lists. -/
theorem Memory.eq_of_read_eq {lo : Nat} {m m' : Memory} (hm : Memory.wfFrom lo m = true) (hm' : Memory.wfFrom lo m' = true)
    (h : ∀ a, m.read a = m'.read a) : m = m' := by
  induction m generalizing m' lo with
  | nil =>
    cases m' with
    | nil => rfl
    | cons p m' =>
      obtain ⟨k, w⟩ := p
      simp only [Memory.wfFrom, Bool.and_eq_true, decide_eq_true_eq] at hm'
      have := h k
      simp only [Memory.read, if_true] at this
      exact absurd this.symm hm'.1.2
  | cons p m ih =>
    obtain ⟨k, w⟩ := p
    cases m' with
    | nil =>
      simp only [Memory.wfFrom, Bool.and_eq_true, decide_eq_true_eq] at hm
      have := h k
      simp only [Memory.read, if_true] at this
      exact absurd this hm.1.2
    | cons q m' =>
      obtain ⟨k', w'⟩ := q
      have h0 := hm
      have h0' := hm'
      simp only [Memory.wfFrom, Bool.and_eq_true, decide_eq_true_eq] at hm hm'
      have hkk : k = k' := by
        rcases Nat.lt_trichotomy k k' with hlt | heq | hlt
        · have h1 := h k
          rw [Memory.read, if_pos rfl, Memory.read, if_neg (by omega), Memory.read_of_wfFrom m' hm'.2 (by omega)] at h1
          exact absurd h1 hm.1.2
        · exact heq
        · have h1 := h k'
          rw [Memory.read, if_neg (by omega), Memory.read_of_wfFrom m hm.2 (by omega), Memory.read, if_pos rfl] at h1
          exact absurd h1.symm hm'.1.2
      subst hkk
      have hw : w = w' := by simpa [Memory.read] using h k
      subst hw
      have hrest : m = m' := by
        refine ih hm.2 hm'.2 fun a => ?_
        by_cases ha : k = a
        · subst ha
          rw [Memory.read_of_wfFrom m hm.2 (by omega), Memory.read_of_wfFrom m' hm'.2 (by omega)]
        · simpa [Memory.read, ha] using h a
      rw [hrest]

end Sys2Proof.Machine
end

