-- ==== Sys2Proof/Laws/State.lean ====
section
/-!
SUPPORT. One lemma per field per update of the state, and what a register reads after a register is written.
-/

namespace Sys2Proof.Machine

/-! ### set8 -/

@[simp] theorem set8_regs (s : State) (r : Reg8) (v : Byte) : (s.set8 r v).regs = s.regs.set8 r v := rfl
@[simp] theorem set8_active (s : State) (r : Reg8) (v : Byte) : (s.set8 r v).active = s.active := rfl
@[simp] theorem set8_page (s : State) (r : Reg8) (v : Byte) : (s.set8 r v).page = s.page := rfl
@[simp] theorem set8_clocksUsed (s : State) (r : Reg8) (v : Byte) : (s.set8 r v).clocksUsed = s.clocksUsed := rfl
@[simp] theorem set8_clocksDue (s : State) (r : Reg8) (v : Byte) : (s.set8 r v).clocksDue = s.clocksDue := rfl
@[simp] theorem set8_resume (s : State) (r : Reg8) (v : Byte) : (s.set8 r v).resume = s.resume := rfl
@[simp] theorem set8_scratch (s : State) (r : Reg8) (v : Byte) : (s.set8 r v).scratch = s.scratch := rfl
@[simp] theorem set8_offset (s : State) (r : Reg8) (v : Byte) : (s.set8 r v).offset = s.offset := rfl
@[simp] theorem set8_lines (s : State) (r : Reg8) (v : Byte) : (s.set8 r v).lines = s.lines := rfl
@[simp] theorem set8_inputs (s : State) (r : Reg8) (v : Byte) : (s.set8 r v).inputs = s.inputs := rfl
@[simp] theorem set8_mem (s : State) (r : Reg8) (v : Byte) : (s.set8 r v).mem = s.mem := rfl
@[simp] theorem set8_bus (s : State) (r : Reg8) (v : Byte) : (s.set8 r v).bus = s.bus := rfl
@[simp] theorem set8_cycles (s : State) (r : Reg8) (v : Byte) : (s.set8 r v).cycles = s.cycles := rfl

/-! ### set16 -/

@[simp] theorem set16_regs (s : State) (r : Reg16) (v : Word) : (s.set16 r v).regs = s.regs.set16 r v := rfl
@[simp] theorem set16_active (s : State) (r : Reg16) (v : Word) : (s.set16 r v).active = s.active := rfl
@[simp] theorem set16_page (s : State) (r : Reg16) (v : Word) : (s.set16 r v).page = s.page := rfl
@[simp] theorem set16_clocksUsed (s : State) (r : Reg16) (v : Word) : (s.set16 r v).clocksUsed = s.clocksUsed := rfl
@[simp] theorem set16_clocksDue (s : State) (r : Reg16) (v : Word) : (s.set16 r v).clocksDue = s.clocksDue := rfl
@[simp] theorem set16_resume (s : State) (r : Reg16) (v : Word) : (s.set16 r v).resume = s.resume := rfl
@[simp] theorem set16_scratch (s : State) (r : Reg16) (v : Word) : (s.set16 r v).scratch = s.scratch := rfl
@[simp] theorem set16_offset (s : State) (r : Reg16) (v : Word) : (s.set16 r v).offset = s.offset := rfl
@[simp] theorem set16_lines (s : State) (r : Reg16) (v : Word) : (s.set16 r v).lines = s.lines := rfl
@[simp] theorem set16_inputs (s : State) (r : Reg16) (v : Word) : (s.set16 r v).inputs = s.inputs := rfl
@[simp] theorem set16_mem (s : State) (r : Reg16) (v : Word) : (s.set16 r v).mem = s.mem := rfl
@[simp] theorem set16_bus (s : State) (r : Reg16) (v : Word) : (s.set16 r v).bus = s.bus := rfl
@[simp] theorem set16_cycles (s : State) (r : Reg16) (v : Word) : (s.set16 r v).cycles = s.cycles := rfl

/-! ### setFlag -/

@[simp] theorem setFlag_regs (s : State) (k : Flag) (b : Bool) : (s.setFlag k b).regs = s.regs.set8 .cc (k.put b s.regs.cc) := rfl
@[simp] theorem setFlag_active (s : State) (k : Flag) (b : Bool) : (s.setFlag k b).active = s.active := rfl
@[simp] theorem setFlag_page (s : State) (k : Flag) (b : Bool) : (s.setFlag k b).page = s.page := rfl
@[simp] theorem setFlag_clocksUsed (s : State) (k : Flag) (b : Bool) : (s.setFlag k b).clocksUsed = s.clocksUsed := rfl
@[simp] theorem setFlag_clocksDue (s : State) (k : Flag) (b : Bool) : (s.setFlag k b).clocksDue = s.clocksDue := rfl
@[simp] theorem setFlag_resume (s : State) (k : Flag) (b : Bool) : (s.setFlag k b).resume = s.resume := rfl
@[simp] theorem setFlag_scratch (s : State) (k : Flag) (b : Bool) : (s.setFlag k b).scratch = s.scratch := rfl
@[simp] theorem setFlag_offset (s : State) (k : Flag) (b : Bool) : (s.setFlag k b).offset = s.offset := rfl
@[simp] theorem setFlag_lines (s : State) (k : Flag) (b : Bool) : (s.setFlag k b).lines = s.lines := rfl
@[simp] theorem setFlag_inputs (s : State) (k : Flag) (b : Bool) : (s.setFlag k b).inputs = s.inputs := rfl
@[simp] theorem setFlag_mem (s : State) (k : Flag) (b : Bool) : (s.setFlag k b).mem = s.mem := rfl
@[simp] theorem setFlag_bus (s : State) (k : Flag) (b : Bool) : (s.setFlag k b).bus = s.bus := rfl
@[simp] theorem setFlag_cycles (s : State) (k : Flag) (b : Bool) : (s.setFlag k b).cycles = s.cycles := rfl

/-! ### record -/

@[simp] theorem record_regs (s : State) (op : BusOp) : (s.record op).regs = s.regs := rfl
@[simp] theorem record_active (s : State) (op : BusOp) : (s.record op).active = s.active := rfl
@[simp] theorem record_page (s : State) (op : BusOp) : (s.record op).page = s.page := rfl
@[simp] theorem record_clocksUsed (s : State) (op : BusOp) : (s.record op).clocksUsed = s.clocksUsed := rfl
@[simp] theorem record_clocksDue (s : State) (op : BusOp) : (s.record op).clocksDue = s.clocksDue := rfl
@[simp] theorem record_resume (s : State) (op : BusOp) : (s.record op).resume = s.resume := rfl
@[simp] theorem record_scratch (s : State) (op : BusOp) : (s.record op).scratch = s.scratch := rfl
@[simp] theorem record_offset (s : State) (op : BusOp) : (s.record op).offset = s.offset := rfl
@[simp] theorem record_lines (s : State) (op : BusOp) : (s.record op).lines = s.lines := rfl
@[simp] theorem record_inputs (s : State) (op : BusOp) : (s.record op).inputs = s.inputs := rfl
@[simp] theorem record_mem (s : State) (op : BusOp) : (s.record op).mem = s.mem := rfl
@[simp] theorem record_bus (s : State) (op : BusOp) : (s.record op).bus = op :: s.bus := rfl
@[simp] theorem record_cycles (s : State) (op : BusOp) : (s.record op).cycles = s.cycles := rfl

/-! ### write8 -/

@[simp] theorem write8_regs (a : Word) (v : Byte) (s : State) : (write8 a v s).regs = s.regs := rfl
@[simp] theorem write8_active (a : Word) (v : Byte) (s : State) : (write8 a v s).active = s.active := rfl
@[simp] theorem write8_page (a : Word) (v : Byte) (s : State) : (write8 a v s).page = s.page := rfl
@[simp] theorem write8_clocksUsed (a : Word) (v : Byte) (s : State) : (write8 a v s).clocksUsed = s.clocksUsed := rfl
@[simp] theorem write8_clocksDue (a : Word) (v : Byte) (s : State) : (write8 a v s).clocksDue = s.clocksDue := rfl
@[simp] theorem write8_resume (a : Word) (v : Byte) (s : State) : (write8 a v s).resume = s.resume := rfl
@[simp] theorem write8_scratch (a : Word) (v : Byte) (s : State) : (write8 a v s).scratch = s.scratch := rfl
@[simp] theorem write8_offset (a : Word) (v : Byte) (s : State) : (write8 a v s).offset = s.offset := rfl
@[simp] theorem write8_lines (a : Word) (v : Byte) (s : State) : (write8 a v s).lines = s.lines := rfl
@[simp] theorem write8_inputs (a : Word) (v : Byte) (s : State) : (write8 a v s).inputs = s.inputs := rfl
@[simp] theorem write8_mem (a : Word) (v : Byte) (s : State) : (write8 a v s).mem = Memory.write s.mem a.toNat v := rfl
@[simp] theorem write8_bus (a : Word) (v : Byte) (s : State) : (write8 a v s).bus = .write a v :: s.bus := rfl
@[simp] theorem write8_cycles (a : Word) (v : Byte) (s : State) : (write8 a v s).cycles = s.cycles := rfl

/-! ### selectPage -/

@[simp] theorem selectPage_regs (p : Page) (s : State) : (selectPage p s).regs = s.regs := rfl
@[simp] theorem selectPage_active (p : Page) (s : State) : (selectPage p s).active = s.active := rfl
@[simp] theorem selectPage_page (p : Page) (s : State) : (selectPage p s).page = p := rfl
@[simp] theorem selectPage_clocksUsed (p : Page) (s : State) : (selectPage p s).clocksUsed = s.clocksUsed := rfl
@[simp] theorem selectPage_clocksDue (p : Page) (s : State) : (selectPage p s).clocksDue = s.clocksDue := rfl
@[simp] theorem selectPage_resume (p : Page) (s : State) : (selectPage p s).resume = s.resume := rfl
@[simp] theorem selectPage_scratch (p : Page) (s : State) : (selectPage p s).scratch = s.scratch := rfl
@[simp] theorem selectPage_offset (p : Page) (s : State) : (selectPage p s).offset = s.offset := rfl
@[simp] theorem selectPage_lines (p : Page) (s : State) : (selectPage p s).lines = s.lines := rfl
@[simp] theorem selectPage_inputs (p : Page) (s : State) : (selectPage p s).inputs = s.inputs := rfl
@[simp] theorem selectPage_mem (p : Page) (s : State) : (selectPage p s).mem = s.mem := rfl
@[simp] theorem selectPage_bus (p : Page) (s : State) : (selectPage p s).bus = s.bus := rfl
@[simp] theorem selectPage_cycles (p : Page) (s : State) : (selectPage p s).cycles = s.cycles := rfl

/-! ### thenWait -/

@[simp] theorem thenWait_regs (a : Active) (s : State) : (thenWait a s).regs = s.regs := rfl
@[simp] theorem thenWait_active (a : Active) (s : State) : (thenWait a s).active = s.active := rfl
@[simp] theorem thenWait_page (a : Active) (s : State) : (thenWait a s).page = s.page := rfl
@[simp] theorem thenWait_clocksUsed (a : Active) (s : State) : (thenWait a s).clocksUsed = s.clocksUsed := rfl
@[simp] theorem thenWait_clocksDue (a : Active) (s : State) : (thenWait a s).clocksDue = s.clocksDue := rfl
@[simp] theorem thenWait_resume (a : Active) (s : State) : (thenWait a s).resume = a := rfl
@[simp] theorem thenWait_scratch (a : Active) (s : State) : (thenWait a s).scratch = s.scratch := rfl
@[simp] theorem thenWait_offset (a : Active) (s : State) : (thenWait a s).offset = s.offset := rfl
@[simp] theorem thenWait_lines (a : Active) (s : State) : (thenWait a s).lines = s.lines := rfl
@[simp] theorem thenWait_inputs (a : Active) (s : State) : (thenWait a s).inputs = s.inputs := rfl
@[simp] theorem thenWait_mem (a : Active) (s : State) : (thenWait a s).mem = s.mem := rfl
@[simp] theorem thenWait_bus (a : Active) (s : State) : (thenWait a s).bus = s.bus := rfl
@[simp] theorem thenWait_cycles (a : Active) (s : State) : (thenWait a s).cycles = s.cycles := rfl

/-! ### leaveWait -/

@[simp] theorem leaveWait_regs (n : Nat) (s : State) : (leaveWait n s).regs = s.regs := rfl
@[simp] theorem leaveWait_active (n : Nat) (s : State) : (leaveWait n s).active = s.active := rfl
@[simp] theorem leaveWait_page (n : Nat) (s : State) : (leaveWait n s).page = s.page := rfl
@[simp] theorem leaveWait_clocksUsed (n : Nat) (s : State) : (leaveWait n s).clocksUsed = s.clocksUsed := rfl
@[simp] theorem leaveWait_clocksDue (n : Nat) (s : State) : (leaveWait n s).clocksDue = n := rfl
@[simp] theorem leaveWait_resume (n : Nat) (s : State) : (leaveWait n s).resume = .none := rfl
@[simp] theorem leaveWait_scratch (n : Nat) (s : State) : (leaveWait n s).scratch = s.scratch := rfl
@[simp] theorem leaveWait_offset (n : Nat) (s : State) : (leaveWait n s).offset = s.offset := rfl
@[simp] theorem leaveWait_lines (n : Nat) (s : State) : (leaveWait n s).lines = s.lines := rfl
@[simp] theorem leaveWait_inputs (n : Nat) (s : State) : (leaveWait n s).inputs = s.inputs := rfl
@[simp] theorem leaveWait_mem (n : Nat) (s : State) : (leaveWait n s).mem = s.mem := rfl
@[simp] theorem leaveWait_bus (n : Nat) (s : State) : (leaveWait n s).bus = s.bus := rfl
@[simp] theorem leaveWait_cycles (n : Nat) (s : State) : (leaveWait n s).cycles = s.cycles := rfl

/-! ### Registers -/

@[simp] theorem set8_get8_same (r : Regs) (k : Reg8) (v : Byte) : (r.set8 k v).get8 k = v := by cases k <;> rfl

theorem set8_get8_other (r : Regs) {k q : Reg8} (v : Byte) (h : q ≠ k) : (r.set8 k v).get8 q = r.get8 q := by
  cases k <;> cases q <;> first | rfl | exact absurd rfl h

@[simp] theorem set16_get16_same (r : Regs) (k : Reg16) (v : Word) : (r.set16 k v).get16 k = v := by
  cases k <;> first | rfl | exact joinBytes_hi_lo v

theorem set16_get16_other (r : Regs) {k q : Reg16} (v : Word) (h : q ≠ k) : (r.set16 k v).get16 q = r.get16 q := by
  cases k <;> cases q <;> first | rfl | exact absurd rfl h

@[simp] theorem set8_cc_set8_cc (r : Regs) (v w : Byte) : (r.set8 .cc v).set8 .cc w = r.set8 .cc w := rfl

/-! ### Reading memory -/

theorem byteAt_of_mem {s t : State} (h : t.mem = s.mem) (a : Word) : t.byteAt a = s.byteAt a := by
  simp only [State.byteAt, h]

@[simp] theorem set8_byteAt (s : State) (r : Reg8) (v : Byte) (a : Word) : (s.set8 r v).byteAt a = s.byteAt a := rfl
@[simp] theorem set16_byteAt (s : State) (r : Reg16) (v : Word) (a : Word) : (s.set16 r v).byteAt a = s.byteAt a := rfl
@[simp] theorem setFlag_byteAt (s : State) (k : Flag) (b : Bool) (a : Word) : (s.setFlag k b).byteAt a = s.byteAt a := rfl
@[simp] theorem record_byteAt (s : State) (op : BusOp) (a : Word) : (s.record op).byteAt a = s.byteAt a := rfl
@[simp] theorem thenWait_byteAt (w : Active) (s : State) (a : Word) : (thenWait w s).byteAt a = s.byteAt a := rfl

end Sys2Proof.Machine
end

