-- ==== Sys2Proof/Laws/Ops.lean ====
section
/-!
SUPPORT. What each shared operation over memory, stack and exceptions does: one lemma each, for the provers to cite.
-/

namespace Sys2Proof.Machine

/-! ## What stays, as relations -/

theorem SameControl.refl (s : State) : SameControl s s := ⟨rfl, rfl, rfl, rfl, rfl, rfl, rfl, rfl, rfl, rfl⟩

theorem SameControl.trans {s t u : State} (h : SameControl s t) (g : SameControl t u) : SameControl s u := by
  obtain ⟨h1, h2, h3, h4, h5, h6, h7, h8, h9, h10⟩ := h
  obtain ⟨g1, g2, g3, g4, g5, g6, g7, g8, g9, g10⟩ := g
  exact ⟨g1.trans h1, g2.trans h2, g3.trans h3, g4.trans h4, g5.trans h5, g6.trans h6, g7.trans h7, g8.trans h8,
    g9.trans h9, g10.trans h10⟩

theorem SameMemory.refl (s : State) : SameMemory s s := fun _ => rfl

theorem SameMemory.trans {s t u : State} (h : SameMemory s t) (g : SameMemory t u) : SameMemory s u :=
  fun a => (g a).trans (h a)

theorem sameMemory_of_mem {s t : State} (h : t.mem = s.mem) : SameMemory s t := byteAt_of_mem h

theorem HoldsBytes.congr {s t : State} (h : SameMemory s t) {a : Word} {bs : List Byte} (hb : HoldsBytes s a bs) :
    HoldsBytes t a bs := by
  induction bs generalizing a with
  | nil => trivial
  | cons b bs ih => exact ⟨(h a).trans hb.1, ih hb.2⟩

theorem HoldsBytes.append {s : State} {a : Word} {bs cs : List Byte} :
    HoldsBytes s a (bs ++ cs) ↔ HoldsBytes s a bs ∧ HoldsBytes s (a + BitVec.ofNat 16 bs.length) cs := by
  induction bs generalizing a with
  | nil => simp [HoldsBytes]
  | cons b bs ih =>
    simp only [List.cons_append, HoldsBytes, ih, List.length_cons, and_assoc]
    rw [show a + BitVec.ofNat 16 (bs.length + 1) = a + 1#16 + BitVec.ofNat 16 bs.length by
      rw [BitVec.add_assoc, ← BitVec.ofNat_add, Nat.add_comm bs.length 1]]

/-! ## The bus -/

/-- R62, R74: a read after a write. -/
theorem write8_byteAt (a : Word) (v : Byte) (s : State) (b : Word) :
    (write8 a v s).byteAt b = if b = a then v else s.byteAt b := by
  simp only [State.byteAt, write8, Memory.read_write, BitVec.toNat_inj]

theorem write8_control (a : Word) (v : Byte) (s : State) : SameControl s (write8 a v s) := SameControl.refl s

theorem write8_keeps_wf (a : Word) (v : Byte) {s : State} (h : s.mem.wf = true) : (write8 a v s).mem.wf = true :=
  Memory.wf_write s.mem a.toNat v a.isLt h

theorem write16_keeps_wf (a v : Word) {s : State} (h : s.mem.wf = true) : (write16 a v s).mem.wf = true :=
  write8_keeps_wf _ _ (write8_keeps_wf _ _ h)

/-- R64: the word read, and the two calls, the high byte first. -/
theorem read16_spec (a : Word) (s : State) :
    read16 a s = (s.wordAt a,
      { s with bus := .read (a + 1#16) false (s.byteAt (a + 1#16)) :: .read a false (s.byteAt a) :: s.bus }) := rfl

/-- R65: the two bytes written, and the two calls, the high byte first. -/
theorem write16_byteAt (a v : Word) (s : State) (b : Word) :
    (write16 a v s).byteAt b = if b = a + 1#16 then loByte v else if b = a then hiByte v else s.byteAt b := by
  simp only [write16, write8_byteAt]

/-! ## Pushing -/

theorem push8_mem_wf (sp : Reg16) (v : Byte) {s : State} (h : s.mem.wf = true) : (push8 sp v s).mem.wf = true :=
  write8_keeps_wf _ _ h

theorem push16_mem_wf (sp : Reg16) (v : Word) {s : State} (h : s.mem.wf = true) : (push16 sp v s).mem.wf = true :=
  push8_mem_wf _ _ (push8_mem_wf _ _ h)

/-- A push of these bytes, which then stand in memory in this order from the new stack pointer upward: the last byte is pushed first. -/
def pushImage (sp : Reg16) : List Byte → State → State
  | [], s => s
  | b :: bs, s => push8 sp b (pushImage sp bs s)

theorem pushImage_append (sp : Reg16) (bs cs : List Byte) (s : State) :
    pushImage sp (bs ++ cs) s = pushImage sp bs (pushImage sp cs s) := by
  induction bs with
  | nil => rfl
  | cons b bs ih => simp only [List.cons_append, pushImage, ih]

theorem push8_eq_pushImage (sp : Reg16) (v : Byte) (s : State) : push8 sp v s = pushImage sp [v] s := rfl

theorem push16_eq_pushImage (sp : Reg16) (v : Word) (s : State) : push16 sp v s = pushImage sp (wordBytes v) s := rfl

theorem stack_get_set {sp : Reg16} (h : sp = .s ∨ sp = .u) (r : Regs) (v w : Word) :
    (r.set16 sp v).set16 sp w = r.set16 sp w := by
  rcases h with rfl | rfl <;> rfl

/-- R24, R355: everything a push does. -/
theorem pushImage_spec {sp : Reg16} (hsp : sp = .s ∨ sp = .u) (bs : List Byte) (hlen : bs.length < 65536) (s : State) :
    let t := pushImage sp bs s
    t.regs = s.regs.set16 sp (s.get16 sp - BitVec.ofNat 16 bs.length) ∧
    HoldsBytes t (t.get16 sp) bs ∧ SameMemoryOutside (t.get16 sp) bs.length s t ∧
    t.bus = pushCalls (t.get16 sp) bs ++ s.bus ∧ SameControl s t ∧ (s.mem.wf = true → t.mem.wf = true) := by
  induction bs with
  | nil =>
    refine ⟨?_, trivial, fun _ _ => rfl, rfl, SameControl.refl s, id⟩
    rcases hsp with rfl | rfl <;> simp [pushImage, Regs.set16, State.get16, Regs.get16]
  | cons b bs ih =>
    obtain ⟨hregs, hholds, hout, hbus, hctl, hwf⟩ := ih (by simp only [List.length_cons] at hlen; omega)
    simp only [pushImage]
    generalize pushImage sp bs s = t at hregs hholds hout hbus hctl hwf
    have hpc : (push8 sp b t).get16 sp = t.get16 sp - 1#16 := by
      simp [push8, State.get16]
    have hnext : t.get16 sp - 1#16 + 1#16 = t.get16 sp := by bv_omega
    have hlen' : bs.length + 1 < 65536 := by simpa using hlen
    have hread : ∀ x, (push8 sp b t).byteAt x = if x = t.get16 sp - 1#16 then b else t.byteAt x := by
      intro x; simp only [push8, write8_byteAt]; rfl
    have key : ∀ (cs : List Byte) (a : Word), (∀ k, k < cs.length → a + BitVec.ofNat 16 k ≠ t.get16 sp - 1#16) →
        HoldsBytes t a cs → HoldsBytes (push8 sp b t) a cs := by
      intro cs
      induction cs with
      | nil => intros; trivial
      | cons c cs ihc =>
        intro a hne hb
        refine ⟨?_, ihc (a + 1#16) ?_ hb.2⟩
        · rw [hread, if_neg (by simpa using hne 0 (by simp))]; exact hb.1
        · intro k hk
          have := hne (k + 1) (by simpa using hk)
          rwa [show a + BitVec.ofNat 16 (k + 1) = a + 1#16 + BitVec.ofNat 16 k by
            rw [BitVec.add_assoc, ← BitVec.ofNat_add, Nat.add_comm k 1]] at this
    refine ⟨?_, ?_, ?_, ?_, ?_, ?_⟩
    · show t.regs.set16 sp (t.get16 sp - 1#16) = _
      have hval : t.get16 sp = s.get16 sp - BitVec.ofNat 16 bs.length := by
        simp only [State.get16, hregs, set16_get16_same]
      rw [hval, hregs, stack_get_set hsp]
      congr 1
      simp only [List.length_cons]
      rw [BitVec.ofNat_add]
      bv_omega
    · rw [hpc]
      refine ⟨by rw [hread, if_pos rfl], ?_⟩
      rw [hnext]
      refine key bs _ ?_ hholds
      intro k hk h
      have hk2 : k < 65535 := by omega
      have := congrArg BitVec.toNat h
      simp only [BitVec.toNat_add, BitVec.toNat_sub, BitVec.toNat_ofNat] at this
      have := (t.get16 sp).isLt
      omega
    · intro x hx
      rw [hpc] at hx
      have h1 : x ≠ t.get16 sp - 1#16 := by
        rintro rfl
        simp at hx
      rw [hread, if_neg h1]
      apply hout
      simp only [List.length_cons] at hx
      have h2 : x - (t.get16 sp - 1#16) = x - t.get16 sp + 1#16 := by bv_omega
      rw [h2, BitVec.toNat_add] at hx
      have := (x - t.get16 sp).isLt
      simp only [BitVec.toNat_ofNat] at hx
      omega
    · rw [hpc]
      show BusOp.write (t.get16 sp - 1#16) b :: t.bus = _
      simp only [pushCalls, hnext, hbus, List.cons_append]
    · exact hctl
    · intro h; exact push8_mem_wf sp b (hwf h)

/-! ## Pulling -/

/-- R24: everything a pull of one byte does, where memory holds it. -/
theorem pullReg8_spec {sp : Reg16} {r : Reg8} {s : State} {b : Byte} {bs : List Byte} (h : HoldsBytes s (s.get16 sp) (b :: bs))
    (hsp : sp = .s ∨ sp = .u) :
    let t := pullReg8 sp r s
    t.regs = (s.regs.set16 sp (s.get16 sp + 1#16)).set8 r b ∧ HoldsBytes t (t.get16 sp) bs ∧ t.get16 sp = s.get16 sp + 1#16 ∧
    t.mem = s.mem ∧ t.bus = .read (s.get16 sp) false b :: s.bus ∧ SameControl s t := by
  obtain ⟨hb, hbs⟩ := h
  have hsp' : (pullReg8 sp r s).get16 sp = s.get16 sp + 1#16 := by
    rcases hsp with rfl | rfl <;> cases r <;> rfl
  refine ⟨?_, ?_, hsp', rfl, ?_, SameControl.refl s⟩
  · simp only [pullReg8, pull8, read8, hb, set8_regs, set16_regs, record_regs]
  · rw [hsp']
    exact HoldsBytes.congr (s := s) (t := pullReg8 sp r s) (fun _ => rfl) hbs
  · show BusOp.read (s.get16 sp) false (s.byteAt (s.get16 sp)) :: s.bus = _
    rw [hb]

/-- R24: everything a pull of a word into a register other than the stack pointer does, where memory holds it. -/
theorem pullReg16_spec {sp r : Reg16} {s : State} {w : Word} {bs : List Byte}
    (h : HoldsBytes s (s.get16 sp) (wordBytes w ++ bs)) (hsp : sp = .s ∨ sp = .u) (hr : r ≠ sp) :
    let t := pullReg16 sp r s
    t.regs = (s.regs.set16 sp (s.get16 sp + 2#16)).set16 r w ∧ HoldsBytes t (t.get16 sp) bs ∧
    t.get16 sp = s.get16 sp + 2#16 ∧ t.mem = s.mem ∧
    t.bus = .read (s.get16 sp + 1#16) false (loByte w) :: .read (s.get16 sp) false (hiByte w) :: s.bus ∧ SameControl s t := by
  obtain ⟨hh, hl, hbs⟩ := h
  have h2 : s.get16 sp + 1#16 + 1#16 = s.get16 sp + 2#16 := by bv_omega
  have hsp' : (pullReg16 sp r s).get16 sp = s.get16 sp + 2#16 := by
    rw [← h2]
    rcases hsp with rfl | rfl <;> cases r <;> first | rfl | exact absurd rfl hr
  have hget : ∀ q : State, ((q.set16 sp (s.get16 sp + 1#16)).get16 sp) = s.get16 sp + 1#16 := by
    intro q; simp [State.get16]
  refine ⟨?_, ?_, hsp', rfl, ?_, SameControl.refl s⟩
  · simp only [pullReg16, pull16, pull8, read8, hget, set16_byteAt, record_byteAt, hh, hl, joinBytes_hi_lo, h2, set16_regs,
      record_regs]
    congr 1
    exact stack_get_set hsp _ _ _
  · rw [hsp', ← h2]
    exact HoldsBytes.congr (s := s) (t := pullReg16 sp r s) (fun _ => rfl) hbs
  · show BusOp.read ((s.set16 sp (s.get16 sp + 1#16)).get16 sp) false _ :: BusOp.read (s.get16 sp) false _ :: s.bus = _
    rw [hget]
    show BusOp.read (s.get16 sp + 1#16) false (s.byteAt ((s.set16 sp (s.get16 sp + 1#16)).get16 sp)) ::
      BusOp.read (s.get16 sp) false (s.byteAt (s.get16 sp)) :: s.bus = _
    rw [hget, hh, hl]

/-! ## Exceptions -/

/-- R430: `StackAll` is the push of its frame. -/
theorem stackAll_eq_pushImage (s : State) : stackAll s = pushImage .s (frameAll s.regs) s := rfl

/-- R430: `StackFast` is the push of its frame. -/
theorem stackFast_eq_pushImage (s : State) : stackFast s = pushImage .s (frameFast s.regs) s := rfl

/-- R436: everything a vector fetch does. -/
theorem vectorFetch_spec (v : Word) (s : State) :
    vectorFetch v s =
      { s with
        regs := { s.regs with pc := s.wordAt v }
        bus := .read (v + 1#16) false (s.byteAt (v + 1#16)) :: .read v false (s.byteAt v) :: s.bus } := rfl

/-- R431: everything setting the masks does. -/
theorem setMasks_spec (s : State) :
    setMasks s = { s with regs := { s.regs with cc := Flag.f.put true (Flag.i.put true s.regs.cc) } } := rfl

end Sys2Proof.Machine
end

