-- ==== Sys2Proof/Laws/Operands.lean ====
section
/-!
SUPPORT. What each resolver, each operand and each shape of instruction does: one lemma each, for the provers to cite.
-/

namespace Sys2Proof.Machine

/-! ## Resolvers -/

theorem indirect_false (p : Word) (s : State) : indirect false p s = (p, s) := rfl

theorem indirect_true (p : Word) (s : State) : indirect true p s = read16 p s := rfl

/-- R153: everything the indirect bit adds. -/
theorem indirect_spec (ind : Bool) (p : Word) (s : State) :
    (indirect ind p s).2.regs = s.regs ∧ (indirect ind p s).2.mem = s.mem ∧ SameControl s (indirect ind p s).2 := by
  cases ind <;> exact ⟨rfl, rfl, SameControl.refl s⟩

/-- R156: a resolver writes no memory, and no register but a base register. -/
theorem resolveIdx_spec {i : Idx} {s t : State} {a : Word} (h : resolveIdx i s = some (a, t)) :
    t.mem = s.mem ∧ SameControl s t ∧ (t.regs = s.regs ∨ ∃ r v, t.regs = s.regs.set16 (baseReg r) v) := by
  cases i <;> simp only [resolveIdx, Option.some.injEq, Prod.mk.injEq, reduceCtorEq] at h
  case off5 => obtain ⟨rfl, rfl⟩ := h; exact ⟨rfl, SameControl.refl s, .inl rfl⟩
  case inc1 r => obtain ⟨rfl, rfl⟩ := h; exact ⟨rfl, SameControl.refl s, .inr ⟨r, _, rfl⟩⟩
  case dec1 r => obtain ⟨rfl, rfl⟩ := h; exact ⟨rfl, SameControl.refl s, .inr ⟨r, _, rfl⟩⟩
  case inc2 r ind => cases ind <;> (cases h; exact ⟨rfl, SameControl.refl s, .inr ⟨r, _, rfl⟩⟩)
  case dec2 r ind => cases ind <;> (cases h; exact ⟨rfl, SameControl.refl s, .inr ⟨r, _, rfl⟩⟩)
  case extInd => cases h; exact ⟨rfl, SameControl.refl s, .inl rfl⟩
  case zero r ind => cases ind <;> (cases h; exact ⟨rfl, SameControl.refl s, .inl rfl⟩)
  case accB r ind => cases ind <;> (cases h; exact ⟨rfl, SameControl.refl s, .inl rfl⟩)
  case accA r ind => cases ind <;> (cases h; exact ⟨rfl, SameControl.refl s, .inl rfl⟩)
  case accD r ind => cases ind <;> (cases h; exact ⟨rfl, SameControl.refl s, .inl rfl⟩)
  case off8 r ind n => cases ind <;> (cases h; exact ⟨rfl, SameControl.refl s, .inl rfl⟩)
  case off16 r ind n => cases ind <;> (cases h; exact ⟨rfl, SameControl.refl s, .inl rfl⟩)
  case pcr8 rr ind n => cases ind <;> (cases h; exact ⟨rfl, SameControl.refl s, .inl rfl⟩)
  case pcr16 rr ind n => cases ind <;> (cases h; exact ⟨rfl, SameControl.refl s, .inl rfl⟩)

/-- R130, R156: the same of every memory operand. -/
theorem resolve_spec {ea : Ea} {s t : State} {a : Word} (h : resolve ea s = some (a, t)) :
    t.mem = s.mem ∧ SameControl s t ∧ (t.regs = s.regs ∨ ∃ r v, t.regs = s.regs.set16 (baseReg r) v) := by
  cases ea with
  | dir lo => cases h; exact ⟨rfl, SameControl.refl s, .inl rfl⟩
  | ext n => cases h; exact ⟨rfl, SameControl.refl s, .inl rfl⟩
  | idx i => exact resolveIdx_spec h

/-- R154: a base register is none of the 8-bit registers, nor `PC`. -/
theorem set16_baseReg_others (r : Regs) (b : Base) (v : Word) :
    let q := r.set16 (baseReg b) v
    q.a = r.a ∧ q.b = r.b ∧ q.dp = r.dp ∧ q.cc = r.cc ∧ q.pc = r.pc := by
  cases b <;> exact ⟨rfl, rfl, rfl, rfl, rfl⟩

/-- R159: reading an operand writes no memory, and no register but a base register. -/
theorem operand8_spec {src : Src8} {s t : State} {m : Byte} (h : operand8 src s = some (m, t)) :
    t.mem = s.mem ∧ SameControl s t ∧ (t.regs = s.regs ∨ ∃ r v, t.regs = s.regs.set16 (baseReg r) v) := by
  cases src with
  | imm v => cases h; exact ⟨rfl, SameControl.refl s, .inl rfl⟩
  | mem ea =>
    simp only [operand8, Option.map_eq_some_iff] at h
    obtain ⟨p, hp, h⟩ := h
    cases h
    exact resolve_spec (t := p.2) (a := p.1) hp

/-- R159: the same of a word. -/
theorem operand16_spec {src : Src16} {s t : State} {m : Word} (h : operand16 src s = some (m, t)) :
    t.mem = s.mem ∧ SameControl s t ∧ (t.regs = s.regs ∨ ∃ r v, t.regs = s.regs.set16 (baseReg r) v) := by
  cases src with
  | imm v => cases h; exact ⟨rfl, SameControl.refl s, .inl rfl⟩
  | mem ea =>
    simp only [operand16, Option.map_eq_some_iff] at h
    obtain ⟨p, hp, h⟩ := h
    cases h
    exact resolve_spec (t := p.2) (a := p.1) hp

/-! ## Shapes, once their operand is there -/

theorem accumulate8_of {r : Reg8} {op : Byte → Byte → Byte → Byte × Byte} {src : Src8} {s s1 : State} {m : Byte}
    (h : operand8 src s = some (m, s1)) :
    accumulate8 r op src s =
      (s1.set8 r (op (s1.get8 r) m (s1.get8 .cc)).1).set8 .cc (op (s1.get8 r) m (s1.get8 .cc)).2 := by
  simp only [accumulate8, h, orNothing]

theorem accumulate16_of {r : Reg16} {op : Word → Word → Byte → Word × Byte} {src : Src16} {s s1 : State} {m : Word}
    (h : operand16 src s = some (m, s1)) :
    accumulate16 r op src s =
      (s1.set16 r (op (s1.get16 r) m (s1.get8 .cc)).1).set8 .cc (op (s1.get16 r) m (s1.get8 .cc)).2 := by
  simp only [accumulate16, h, orNothing]

theorem compare8_of {r : Reg8} {op : Byte → Byte → Byte → Byte × Byte} {src : Src8} {s s1 : State} {m : Byte}
    (h : operand8 src s = some (m, s1)) :
    compare8 r op src s = s1.set8 .cc (op (s1.get8 r) m (s1.get8 .cc)).2 := by
  simp only [compare8, h, orNothing]

theorem compare16_of {r : Reg16} {op : Word → Word → Byte → Word × Byte} {src : Src16} {s s1 : State} {m : Word}
    (h : operand16 src s = some (m, s1)) :
    compare16 r op src s = s1.set8 .cc (op (s1.get16 r) m (s1.get8 .cc)).2 := by
  simp only [compare16, h, orNothing]

theorem store8_of {r : Reg8} {ea : Ea} {s s1 : State} {a : Word} (h : resolve ea s = some (a, s1)) :
    store8 r ea s = write8 a (s1.get8 r) (s1.set8 .cc (nz8 (s1.get8 r) (s1.get8 .cc))) := by
  simp only [store8, h, orNothing]

theorem store16_of {r : Reg16} {ea : Ea} {s s1 : State} {a : Word} (h : resolve ea s = some (a, s1)) :
    store16 r ea s = write16 a (s1.get16 r) (s1.set8 .cc (nz16 (s1.get16 r) (s1.get8 .cc))) := by
  simp only [store16, h, orNothing]

theorem modify_of {op : Byte → Byte → Byte × Byte} {ea : Ea} {s s1 : State} {a : Word} (h : resolve ea s = some (a, s1)) :
    modify op ea s =
      write8 a (op (s1.byteAt a) (s1.get8 .cc)).1
        ((s1.record (.read a false (s1.byteAt a))).set8 .cc (op (s1.byteAt a) (s1.get8 .cc)).2) := by
  simp only [modify, h, orNothing]; rfl

theorem test_of {op : Byte → Byte → Byte × Byte} {ea : Ea} {s s1 : State} {a : Word} (h : resolve ea s = some (a, s1)) :
    test op ea s = (s1.record (.read a false (s1.byteAt a))).set8 .cc (op (s1.byteAt a) (s1.get8 .cc)).2 := by
  simp only [test, h, orNothing]; rfl

/-! ## From a result and the flags it puts to the shapes of `Safety.lean` -/

/-- R21: `CC` is no part of a 16-bit register. -/
theorem set16_cc (r : Regs) (k : Reg16) (v : Word) : (r.set16 k v).cc = r.cc := by cases k <;> rfl

theorem set16_set8_cc (r : Regs) (k : Reg16) (v : Word) (w : Byte) :
    (r.set8 .cc w).set16 k v = (r.set16 k v).set8 .cc w := by cases k <;> rfl

theorem writes8_of {r : Reg8} {v cc : Byte} {written : List Flag} {s : State}
    (hcc : ∀ k : Flag, k ∉ written → k.get cc = k.get (s.get8 .cc)) :
    Writes8 r v written s ((s.set8 r v).set8 .cc cc) :=
  ⟨rfl, hcc, fun _ => rfl, rfl, SameControl.refl s⟩

theorem writes16_of {r : Reg16} {v : Word} {cc : Byte} {written : List Flag} {s : State}
    (hcc : ∀ k : Flag, k ∉ written → k.get cc = k.get (s.get8 .cc)) :
    Writes16 r v written s ((s.set16 r v).set8 .cc cc) :=
  ⟨rfl, hcc, fun _ => rfl, rfl, SameControl.refl s⟩

theorem writesFlags_of {cc : Byte} {written : List Flag} {s : State}
    (hcc : ∀ k : Flag, k ∉ written → k.get cc = k.get (s.get8 .cc)) : WritesFlags written s (s.set8 .cc cc) :=
  ⟨rfl, hcc, fun _ => rfl, rfl, SameControl.refl s⟩

theorem sameMemoryOutside_write8 (a : Word) (v : Byte) (s : State) : SameMemoryOutside a 1 s (write8 a v s) := by
  intro b hb
  rw [write8_byteAt, if_neg]
  rintro rfl
  simp at hb

theorem sameMemoryOutside_write16 (a v : Word) (s : State) : SameMemoryOutside a 2 s (write16 a v s) := by
  intro b hb
  rw [write16_byteAt, if_neg, if_neg]
  · rintro rfl
    simp at hb
  · rintro rfl
    rw [show a + 1#16 - a = 1#16 by bv_omega] at hb
    simp at hb

/-- A read-modify-write whose operation puts these flags. -/
theorem stores8_of_modify {v cc : Byte} {written : List Flag} {s : State} {a : Word}
    (hcc : ∀ k : Flag, k ∉ written → k.get cc = k.get (s.get8 .cc)) :
    Stores8 a v [.write a v, .read a false (s.byteAt a)] written s
      (write8 a v ((s.record (.read a false (s.byteAt a))).set8 .cc cc)) :=
  ⟨rfl, hcc, by rw [write8_byteAt, if_pos rfl], sameMemoryOutside_write8 a v _, rfl, SameControl.refl s⟩

/-- A store whose operation puts these flags. -/
theorem stores8_of {v cc : Byte} {written : List Flag} {s : State} {a : Word}
    (hcc : ∀ k : Flag, k ∉ written → k.get cc = k.get (s.get8 .cc)) :
    Stores8 a v [.write a v] written s (write8 a v (s.set8 .cc cc)) :=
  ⟨rfl, hcc, by rw [write8_byteAt, if_pos rfl], sameMemoryOutside_write8 a v _, rfl, SameControl.refl s⟩

/-- A store of a word whose operation puts these flags. -/
theorem stores16_of {v : Word} {cc : Byte} {written : List Flag} {s : State} {a : Word}
    (hcc : ∀ k : Flag, k ∉ written → k.get cc = k.get (s.get8 .cc)) :
    Stores16 a v written s (write16 a v (s.set8 .cc cc)) := by
  refine ⟨rfl, hcc, ?_, by rw [write16_byteAt, if_pos rfl], sameMemoryOutside_write16 a v _, rfl, SameControl.refl s⟩
  rw [write16_byteAt, if_neg (by bv_omega), if_pos rfl]

end Sys2Proof.Machine
end

