-- ==== Sys2Proof/Laws/Effect.lean ====
section
/-!
SUPPORT. What any meaning can do: one relation that every shared operation satisfies, and with it every instruction.
-/

namespace Sys2Proof.Machine

/-- The only calls a state may add to the record of the bus: writes, and reads with `readOnly` false (R63). -/
def PlainCall : BusOp → Prop
  | .read _ ro _ => ro = false
  | .write _ _ => True

/-- Time, the dispatcher and the environment stand still, memory keeps its canonical form, the record of the bus grows. -/
def Effect (s t : State) : Prop :=
  (t.active = s.active ∧ t.clocksUsed = s.clocksUsed ∧ t.clocksDue = s.clocksDue ∧ t.scratch = s.scratch ∧
    t.offset = s.offset ∧ t.lines = s.lines ∧ t.inputs = s.inputs ∧ t.cycles = s.cycles ∧ t.resume = s.resume) ∧
  (s.mem.wf = true → t.mem.wf = true) ∧
  ∃ calls, t.bus = calls ++ s.bus ∧ ∀ c ∈ calls, PlainCall c

theorem Effect.refl (s : State) : Effect s s :=
  ⟨⟨rfl, rfl, rfl, rfl, rfl, rfl, rfl, rfl, rfl⟩, id, [], rfl, by simp⟩

theorem Effect.trans {s t u : State} (h : Effect s t) (g : Effect t u) : Effect s u := by
  obtain ⟨⟨h1, h2, h3, h4, h5, h6, h7, h8, h9⟩, hw, cs, hc, hp⟩ := h
  obtain ⟨⟨g1, g2, g3, g4, g5, g6, g7, g8, g9⟩, gw, ds, gc, gp⟩ := g
  refine ⟨⟨g1.trans h1, g2.trans h2, g3.trans h3, g4.trans h4, g5.trans h5, g6.trans h6, g7.trans h7, g8.trans h8, g9.trans h9⟩,
    gw ∘ hw, ds ++ cs, by rw [gc, hc, List.append_assoc], ?_⟩
  intro c hcm
  rcases List.mem_append.1 hcm with h | h
  · exact gp c h
  · exact hp c h

/-- A change of registers or page alone. -/
theorem Effect.of_quiet {s t : State} (hc : t.active = s.active ∧ t.clocksUsed = s.clocksUsed ∧ t.clocksDue = s.clocksDue ∧
    t.scratch = s.scratch ∧ t.offset = s.offset ∧ t.lines = s.lines ∧ t.inputs = s.inputs ∧ t.cycles = s.cycles ∧
    t.resume = s.resume) (hm : t.mem = s.mem) (hb : t.bus = s.bus) : Effect s t :=
  ⟨hc, fun h => by rw [hm]; exact h, [], by rw [hb]; rfl, by simp⟩

theorem effect_set8 (s : State) (r : Reg8) (v : Byte) : Effect s (s.set8 r v) :=
  .of_quiet ⟨rfl, rfl, rfl, rfl, rfl, rfl, rfl, rfl, rfl⟩ rfl rfl

theorem effect_set16 (s : State) (r : Reg16) (v : Word) : Effect s (s.set16 r v) :=
  .of_quiet ⟨rfl, rfl, rfl, rfl, rfl, rfl, rfl, rfl, rfl⟩ rfl rfl

theorem effect_setFlag (s : State) (k : Flag) (b : Bool) : Effect s (s.setFlag k b) := effect_set8 s .cc _

theorem effect_read8 (a : Word) (s : State) : Effect s (read8 a s).2 :=
  ⟨⟨rfl, rfl, rfl, rfl, rfl, rfl, rfl, rfl, rfl⟩, id, [_], rfl, by simp [PlainCall]⟩

theorem effect_read16 (a : Word) (s : State) : Effect s (read16 a s).2 :=
  (effect_read8 a s).trans (effect_read8 (a + 1#16) _)

theorem effect_write8 (a : Word) (v : Byte) (s : State) : Effect s (write8 a v s) :=
  ⟨⟨rfl, rfl, rfl, rfl, rfl, rfl, rfl, rfl, rfl⟩, write8_keeps_wf a v, [_], rfl, by simp [PlainCall]⟩

theorem effect_write16 (a v : Word) (s : State) : Effect s (write16 a v s) :=
  (effect_write8 a _ s).trans (effect_write8 (a + 1#16) _ _)

theorem effect_push8 (sp : Reg16) (v : Byte) (s : State) : Effect s (push8 sp v s) :=
  (effect_set16 s sp _).trans (effect_write8 _ v _)

theorem effect_push16 (sp : Reg16) (v : Word) (s : State) : Effect s (push16 sp v s) :=
  (effect_push8 sp _ s).trans (effect_push8 sp _ _)

theorem effect_pushImage (sp : Reg16) (bs : List Byte) (s : State) : Effect s (pushImage sp bs s) := by
  induction bs with
  | nil => exact Effect.refl s
  | cons b bs ih => exact ih.trans (effect_push8 sp b _)

theorem effect_pull8 (sp : Reg16) (s : State) : Effect s (pull8 sp s).2 :=
  (effect_read8 _ s).trans (effect_set16 _ sp _)

theorem effect_pullReg8 (sp : Reg16) (r : Reg8) (s : State) : Effect s (pullReg8 sp r s) :=
  (effect_pull8 sp s).trans (effect_set8 _ r _)

theorem effect_pullReg16 (sp r : Reg16) (s : State) : Effect s (pullReg16 sp r s) :=
  ((effect_pull8 sp s).trans (effect_pull8 sp _)).trans (effect_set16 _ r _)

theorem effect_vectorFetch (v : Word) (s : State) : Effect s (vectorFetch v s) :=
  (effect_read16 v s).trans (effect_set16 _ .pc _)

theorem effect_setMasks (s : State) : Effect s (setMasks s) := (effect_setFlag s .i true).trans (effect_setFlag _ .f true)

theorem effect_stackAll (s : State) : Effect s (stackAll s) := by
  rw [stackAll_eq_pushImage]; exact effect_pushImage .s _ s

theorem effect_stackFast (s : State) : Effect s (stackFast s) := by
  rw [stackFast_eq_pushImage]; exact effect_pushImage .s _ s

theorem effect_enterException (full masks : Bool) (v : Word) (s : State) : Effect s (enterException full masks v s) := by
  refine (effect_setFlag s .e full).trans ?_
  cases full <;> cases masks
  · exact (effect_stackFast _).trans (effect_vectorFetch v _)
  · exact (effect_stackFast _).trans ((effect_setMasks _).trans (effect_vectorFetch v _))
  · exact (effect_stackAll _).trans (effect_vectorFetch v _)
  · exact (effect_stackAll _).trans ((effect_setMasks _).trans (effect_vectorFetch v _))

theorem effect_leaveCwai (v : Word) (s : State) : Effect s (leaveCwai v s) :=
  (effect_setMasks s).trans (effect_vectorFetch v _)

theorem effect_resetSequence (s : State) : Effect s (resetSequence s) :=
  ((effect_set8 s .dp _).trans (effect_vectorFetch _ _)).trans (effect_set8 _ .cc _)

theorem effect_returnFromException (s : State) : Effect s (returnFromException s) := by
  refine Effect.trans (effect_pullReg8 .s .cc s) (Effect.trans ?_ (effect_pullReg16 .s .pc _))
  split
  · exact (effect_pullReg8 _ _ _).trans <| (effect_pullReg8 _ _ _).trans <| (effect_pullReg8 _ _ _).trans <|
      (effect_pullReg16 _ _ _).trans <| (effect_pullReg16 _ _ _).trans <| effect_pullReg16 _ _ _
  · exact Effect.refl _

theorem effect_sequence (kind : ExcKind) (s : State) : Effect s (kind.sequence s) := by
  cases kind
  · exact effect_resetSequence s
  · exact effect_enterException _ _ _ s
  · exact effect_enterException _ _ _ s
  · exact effect_enterException _ _ _ s

/-! ## Operands and shapes -/

theorem effect_indirect (ind : Bool) (p : Word) (s : State) : Effect s (indirect ind p s).2 := by
  cases ind
  · exact Effect.refl s
  · exact effect_read16 p s

theorem effect_resolveIdx {i : Idx} {s : State} {p : Word × State} (h : resolveIdx i s = some p) : Effect s p.2 := by
  cases i <;> simp only [resolveIdx, Option.some.injEq, reduceCtorEq] at h
  case off5 => cases h; exact Effect.refl s
  case inc1 => cases h; exact effect_set16 s _ _
  case dec1 => cases h; exact effect_set16 s _ _
  case inc2 => cases h; exact (effect_set16 s _ _).trans (effect_indirect _ _ _)
  case dec2 => cases h; exact (effect_set16 s _ _).trans (effect_indirect _ _ _)
  all_goals (cases h; exact effect_indirect _ _ s)

theorem effect_resolve {ea : Ea} {s : State} {p : Word × State} (h : resolve ea s = some p) : Effect s p.2 := by
  cases ea with
  | dir => cases h; exact Effect.refl s
  | ext => cases h; exact Effect.refl s
  | idx i => exact effect_resolveIdx h

theorem effect_operand8 {src : Src8} {s : State} {p : Byte × State} (h : operand8 src s = some p) : Effect s p.2 := by
  cases src with
  | imm => cases h; exact Effect.refl s
  | mem ea =>
    simp only [operand8, Option.map_eq_some_iff] at h
    obtain ⟨q, hq, rfl⟩ := h
    exact (effect_resolve hq).trans (effect_read8 q.1 q.2)

theorem effect_operand16 {src : Src16} {s : State} {p : Word × State} (h : operand16 src s = some p) : Effect s p.2 := by
  cases src with
  | imm => cases h; exact Effect.refl s
  | mem ea =>
    simp only [operand16, Option.map_eq_some_iff] at h
    obtain ⟨q, hq, rfl⟩ := h
    exact (effect_resolve hq).trans (effect_read16 q.1 q.2)

/-- R155: nothing happens, or what follows the resolver does. -/
theorem effect_orNothing {α : Type} {o : Option (α × State)} {f : α → State → State} {s : State}
    (ho : ∀ p, o = some p → Effect s p.2) (hf : ∀ a t, Effect t (f a t)) : Effect s (orNothing o f s) := by
  cases o with
  | none => exact Effect.refl s
  | some p => exact (ho p rfl).trans (hf p.1 p.2)

theorem effect_accumulate8 (r : Reg8) (op : Byte → Byte → Byte → Byte × Byte) (src : Src8) (s : State) :
    Effect s (accumulate8 r op src s) :=
  effect_orNothing (fun _ h => effect_operand8 h) fun _ t => (effect_set8 t r _).trans (effect_set8 _ .cc _)

theorem effect_accumulate16 (r : Reg16) (op : Word → Word → Byte → Word × Byte) (src : Src16) (s : State) :
    Effect s (accumulate16 r op src s) :=
  effect_orNothing (fun _ h => effect_operand16 h) fun _ t => (effect_set16 t r _).trans (effect_set8 _ .cc _)

theorem effect_compare8 (r : Reg8) (op : Byte → Byte → Byte → Byte × Byte) (src : Src8) (s : State) :
    Effect s (compare8 r op src s) :=
  effect_orNothing (fun _ h => effect_operand8 h) fun _ t => effect_set8 t .cc _

theorem effect_compare16 (r : Reg16) (op : Word → Word → Byte → Word × Byte) (src : Src16) (s : State) :
    Effect s (compare16 r op src s) :=
  effect_orNothing (fun _ h => effect_operand16 h) fun _ t => effect_set8 t .cc _

theorem effect_store8 (r : Reg8) (ea : Ea) (s : State) : Effect s (store8 r ea s) :=
  effect_orNothing (fun _ h => effect_resolve h) fun _ t => (effect_set8 t .cc _).trans (effect_write8 _ _ _)

theorem effect_store16 (r : Reg16) (ea : Ea) (s : State) : Effect s (store16 r ea s) :=
  effect_orNothing (fun _ h => effect_resolve h) fun _ t => (effect_set8 t .cc _).trans (effect_write16 _ _ _)

theorem effect_modify (op : Byte → Byte → Byte × Byte) (ea : Ea) (s : State) : Effect s (Machine.modify op ea s) :=
  effect_orNothing (fun _ h => effect_resolve h) fun a t =>
    (effect_read8 a t).trans ((effect_set8 _ .cc _).trans (effect_write8 _ _ _))

theorem effect_modifyAcc (r : Reg8) (op : Byte → Byte → Byte × Byte) (s : State) : Effect s (modifyAcc r op s) :=
  (effect_set8 s r _).trans (effect_set8 _ .cc _)

theorem effect_test (op : Byte → Byte → Byte × Byte) (ea : Ea) (s : State) : Effect s (test op ea s) :=
  effect_orNothing (fun _ h => effect_resolve h) fun a t => (effect_read8 a t).trans (effect_set8 _ .cc _)

theorem effect_loadAddress (r : Reg16) (i : Idx) (s : State) : Effect s (loadAddress r i s) :=
  effect_orNothing (fun _ h => effect_resolveIdx h) fun _ t => effect_set16 t r _

theorem effect_loadAddressZ (r : Reg16) (i : Idx) (s : State) : Effect s (loadAddressZ r i s) :=
  effect_orNothing (fun _ h => effect_resolveIdx h) fun _ t => (effect_set16 t r _).trans (effect_setFlag _ .z _)

theorem effect_branch (k : Cond) (o : Word) (s : State) : Effect s (branch k o s) := by
  unfold branch
  split
  · exact effect_set16 s .pc _
  · exact Effect.refl s

theorem effect_call (target : Word) (s : State) : Effect s (call target s) :=
  (effect_push16 .s _ s).trans (effect_set16 _ .pc _)

theorem effect_if {c : Bool} {f : State → State} (hf : ∀ t, Effect t (f t)) (s : State) : Effect s (if c then f s else s) := by
  cases c
  · exact Effect.refl s
  · exact hf s

theorem effect_pushMask (sp other : Reg16) (m : StackMask) (s : State) : Effect s (pushMask sp other m s) :=
  (effect_if (effect_push16 sp _) s).trans <| (effect_if (effect_push16 sp _) _).trans <|
    (effect_if (effect_push16 sp _) _).trans <| (effect_if (effect_push16 sp _) _).trans <|
      (effect_if (effect_push8 sp _) _).trans <| (effect_if (effect_push8 sp _) _).trans <|
        (effect_if (effect_push8 sp _) _).trans (effect_if (effect_push8 sp _) _)

theorem effect_pullMask (sp other : Reg16) (m : StackMask) (s : State) : Effect s (pullMask sp other m s) :=
  (effect_if (effect_pullReg8 sp _) s).trans <| (effect_if (effect_pullReg8 sp _) _).trans <|
    (effect_if (effect_pullReg8 sp _) _).trans <| (effect_if (effect_pullReg8 sp _) _).trans <|
      (effect_if (effect_pullReg16 sp _) _).trans <| (effect_if (effect_pullReg16 sp _) _).trans <|
        (effect_if (effect_pullReg16 sp _) _).trans (effect_if (effect_pullReg16 sp _) _)

theorem effect_transfer (p : RegPair) (s : State) : Effect s (transfer p s) := by
  unfold transfer
  split
  · exact effect_set16 s _ _
  · exact effect_set8 s _ _
  all_goals exact Effect.refl s

theorem effect_exchange (p : RegPair) (s : State) : Effect s (exchange p s) := by
  unfold exchange
  split
  · exact (effect_set16 s _ _).trans (effect_set16 _ _ _)
  · exact (effect_set8 s _ _).trans (effect_set8 _ _ _)
  all_goals exact Effect.refl s

theorem effect_selectPage (p : Page) (s : State) : Effect s (selectPage p s) :=
  .of_quiet ⟨rfl, rfl, rfl, rfl, rfl, rfl, rfl, rfl, rfl⟩ rfl rfl

/-! ## Every instruction -/

/-- R98: where the block goes on to wait after an instruction. -/
def waitOf : Instr → Option Active
  | .cwai _ => some .waitCwai
  | .sync => some .waitSync
  | _ => none

/-- What every meaning does that retires. -/
theorem exec_effect (i : Instr) (s t : State) (h : exec i s = .next t) (hw : waitOf i = none) : Effect s t := by
  cases i
  case lda | ldb | adda | addb | adca | adcb | suba | subb | sbca | sbcb | anda | andb | ora | orb | eora | eorb =>
    cases h; exact effect_accumulate8 _ _ _ s
  case cmpa | cmpb | bita | bitb => cases h; exact effect_compare8 _ _ _ s
  case ldd | ldx | ldy | ldu | lds | addd | subd => cases h; exact effect_accumulate16 _ _ _ s
  case cmpd | cmpx | cmpy | cmpu | cmps => cases h; exact effect_compare16 _ _ _ s
  case sta | stb => cases h; exact effect_store8 _ _ s
  case std | stx | sty | stu | sts => cases h; exact effect_store16 _ _ s
  case leax | leay => cases h; exact effect_loadAddressZ _ _ s
  case leas | leau => cases h; exact effect_loadAddress _ _ s
  case clr | neg | inc | dec | com | asl | asr | lsr | rol | ror => cases h; exact effect_modify _ _ s
  case tst => cases h; exact effect_test _ _ s
  case clra | clrb | nega | negb | inca | incb | deca | decb | tsta | tstb | daa | coma | comb | asla | aslb | asra | asrb
      | lsra | lsrb | rola | rolb | rora | rorb => cases h; exact effect_modifyAcc _ _ s
  case mul | sex => cases h; exact (effect_set16 s .d _).trans (effect_set8 _ .cc _)
  case abx => cases h; exact effect_set16 s .x _
  case orcc | andcc => cases h; exact effect_set8 s .cc _
  case bra | brn | bhi | bls | bcc | bcs | bne | beq | bvc | bvs | bpl | bmi | bge | blt | bgt | ble
      | lbra | lbrn | lbhi | lbls | lbcc | lbcs | lbne | lbeq | lbvc | lbvs | lbpl | lbmi | lbge | lblt | lbgt | lble =>
    cases h; exact effect_branch _ _ s
  case bsr | lbsr => cases h; exact effect_call _ s
  case jmp => cases h; exact effect_orNothing (fun _ h => effect_resolve h) fun _ t => effect_set16 t .pc _
  case jsr => cases h; exact effect_orNothing (fun _ h => effect_resolve h) fun a t => effect_call a t
  case rts => cases h; exact effect_pullReg16 .s .pc s
  case pshs | pshu => cases h; exact effect_pushMask _ _ _ s
  case puls | pulu => cases h; exact effect_pullMask _ _ _ s
  case tfr => cases h; exact effect_transfer _ s
  case exg => cases h; exact effect_exchange _ s
  case swi | swi2 | swi3 => cases h; exact effect_enterException _ _ _ s
  case rti => cases h; exact effect_returnFromException s
  case cwai | sync => cases hw
  case nop | invalid => cases h; exact Effect.refl s
  case page2 | page3 => cases h; exact effect_selectPage _ s

/-- The two that do not retire, up to the wait they go on to. -/
theorem exec_waits (i : Instr) (s t : State) (a : Active) (h : exec i s = .next t) (hw : waitOf i = some a) :
    ∃ u, Effect s u ∧ t = thenWait a u := by
  cases i
  case cwai =>
    cases hw; cases h
    exact ⟨_, ((effect_set8 s .cc _).trans (effect_setFlag _ .e true)).trans (effect_stackAll _), rfl⟩
  case sync => cases hw; cases h; exact ⟨s, Effect.refl s, rfl⟩
  all_goals cases hw

/-- R98: where the block goes on to after an instruction: to its wait, or to where it was to go. -/
theorem exec_resume (i : Instr) (s t : State) (h : exec i s = .next t) : t.resume = (waitOf i).getD s.resume := by
  cases hw : waitOf i with
  | none => obtain ⟨⟨_, _, _, _, _, _, _, _, h9⟩, _⟩ := exec_effect i s t h hw; exact h9
  | some a => obtain ⟨u, _, rfl⟩ := exec_waits i s t a h hw; rfl

end Sys2Proof.Machine
end

