-- ==== Sys2Proof/Laws/PerInstr.lean ====
section
/-!
SUPPORT. Statements about every instruction as syntax, one lemma per constructor.  `EncodedLength`: an encoding has 1 to 5 bytes
(R90).
-/

namespace Sys2Proof.Laws.EncodedLength

def Statement (i : Instr) : Prop := 1 ≤ (encode i).length ∧ (encode i).length ≤ maxLength

theorem encodeIdx_length (i : Idx) : 1 ≤ (encodeIdx i).length ∧ (encodeIdx i).length ≤ 3 := by
  cases i <;> exact ⟨Nat.le_of_ble_eq_true rfl, Nat.le_of_ble_eq_true rfl⟩

theorem encodeEa_length (d i e : Byte) (ea : Ea) : 2 ≤ (encodeEa d i e ea).length ∧ (encodeEa d i e ea).length ≤ 4 := by
  cases ea with
  | dir | ext => exact ⟨Nat.le_of_ble_eq_true rfl, Nat.le_of_ble_eq_true rfl⟩
  | idx x =>
    have := encodeIdx_length x
    simp only [encodeEa, List.length_cons]
    omega

theorem encodeSrc8_length (m d i e : Byte) (src : Src8) :
    2 ≤ (encodeSrc8 m d i e src).length ∧ (encodeSrc8 m d i e src).length ≤ 4 := by
  cases src with
  | imm => exact ⟨Nat.le_of_ble_eq_true rfl, Nat.le_of_ble_eq_true rfl⟩
  | mem ea => exact encodeEa_length d i e ea

theorem encodeSrc16_length (m d i e : Byte) (src : Src16) :
    2 ≤ (encodeSrc16 m d i e src).length ∧ (encodeSrc16 m d i e src).length ≤ 4 := by
  cases src with
  | imm => exact ⟨Nat.le_of_ble_eq_true rfl, Nat.le_of_ble_eq_true rfl⟩
  | mem ea => exact encodeEa_length d i e ea

theorem of_tail {i : Instr} {l : List Byte} {b : Byte} (h : encode i = b :: l) (hl : 1 ≤ l.length ∧ l.length ≤ 4) : Statement i := by
  have hm : maxLength = 5 := rfl
  simp only [Statement, h, List.length_cons, hm]
  omega

theorem of_bytes {i : Instr} (h : 2 ≤ (encode i).length ∧ (encode i).length ≤ 4) : Statement i :=
  ⟨by omega, Nat.le_trans h.2 (by decide)⟩

theorem widen {l : List Byte} (h : 2 ≤ l.length ∧ l.length ≤ 4) : 1 ≤ l.length ∧ l.length ≤ 4 := ⟨by omega, h.2⟩

theorem lda (src : Src8) : Statement (.lda src) := of_bytes (encodeSrc8_length ..)

theorem ldb (src : Src8) : Statement (.ldb src) := of_bytes (encodeSrc8_length ..)

theorem ldd (src : Src16) : Statement (.ldd src) := of_bytes (encodeSrc16_length ..)

theorem ldx (src : Src16) : Statement (.ldx src) := of_bytes (encodeSrc16_length ..)

theorem ldy (src : Src16) : Statement (.ldy src) := of_tail rfl (widen (encodeSrc16_length ..))

theorem ldu (src : Src16) : Statement (.ldu src) := of_bytes (encodeSrc16_length ..)

theorem lds (src : Src16) : Statement (.lds src) := of_tail rfl (widen (encodeSrc16_length ..))

theorem sta (ea : Ea) : Statement (.sta ea) := of_bytes (encodeEa_length ..)

theorem stb (ea : Ea) : Statement (.stb ea) := of_bytes (encodeEa_length ..)

theorem std (ea : Ea) : Statement (.std ea) := of_bytes (encodeEa_length ..)

theorem stx (ea : Ea) : Statement (.stx ea) := of_bytes (encodeEa_length ..)

theorem sty (ea : Ea) : Statement (.sty ea) := of_tail rfl (widen (encodeEa_length ..))

theorem stu (ea : Ea) : Statement (.stu ea) := of_bytes (encodeEa_length ..)

theorem sts (ea : Ea) : Statement (.sts ea) := of_tail rfl (widen (encodeEa_length ..))

theorem leax (idx : Idx) : Statement (.leax idx) := of_tail rfl ⟨(encodeIdx_length _).1, Nat.le_trans (encodeIdx_length _).2 (by decide)⟩

theorem leay (idx : Idx) : Statement (.leay idx) := of_tail rfl ⟨(encodeIdx_length _).1, Nat.le_trans (encodeIdx_length _).2 (by decide)⟩

theorem leas (idx : Idx) : Statement (.leas idx) := of_tail rfl ⟨(encodeIdx_length _).1, Nat.le_trans (encodeIdx_length _).2 (by decide)⟩

theorem leau (idx : Idx) : Statement (.leau idx) := of_tail rfl ⟨(encodeIdx_length _).1, Nat.le_trans (encodeIdx_length _).2 (by decide)⟩

theorem clr (ea : Ea) : Statement (.clr ea) := of_bytes (encodeEa_length ..)

theorem clra : Statement .clra := ⟨Nat.le_of_ble_eq_true rfl, Nat.le_of_ble_eq_true rfl⟩

theorem clrb : Statement .clrb := ⟨Nat.le_of_ble_eq_true rfl, Nat.le_of_ble_eq_true rfl⟩

theorem adda (src : Src8) : Statement (.adda src) := of_bytes (encodeSrc8_length ..)

theorem addb (src : Src8) : Statement (.addb src) := of_bytes (encodeSrc8_length ..)

theorem addd (src : Src16) : Statement (.addd src) := of_bytes (encodeSrc16_length ..)

theorem adca (src : Src8) : Statement (.adca src) := of_bytes (encodeSrc8_length ..)

theorem adcb (src : Src8) : Statement (.adcb src) := of_bytes (encodeSrc8_length ..)

theorem suba (src : Src8) : Statement (.suba src) := of_bytes (encodeSrc8_length ..)

theorem subb (src : Src8) : Statement (.subb src) := of_bytes (encodeSrc8_length ..)

theorem subd (src : Src16) : Statement (.subd src) := of_bytes (encodeSrc16_length ..)

theorem sbca (src : Src8) : Statement (.sbca src) := of_bytes (encodeSrc8_length ..)

theorem sbcb (src : Src8) : Statement (.sbcb src) := of_bytes (encodeSrc8_length ..)

theorem cmpa (src : Src8) : Statement (.cmpa src) := of_bytes (encodeSrc8_length ..)

theorem cmpb (src : Src8) : Statement (.cmpb src) := of_bytes (encodeSrc8_length ..)

theorem cmpd (src : Src16) : Statement (.cmpd src) := of_tail rfl (widen (encodeSrc16_length ..))

theorem cmpx (src : Src16) : Statement (.cmpx src) := of_bytes (encodeSrc16_length ..)

theorem cmpy (src : Src16) : Statement (.cmpy src) := of_tail rfl (widen (encodeSrc16_length ..))

theorem cmpu (src : Src16) : Statement (.cmpu src) := of_tail rfl (widen (encodeSrc16_length ..))

theorem cmps (src : Src16) : Statement (.cmps src) := of_tail rfl (widen (encodeSrc16_length ..))

theorem neg (ea : Ea) : Statement (.neg ea) := of_bytes (encodeEa_length ..)

theorem nega : Statement .nega := ⟨Nat.le_of_ble_eq_true rfl, Nat.le_of_ble_eq_true rfl⟩

theorem negb : Statement .negb := ⟨Nat.le_of_ble_eq_true rfl, Nat.le_of_ble_eq_true rfl⟩

theorem inc (ea : Ea) : Statement (.inc ea) := of_bytes (encodeEa_length ..)

theorem inca : Statement .inca := ⟨Nat.le_of_ble_eq_true rfl, Nat.le_of_ble_eq_true rfl⟩

theorem incb : Statement .incb := ⟨Nat.le_of_ble_eq_true rfl, Nat.le_of_ble_eq_true rfl⟩

theorem dec (ea : Ea) : Statement (.dec ea) := of_bytes (encodeEa_length ..)

theorem deca : Statement .deca := ⟨Nat.le_of_ble_eq_true rfl, Nat.le_of_ble_eq_true rfl⟩

theorem decb : Statement .decb := ⟨Nat.le_of_ble_eq_true rfl, Nat.le_of_ble_eq_true rfl⟩

theorem tst (ea : Ea) : Statement (.tst ea) := of_bytes (encodeEa_length ..)

theorem tsta : Statement .tsta := ⟨Nat.le_of_ble_eq_true rfl, Nat.le_of_ble_eq_true rfl⟩

theorem tstb : Statement .tstb := ⟨Nat.le_of_ble_eq_true rfl, Nat.le_of_ble_eq_true rfl⟩

theorem mul : Statement .mul := ⟨Nat.le_of_ble_eq_true rfl, Nat.le_of_ble_eq_true rfl⟩

theorem sex : Statement .sex := ⟨Nat.le_of_ble_eq_true rfl, Nat.le_of_ble_eq_true rfl⟩

theorem daa : Statement .daa := ⟨Nat.le_of_ble_eq_true rfl, Nat.le_of_ble_eq_true rfl⟩

theorem abx : Statement .abx := ⟨Nat.le_of_ble_eq_true rfl, Nat.le_of_ble_eq_true rfl⟩

theorem anda (src : Src8) : Statement (.anda src) := of_bytes (encodeSrc8_length ..)

theorem andb (src : Src8) : Statement (.andb src) := of_bytes (encodeSrc8_length ..)

theorem ora (src : Src8) : Statement (.ora src) := of_bytes (encodeSrc8_length ..)

theorem orb (src : Src8) : Statement (.orb src) := of_bytes (encodeSrc8_length ..)

theorem eora (src : Src8) : Statement (.eora src) := of_bytes (encodeSrc8_length ..)

theorem eorb (src : Src8) : Statement (.eorb src) := of_bytes (encodeSrc8_length ..)

theorem bita (src : Src8) : Statement (.bita src) := of_bytes (encodeSrc8_length ..)

theorem bitb (src : Src8) : Statement (.bitb src) := of_bytes (encodeSrc8_length ..)

theorem com (ea : Ea) : Statement (.com ea) := of_bytes (encodeEa_length ..)

theorem coma : Statement .coma := ⟨Nat.le_of_ble_eq_true rfl, Nat.le_of_ble_eq_true rfl⟩

theorem comb : Statement .comb := ⟨Nat.le_of_ble_eq_true rfl, Nat.le_of_ble_eq_true rfl⟩

theorem orcc (imm : Byte) : Statement (.orcc imm) := ⟨Nat.le_of_ble_eq_true rfl, Nat.le_of_ble_eq_true rfl⟩

theorem andcc (imm : Byte) : Statement (.andcc imm) := ⟨Nat.le_of_ble_eq_true rfl, Nat.le_of_ble_eq_true rfl⟩

theorem asl (ea : Ea) : Statement (.asl ea) := of_bytes (encodeEa_length ..)

theorem asla : Statement .asla := ⟨Nat.le_of_ble_eq_true rfl, Nat.le_of_ble_eq_true rfl⟩

theorem aslb : Statement .aslb := ⟨Nat.le_of_ble_eq_true rfl, Nat.le_of_ble_eq_true rfl⟩

theorem asr (ea : Ea) : Statement (.asr ea) := of_bytes (encodeEa_length ..)

theorem asra : Statement .asra := ⟨Nat.le_of_ble_eq_true rfl, Nat.le_of_ble_eq_true rfl⟩

theorem asrb : Statement .asrb := ⟨Nat.le_of_ble_eq_true rfl, Nat.le_of_ble_eq_true rfl⟩

theorem lsr (ea : Ea) : Statement (.lsr ea) := of_bytes (encodeEa_length ..)

theorem lsra : Statement .lsra := ⟨Nat.le_of_ble_eq_true rfl, Nat.le_of_ble_eq_true rfl⟩

theorem lsrb : Statement .lsrb := ⟨Nat.le_of_ble_eq_true rfl, Nat.le_of_ble_eq_true rfl⟩

theorem rol (ea : Ea) : Statement (.rol ea) := of_bytes (encodeEa_length ..)

theorem rola : Statement .rola := ⟨Nat.le_of_ble_eq_true rfl, Nat.le_of_ble_eq_true rfl⟩

theorem rolb : Statement .rolb := ⟨Nat.le_of_ble_eq_true rfl, Nat.le_of_ble_eq_true rfl⟩

theorem ror (ea : Ea) : Statement (.ror ea) := of_bytes (encodeEa_length ..)

theorem rora : Statement .rora := ⟨Nat.le_of_ble_eq_true rfl, Nat.le_of_ble_eq_true rfl⟩

theorem rorb : Statement .rorb := ⟨Nat.le_of_ble_eq_true rfl, Nat.le_of_ble_eq_true rfl⟩

theorem bra (offset : Byte) : Statement (.bra offset) := ⟨Nat.le_of_ble_eq_true rfl, Nat.le_of_ble_eq_true rfl⟩

theorem brn (offset : Byte) : Statement (.brn offset) := ⟨Nat.le_of_ble_eq_true rfl, Nat.le_of_ble_eq_true rfl⟩

theorem bhi (offset : Byte) : Statement (.bhi offset) := ⟨Nat.le_of_ble_eq_true rfl, Nat.le_of_ble_eq_true rfl⟩

theorem bls (offset : Byte) : Statement (.bls offset) := ⟨Nat.le_of_ble_eq_true rfl, Nat.le_of_ble_eq_true rfl⟩

theorem bcc (offset : Byte) : Statement (.bcc offset) := ⟨Nat.le_of_ble_eq_true rfl, Nat.le_of_ble_eq_true rfl⟩

theorem bcs (offset : Byte) : Statement (.bcs offset) := ⟨Nat.le_of_ble_eq_true rfl, Nat.le_of_ble_eq_true rfl⟩

theorem bne (offset : Byte) : Statement (.bne offset) := ⟨Nat.le_of_ble_eq_true rfl, Nat.le_of_ble_eq_true rfl⟩

theorem beq (offset : Byte) : Statement (.beq offset) := ⟨Nat.le_of_ble_eq_true rfl, Nat.le_of_ble_eq_true rfl⟩

theorem bvc (offset : Byte) : Statement (.bvc offset) := ⟨Nat.le_of_ble_eq_true rfl, Nat.le_of_ble_eq_true rfl⟩

theorem bvs (offset : Byte) : Statement (.bvs offset) := ⟨Nat.le_of_ble_eq_true rfl, Nat.le_of_ble_eq_true rfl⟩

theorem bpl (offset : Byte) : Statement (.bpl offset) := ⟨Nat.le_of_ble_eq_true rfl, Nat.le_of_ble_eq_true rfl⟩

theorem bmi (offset : Byte) : Statement (.bmi offset) := ⟨Nat.le_of_ble_eq_true rfl, Nat.le_of_ble_eq_true rfl⟩

theorem bge (offset : Byte) : Statement (.bge offset) := ⟨Nat.le_of_ble_eq_true rfl, Nat.le_of_ble_eq_true rfl⟩

theorem blt (offset : Byte) : Statement (.blt offset) := ⟨Nat.le_of_ble_eq_true rfl, Nat.le_of_ble_eq_true rfl⟩

theorem bgt (offset : Byte) : Statement (.bgt offset) := ⟨Nat.le_of_ble_eq_true rfl, Nat.le_of_ble_eq_true rfl⟩

theorem ble (offset : Byte) : Statement (.ble offset) := ⟨Nat.le_of_ble_eq_true rfl, Nat.le_of_ble_eq_true rfl⟩

theorem bsr (offset : Byte) : Statement (.bsr offset) := ⟨Nat.le_of_ble_eq_true rfl, Nat.le_of_ble_eq_true rfl⟩

theorem lbra (offset : Word) : Statement (.lbra offset) := ⟨Nat.le_of_ble_eq_true rfl, Nat.le_of_ble_eq_true rfl⟩

theorem lbrn (offset : Word) : Statement (.lbrn offset) := ⟨Nat.le_of_ble_eq_true rfl, Nat.le_of_ble_eq_true rfl⟩

theorem lbhi (offset : Word) : Statement (.lbhi offset) := ⟨Nat.le_of_ble_eq_true rfl, Nat.le_of_ble_eq_true rfl⟩

theorem lbls (offset : Word) : Statement (.lbls offset) := ⟨Nat.le_of_ble_eq_true rfl, Nat.le_of_ble_eq_true rfl⟩

theorem lbcc (offset : Word) : Statement (.lbcc offset) := ⟨Nat.le_of_ble_eq_true rfl, Nat.le_of_ble_eq_true rfl⟩

theorem lbcs (offset : Word) : Statement (.lbcs offset) := ⟨Nat.le_of_ble_eq_true rfl, Nat.le_of_ble_eq_true rfl⟩

theorem lbne (offset : Word) : Statement (.lbne offset) := ⟨Nat.le_of_ble_eq_true rfl, Nat.le_of_ble_eq_true rfl⟩

theorem lbeq (offset : Word) : Statement (.lbeq offset) := ⟨Nat.le_of_ble_eq_true rfl, Nat.le_of_ble_eq_true rfl⟩

theorem lbvc (offset : Word) : Statement (.lbvc offset) := ⟨Nat.le_of_ble_eq_true rfl, Nat.le_of_ble_eq_true rfl⟩

theorem lbvs (offset : Word) : Statement (.lbvs offset) := ⟨Nat.le_of_ble_eq_true rfl, Nat.le_of_ble_eq_true rfl⟩

theorem lbpl (offset : Word) : Statement (.lbpl offset) := ⟨Nat.le_of_ble_eq_true rfl, Nat.le_of_ble_eq_true rfl⟩

theorem lbmi (offset : Word) : Statement (.lbmi offset) := ⟨Nat.le_of_ble_eq_true rfl, Nat.le_of_ble_eq_true rfl⟩

theorem lbge (offset : Word) : Statement (.lbge offset) := ⟨Nat.le_of_ble_eq_true rfl, Nat.le_of_ble_eq_true rfl⟩

theorem lblt (offset : Word) : Statement (.lblt offset) := ⟨Nat.le_of_ble_eq_true rfl, Nat.le_of_ble_eq_true rfl⟩

theorem lbgt (offset : Word) : Statement (.lbgt offset) := ⟨Nat.le_of_ble_eq_true rfl, Nat.le_of_ble_eq_true rfl⟩

theorem lble (offset : Word) : Statement (.lble offset) := ⟨Nat.le_of_ble_eq_true rfl, Nat.le_of_ble_eq_true rfl⟩

theorem lbsr (offset : Word) : Statement (.lbsr offset) := ⟨Nat.le_of_ble_eq_true rfl, Nat.le_of_ble_eq_true rfl⟩

theorem jmp (ea : Ea) : Statement (.jmp ea) := of_bytes (encodeEa_length ..)

theorem jsr (ea : Ea) : Statement (.jsr ea) := of_bytes (encodeEa_length ..)

theorem rts : Statement .rts := ⟨Nat.le_of_ble_eq_true rfl, Nat.le_of_ble_eq_true rfl⟩

theorem pshs (mask : StackMask) : Statement (.pshs mask) := ⟨Nat.le_of_ble_eq_true rfl, Nat.le_of_ble_eq_true rfl⟩

theorem puls (mask : StackMask) : Statement (.puls mask) := ⟨Nat.le_of_ble_eq_true rfl, Nat.le_of_ble_eq_true rfl⟩

theorem pshu (mask : StackMask) : Statement (.pshu mask) := ⟨Nat.le_of_ble_eq_true rfl, Nat.le_of_ble_eq_true rfl⟩

theorem pulu (mask : StackMask) : Statement (.pulu mask) := ⟨Nat.le_of_ble_eq_true rfl, Nat.le_of_ble_eq_true rfl⟩

theorem tfr (pair : RegPair) : Statement (.tfr pair) := ⟨Nat.le_of_ble_eq_true rfl, Nat.le_of_ble_eq_true rfl⟩

theorem exg (pair : RegPair) : Statement (.exg pair) := ⟨Nat.le_of_ble_eq_true rfl, Nat.le_of_ble_eq_true rfl⟩

theorem swi : Statement .swi := ⟨Nat.le_of_ble_eq_true rfl, Nat.le_of_ble_eq_true rfl⟩

theorem swi2 : Statement .swi2 := ⟨Nat.le_of_ble_eq_true rfl, Nat.le_of_ble_eq_true rfl⟩

theorem swi3 : Statement .swi3 := ⟨Nat.le_of_ble_eq_true rfl, Nat.le_of_ble_eq_true rfl⟩

theorem rti : Statement .rti := ⟨Nat.le_of_ble_eq_true rfl, Nat.le_of_ble_eq_true rfl⟩

theorem cwai (imm : Byte) : Statement (.cwai imm) := ⟨Nat.le_of_ble_eq_true rfl, Nat.le_of_ble_eq_true rfl⟩

theorem sync : Statement .sync := ⟨Nat.le_of_ble_eq_true rfl, Nat.le_of_ble_eq_true rfl⟩

theorem nop : Statement .nop := ⟨Nat.le_of_ble_eq_true rfl, Nat.le_of_ble_eq_true rfl⟩

theorem page2 : Statement .page2 := ⟨Nat.le_of_ble_eq_true rfl, Nat.le_of_ble_eq_true rfl⟩

theorem page3 : Statement .page3 := ⟨Nat.le_of_ble_eq_true rfl, Nat.le_of_ble_eq_true rfl⟩

theorem invalid (page : Page) (opcode : Byte) : Statement (.invalid page opcode) := by
  cases page <;> exact ⟨Nat.le_of_ble_eq_true rfl, Nat.le_of_ble_eq_true rfl⟩

end Sys2Proof.Laws.EncodedLength
end

