-- ==== Sys2Proof/Laws/Stacks.lean ====
section
/-!
SUPPORT. The stacks: a push of masked registers is the push of its image, pulls one after the other are one pull, and everything
that entering an exception leaves.
-/

namespace Sys2Proof.Machine

/-! ## Pushing registers -/

/-- R355: the order of the pushes is that of the image, from its end. -/
theorem pushMask_eq_pushImage (sp other : Reg16) (m : StackMask) (s : State) :
    pushMask sp other m s = pushImage sp (stackImage other m s.regs) s := by
  unfold pushMask stackImage
  simp only [pushImage_append]
  rcases m with ⟨m1, m2, m3, m4, m5, m6, m7, m8⟩
  cases m1 <;> cases m2 <;> cases m3 <;> cases m4 <;> cases m5 <;> cases m6 <;> cases m7 <;> cases m8 <;> rfl

theorem stackImage_length (other : Reg16) (m : StackMask) (r : Regs) : (stackImage other m r).length = maskBytes m := by
  rcases m with ⟨m1, m2, m3, m4, m5, m6, m7, m8⟩
  simp only [stackImage, List.length_append, maskBytes]
  cases m1 <;> cases m2 <;> cases m3 <;> cases m4 <;> cases m5 <;> cases m6 <;> cases m7 <;> cases m8 <;> rfl

theorem maskBytes_le (m : StackMask) : maskBytes m ≤ 12 := by
  rcases m with ⟨m1, m2, m3, m4, m5, m6, m7, m8⟩
  have := m1.toNat_le
  have := m2.toNat_le
  have := m3.toNat_le
  have := m4.toNat_le
  have := m5.toNat_le
  have := m6.toNat_le
  have := m7.toNat_le
  have := m8.toNat_le
  simp only [maskBytes]
  omega

/-! ## Pulling in sequence -/

theorem readCalls_append (a : Word) (bs cs : List Byte) :
    readCalls a (bs ++ cs) = readCalls a bs ++ readCalls (a + BitVec.ofNat 16 bs.length) cs := by
  induction bs generalizing a with
  | nil => simp [readCalls]
  | cons b bs ih =>
    simp only [List.cons_append, readCalls, ih, List.length_cons]
    rw [show a + BitVec.ofNat 16 (bs.length + 1) = a + 1#16 + BitVec.ofNat 16 bs.length by
      rw [BitVec.add_assoc, ← BitVec.ofNat_add, Nat.add_comm bs.length 1]]

/-- `t` is `s` after these bytes are pulled, and the registers are those of `s` changed by `f`. -/
def Pulls (sp : Reg16) (bs : List Byte) (f : Regs → Regs) (s t : State) : Prop :=
  t.regs = f s.regs ∧ t.get16 sp = s.get16 sp + BitVec.ofNat 16 bs.length ∧ t.mem = s.mem ∧
  t.bus = (readCalls (s.get16 sp) bs).reverse ++ s.bus ∧ SameControl s t

theorem Pulls.refl (sp : Reg16) (s : State) : Pulls sp [] id s s :=
  ⟨rfl, by simp, rfl, rfl, SameControl.refl s⟩

theorem Pulls.trans {sp : Reg16} {bs cs : List Byte} {f g : Regs → Regs} {s t u : State} (h : Pulls sp bs f s t)
    (k : Pulls sp cs g t u) : Pulls sp (bs ++ cs) (g ∘ f) s u := by
  obtain ⟨h1, h2, h3, h4, h5⟩ := h
  obtain ⟨k1, k2, k3, k4, k5⟩ := k
  refine ⟨by rw [k1, h1]; rfl, ?_, k3.trans h3, ?_, h5.trans k5⟩
  · rw [k2, h2, List.length_append, BitVec.ofNat_add, BitVec.add_assoc]
  · rw [k4, h4, readCalls_append, h2, List.reverse_append, List.append_assoc]

/-- The bytes after those pulled are next. -/
theorem Pulls.holds {sp : Reg16} {bs cs : List Byte} {f : Regs → Regs} {s t : State} (h : Pulls sp bs f s t)
    (hb : HoldsBytes s (s.get16 sp) (bs ++ cs)) : HoldsBytes t (t.get16 sp) cs := by
  obtain ⟨_, h2, h3, _, _⟩ := h
  rw [h2]
  exact HoldsBytes.congr (sameMemory_of_mem h3) (HoldsBytes.append.1 hb).2

theorem pullReg8_pulls {sp : Reg16} {r : Reg8} {s : State} {b : Byte} {cs : List Byte} (hsp : sp = .s ∨ sp = .u)
    (h : HoldsBytes s (s.get16 sp) ([b] ++ cs)) :
    Pulls sp [b] (fun q => (q.set16 sp (q.get16 sp + 1#16)).set8 r b) s (pullReg8 sp r s) := by
  obtain ⟨h1, _, h3, h4, h5, h6⟩ := pullReg8_spec (r := r) h hsp
  exact ⟨h1, h3, h4, h5, h6⟩

theorem pullReg16_pulls {sp r : Reg16} {s : State} {w : Word} {cs : List Byte} (hsp : sp = .s ∨ sp = .u) (hr : r ≠ sp)
    (h : HoldsBytes s (s.get16 sp) (wordBytes w ++ cs)) :
    Pulls sp (wordBytes w) (fun q => (q.set16 sp (q.get16 sp + 2#16)).set16 r w) s (pullReg16 sp r s) := by
  obtain ⟨h1, _, h3, h4, h5, h6⟩ := pullReg16_spec (r := r) h hsp hr
  exact ⟨h1, h3, h4, h5, h6⟩

/-! ## Entering an exception -/

/-- R430 to R433, R383, R436: everything that taking an exception does. -/
theorem enterException_spec (full masks : Bool) (vector : Word) (s : State) :
  Entered full masks vector s (enterException full masks vector s) ∧ SameControl s (enterException full masks vector s) := by
  unfold enterException
  simp only
  generalize hs1 : s.setFlag .e full = s1
  let frame := if full then frameAll s1.regs else frameFast s1.regs
  have hst : (if full then stackAll s1 else stackFast s1) = pushImage .s frame s1 := by
    cases full <;> rfl
  rw [hst]
  obtain ⟨a,b,c,d,e,f⟩ := pushImage_spec (sp := .s) (.inl rfl) frame (by cases full <;> first | exact (by decide : 12 < 65536) | exact (by decide : 3 < 65536)) s1
  generalize hs2 : pushImage .s frame s1 = s2 at a b c d e
  have hreg : s1.regs = { s.regs with cc := Flag.e.put full s.regs.cc } := by rw [← hs1]; rfl
  have hmem1 : s1.mem = s.mem := by rw [← hs1]; rfl
  have hbus1 : s1.bus = s.bus := by rw [← hs1]; rfl
  have hctl1 : SameControl s s1 := by rw [← hs1]; exact SameControl.refl s
  have hS : s2.get16 .s = s2.regs.s := rfl
  rw [hS] at b c d
  have hframe : frame = if full then frameAll { s.regs with cc := Flag.e.put full s.regs.cc } else frameFast { s.regs with cc := Flag.e.put full s.regs.cc } := by
    show (if full then frameAll s1.regs else frameFast s1.regs) = _; rw [hreg]
  constructor
  · cases masks
    · simp only [Bool.false_eq_true, if_false, vectorFetch_spec, Entered]
      rw [← hframe]
      refine ⟨?_, ?_, ?_, rfl, ?_, by simp, ?_, ?_, ?_, ?_, ?_, ?_, ?_, ?_⟩
      · show s2.regs.s = _
        rw [a, hreg]; show s1.get16 .s - _ = _; rw [State.get16, hreg]; rfl
      · refine HoldsBytes.congr ?_ b; exact fun _ => rfl
      · intro x hx; exact (c x hx).trans (byteAt_of_mem hmem1 x)
      · show Flag.e.get s2.regs.cc = true ↔ _
        rw [a, hreg]; show Flag.e.get (Flag.e.put full s.regs.cc) = true ↔ _; simp
      · intro k hk; simp at hk
        show k.get s2.regs.cc = _
        rw [a, hreg]; show k.get (Flag.e.put full s.regs.cc) = _; simp [hk]; rfl
      · show s2.regs.a = _; rw [a, hreg]; rfl
      · show s2.regs.b = _; rw [a, hreg]; rfl
      · show s2.regs.dp = _; rw [a, hreg]; rfl
      · show s2.regs.x = _; rw [a, hreg]; rfl
      · show s2.regs.y = _; rw [a, hreg]; rfl
      · show s2.regs.u = _; rw [a, hreg]; rfl
      · show _ :: _ :: s2.bus = _
        rw [d, hbus1]; rfl
    · simp only [if_true, vectorFetch_spec, setMasks_spec, Entered]
      rw [← hframe]
      refine ⟨?_, ?_, ?_, rfl, ?_, fun _ => ⟨?_, ?_⟩, ?_, ?_, ?_, ?_, ?_, ?_, ?_, ?_⟩
      · show s2.regs.s = _
        rw [a, hreg]; show s1.get16 .s - _ = _; rw [State.get16, hreg]; rfl
      · refine HoldsBytes.congr ?_ b; exact fun _ => rfl
      · intro x hx; exact (c x hx).trans (byteAt_of_mem hmem1 x)
      · show Flag.e.get (Flag.f.put true (Flag.i.put true s2.regs.cc)) = true ↔ _
        rw [a, hreg]; simp [set16_cc]
      · show Flag.i.get (Flag.f.put true (Flag.i.put true s2.regs.cc)) = true
        simp
      · show Flag.f.get (Flag.f.put true (Flag.i.put true s2.regs.cc)) = true
        simp
      · intro k hk; simp at hk
        show k.get (Flag.f.put true (Flag.i.put true s2.regs.cc)) = _
        rw [a, hreg]; simp [hk]; show k.get (Flag.e.put full s.regs.cc) = _; simp [hk]; rfl
      · show s2.regs.a = _; rw [a, hreg]; rfl
      · show s2.regs.b = _; rw [a, hreg]; rfl
      · show s2.regs.dp = _; rw [a, hreg]; rfl
      · show s2.regs.x = _; rw [a, hreg]; rfl
      · show s2.regs.y = _; rw [a, hreg]; rfl
      · show s2.regs.u = _; rw [a, hreg]; rfl
      · show _ :: _ :: s2.bus = _
        rw [d, hbus1]; rfl
  · cases masks
    · exact hctl1.trans e
    · exact hctl1.trans e

end Sys2Proof.Machine
end

