-- ==== Sys2Proof/Laws/Step.lean ====
section
/-!
SUPPORT. Time and the dispatcher: what cycles change, and what the start of a `Step` call can do.
-/

namespace Sys2Proof.Machine

/-! ## Cycles -/

theorem tick_eq (s : State) :
    tick s = { s with cycles := s.cycles + 1, lines := (tick s).lines, inputs := (tick s).inputs } := by
  unfold tick
  split <;> simp_all

/-- Passing cycles change the cycle total and the lines, nothing else. -/
theorem ticks_eq (n : Nat) (s : State) :
    ticks n s = { s with cycles := s.cycles + n, lines := (ticks n s).lines, inputs := (ticks n s).inputs } := by
  induction n generalizing s with
  | zero => rfl
  | succ n ih =>
    show ticks n (tick s) = _
    rw [ih (tick s), tick_eq s]
    simp only [ticks, Nat.add_assoc, Nat.add_comm 1 n, ← tick_eq]

theorem ticks_succ_last (n : Nat) (s : State) : ticks (n + 1) s = tick (ticks n s) := by
  induction n generalizing s with
  | zero => rfl
  | succ n ih => exact ih (tick s)

/-- R44: the levels a number of cycles later depend on nothing but the levels and the stream. -/
theorem ticks_lines_of (s t : State) (hl : t.lines = s.lines) (hi : t.inputs = s.inputs) (n : Nat) :
    (ticks n t).lines = (ticks n s).lines ∧ (ticks n t).inputs = (ticks n s).inputs := by
  induction n generalizing s t with
  | zero => exact ⟨hl, hi⟩
  | succ n ih =>
    apply ih
    · simp only [tick, hi]; split <;> simp [hl]
    · simp only [tick, hi]; split <;> simp_all

/-- The ticked state with other fields replaced is the replaced state ticked. -/
theorem tick_clocks (s : State) (due : Nat) (used : Byte) :
    tick { s with clocksDue := due, clocksUsed := used } = { tick s with clocksDue := due, clocksUsed := used } := by
  obtain ⟨_, _, _, _, _, _, _, _, _, inputs, _, _, _⟩ := s
  cases inputs <;> rfl

/-- With nothing due a step is one idle cycle. -/
theorem runOut_idle {s : State} (h : s.clocksDue = 0) : runOut s = tick s := by simp only [runOut, h]

/-- R97, R98: what the end of a sequence of `n` cycles leaves. -/
theorem runOut_due {s : State} {n : Nat} (h : s.clocksDue = n + 1) :
    runOut s =
      { s with
        active := s.resume
        page := .p0
        resume := .none
        clocksDue := 0
        clocksUsed := if s.resume = .none then 255#8 else s.clocksUsed + BitVec.ofNat 8 (n + 1)
        cycles := s.cycles + (n + 1)
        lines := (ticks (n + 1) s).lines
        inputs := (ticks (n + 1) s).inputs } := by
  simp only [runOut, h, retire]
  rw [ticks_eq]

/-! ## Starting -/

theorem fetch8_eq (s : State) :
    fetch8 s =
      { s with
        regs := { s.regs with pc := s.regs.pc + 1#16 }
        bus := .read s.regs.pc false (s.byteAt s.regs.pc) :: s.bus } := rfl

theorem effect_fetchBytes (n : Nat) (s : State) : Effect s (fetchBytes n s) := by
  induction n generalizing s with
  | zero => exact Effect.refl s
  | succ n ih => exact ((effect_read8 _ s).trans (effect_set16 _ .pc _)).trans (ih _)

/-- Every instruction has a meaning that runs. -/
theorem exec_next (i : Instr) (s : State) : ∃ t, exec i s = .next t := by
  cases i <;> exact ⟨_, rfl⟩

/-- What `beginSequence` and `exec` keep of a state: the lines, the time, the scratch registers. -/
def KeepsTime (s t : State) : Prop :=
  t.scratch = s.scratch ∧ t.offset = s.offset ∧ t.lines = s.lines ∧ t.inputs = s.inputs ∧ t.cycles = s.cycles

/-- Memory keeps its canonical form and the record of the bus grows by plain calls. -/
def KeepsBus (s t : State) : Prop :=
  (s.mem.wf = true → t.mem.wf = true) ∧ ∃ calls, t.bus = calls ++ s.bus ∧ ∀ c ∈ calls, PlainCall c

theorem Effect.keeps {s t : State} (h : Effect s t) : KeepsTime s t ∧ KeepsBus s t := by
  obtain ⟨⟨_, _, _, h4, h5, h6, h7, h8, _⟩, h9⟩ := h
  exact ⟨⟨h4, h5, h6, h7, h8⟩, h9⟩

theorem keeps_of_effect {s t u : State} (h : Effect s t) (hr : u.scratch = t.scratch ∧ u.offset = t.offset ∧
    u.lines = t.lines ∧ u.inputs = t.inputs ∧ u.cycles = t.cycles ∧ u.mem = t.mem ∧ u.bus = t.bus) :
    KeepsTime s u ∧ KeepsBus s u := by
  obtain ⟨⟨k1, k2, k3, k4, k5⟩, kw, kb⟩ := h.keeps
  obtain ⟨r1, r2, r3, r4, r5, r6, r7⟩ := hr
  exact ⟨⟨r1.trans k1, r2.trans k2, r3.trans k3, r4.trans k4, r5.trans k5⟩, by rw [r6]; exact kw, by rw [r7]; exact kb⟩

theorem exec_keeps {i : Instr} {s t : State} (h : exec i s = .next t) : KeepsTime s t ∧ KeepsBus s t := by
  cases hw : waitOf i with
  | none => exact (exec_effect i s t h hw).keeps
  | some a => obtain ⟨u, hu, rfl⟩ := exec_waits i s t a h hw; exact keeps_of_effect hu ⟨rfl, rfl, rfl, rfl, rfl, rfl, rfl⟩

theorem startException_keeps (kind : ExcKind) (s : State) :
    KeepsTime s (startException kind s) ∧ KeepsBus s (startException kind s) :=
  keeps_of_effect (effect_sequence kind s) ⟨rfl, rfl, rfl, rfl, rfl, rfl, rfl⟩

/-- Starting an instruction: the fetch, the meaning, and the cycles due. -/
theorem startInstruction_spec (s : State) :
    ∃ t, exec (decodeAt s).instr (fetched (decodeAt s) s) = .next t ∧
      startInstruction s = .next { t with clocksDue := instrCycles (decodeAt s) (fetched (decodeAt s) s) t } ∧
      KeepsTime s t ∧ KeepsBus s t := by
  obtain ⟨t, ht⟩ := exec_next (decodeAt s).instr (fetched (decodeAt s) s)
  refine ⟨t, ht, by simp only [startInstruction, ht], ?_⟩
  have hf : Effect s (fetchBytes (decodeAt s).length s) := effect_fetchBytes _ s
  have h := keeps_of_effect (u := fetched (decodeAt s) s) hf ⟨rfl, rfl, rfl, rfl, rfl, rfl, rfl⟩
  have g := exec_keeps ht
  obtain ⟨⟨h1, h2, h3, h4, h5⟩, hw, cs, hc, hp⟩ := h
  obtain ⟨⟨g1, g2, g3, g4, g5⟩, gw, ds, gc, gp⟩ := g
  refine ⟨⟨g1.trans h1, g2.trans h2, g3.trans h3, g4.trans h4, g5.trans h5⟩, gw ∘ hw, ds ++ cs,
    by rw [gc, hc, List.append_assoc], ?_⟩
  intro c hcm
  rcases List.mem_append.1 hcm with m | m
  · exact gp c m
  · exact hp c m

theorem keeps_refl (s : State) : KeepsTime s s ∧ KeepsBus s s := (Effect.refl s).keeps

theorem cwaiWaitCycle_keeps (s : State) : KeepsTime s (cwaiWaitCycle s) ∧ KeepsBus s (cwaiWaitCycle s) := by
  unfold cwaiWaitCycle
  split
  · exact startException_keeps .reset s
  iterate 3 · exact keeps_of_effect (effect_leaveCwai _ s) ⟨rfl, rfl, rfl, rfl, rfl, rfl, rfl⟩
  · exact keeps_refl s

theorem syncWaitCycle_keeps (s : State) : KeepsTime s (syncWaitCycle s) ∧ KeepsBus s (syncWaitCycle s) := by
  unfold syncWaitCycle
  split
  · exact startException_keeps .reset s
  · split
    · exact keeps_of_effect (Effect.refl s) ⟨rfl, rfl, rfl, rfl, rfl, rfl, rfl⟩
    · exact keeps_refl s

/-- Whatever a `Step` call starts, it answers a next state, at the same time, with the same lines. -/
theorem running_spec (s : State) : ∃ t, running s = .next t ∧ KeepsTime s t ∧ KeepsBus s t := by
  unfold running
  split
  · unfold beginSequence
    split
    · unfold boundaryCheck
      split
      · exact ⟨s, rfl, keeps_refl s⟩
      · split
        · exact ⟨_, rfl, startException_keeps _ s⟩
        · obtain ⟨t, _, h, k1, k2⟩ := startInstruction_spec s
          exact ⟨_, h, k1, k2⟩
    · exact ⟨_, rfl, keeps_refl s⟩
    · exact ⟨_, rfl, keeps_refl s⟩
    · exact ⟨_, rfl, cwaiWaitCycle_keeps s⟩
    · exact ⟨_, rfl, syncWaitCycle_keeps s⟩
  · exact ⟨s, rfl, keeps_refl s⟩

theorem step_of_running {s t : State} (h : running s = .next t) : step s = .next (runOut t) := by
  simp only [step, atomicStep, h]

theorem clockStep_of_running {s t : State} (h : running s = .next t) : clockStep s = .next (advance t) := by
  simp only [clockStep, h]

end Sys2Proof.Machine
end

