-- ==== Sys2Proof/Laws/Unary.lean ====
section
/-!
SUPPORT. What each operation on one operand computes, on numbers: the result, the flags it puts, and the flags it leaves.
-/

namespace Sys2Proof.Machine

/-- N and Z of a result and V cleared (R184, R250, R228). -/
theorem nzv8_spec (r cc : Byte) :
    (Flag.n.get (nzv8 r cc) = true ↔ r.toInt < 0) ∧ (Flag.z.get (nzv8 r cc) = true ↔ r.toNat = 0) ∧
    Flag.v.get (nzv8 r cc) = false ∧ (∀ k : Flag, k ∉ [Flag.n, .z, .v] → k.get (nzv8 r cc) = k.get cc) := by
  refine ⟨?_, ?_, ?_, ?_⟩
  · simp only [nzv8, Flag.get_put, reduceCtorEq, if_false]; exact nz8_n _ _
  · simp only [nzv8, Flag.get_put, reduceCtorEq, if_false]; exact nz8_z _ _
  · simp only [nzv8, Flag.get_put, if_true]
  · intro k hk
    simp only [List.mem_cons, List.not_mem_nil, or_false, not_or] at hk
    simp only [nzv8, Flag.get_put, hk, if_false, nz8_other _ _ hk.1 hk.2.1]

/-- The same of a word (R184). -/
theorem nzv16_spec (r : Word) (cc : Byte) :
    (Flag.n.get (nzv16 r cc) = true ↔ r.toInt < 0) ∧ (Flag.z.get (nzv16 r cc) = true ↔ r.toNat = 0) ∧
    Flag.v.get (nzv16 r cc) = false ∧ (∀ k : Flag, k ∉ [Flag.n, .z, .v] → k.get (nzv16 r cc) = k.get cc) := by
  refine ⟨?_, ?_, ?_, ?_⟩
  · simp only [nzv16, Flag.get_put, reduceCtorEq, if_false]; exact nz16_n _ _
  · simp only [nzv16, Flag.get_put, reduceCtorEq, if_false]; exact nz16_z _ _
  · simp only [nzv16, Flag.get_put, if_true]
  · intro k hk
    simp only [List.mem_cons, List.not_mem_nil, or_false, not_or] at hk
    simp only [nzv16, Flag.get_put, hk, if_false, nz16_other _ _ hk.1 hk.2.1]

/-- R219 -/
theorem negOp_spec (m cc : Byte) :
    (negOp m cc).1.toNat = (256 - m.toNat) % 256 ∧
    (Flag.n.get (negOp m cc).2 = true ↔ (negOp m cc).1.toInt < 0) ∧
    (Flag.z.get (negOp m cc).2 = true ↔ (negOp m cc).1.toNat = 0) ∧
    (Flag.v.get (negOp m cc).2 = true ↔ m.toNat = 128) ∧ (Flag.c.get (negOp m cc).2 = true ↔ m.toNat ≠ 0) ∧
    (∀ k : Flag, k ∉ [Flag.n, .z, .v, .c] → k.get (negOp m cc).2 = k.get cc) := by
  have hm := m.isLt
  obtain ⟨h1, h2, h3, h4, h5, h6⟩ := sub8_spec 0x00#8 m false cc
  refine ⟨?_, h2, h3, h5.trans ?_, h4.trans ?_, h6⟩
  · rw [negOp, h1, BitVec.toNat_ofInt]; simp; omega
  · rw [byte_toInt m]; simp; split <;> omega
  · simp; omega

/-- R222 -/
theorem incOp_spec (m cc : Byte) :
    (incOp m cc).1.toNat = (m.toNat + 1) % 256 ∧
    (Flag.n.get (incOp m cc).2 = true ↔ (incOp m cc).1.toInt < 0) ∧
    (Flag.z.get (incOp m cc).2 = true ↔ (incOp m cc).1.toNat = 0) ∧
    (Flag.v.get (incOp m cc).2 = true ↔ m.toNat = 127) ∧
    (∀ k : Flag, k ∉ [Flag.n, .z, .v] → k.get (incOp m cc).2 = k.get cc) := by
  refine ⟨?_, ?_, ?_, ?_, ?_⟩
  · simp [incOp]
  · simp only [incOp, Flag.get_put, reduceCtorEq, if_false]; exact nz8_n _ _
  · simp only [incOp, Flag.get_put, reduceCtorEq, if_false]; exact nz8_z _ _
  · simp only [incOp, Flag.get_put, if_true, beq_iff_eq]
    exact ⟨fun h => by rw [h]; rfl, fun h => BitVec.eq_of_toNat_eq h⟩
  · intro k hk
    simp only [List.mem_cons, List.not_mem_nil, or_false, not_or] at hk
    simp only [incOp, Flag.get_put, hk, if_false, nz8_other _ _ hk.1 hk.2.1]

/-- R225 -/
theorem decOp_spec (m cc : Byte) :
    (decOp m cc).1.toNat = (m.toNat + 255) % 256 ∧
    (Flag.n.get (decOp m cc).2 = true ↔ (decOp m cc).1.toInt < 0) ∧
    (Flag.z.get (decOp m cc).2 = true ↔ (decOp m cc).1.toNat = 0) ∧
    (Flag.v.get (decOp m cc).2 = true ↔ m.toNat = 128) ∧
    (∀ k : Flag, k ∉ [Flag.n, .z, .v] → k.get (decOp m cc).2 = k.get cc) := by
  have hm := m.isLt
  refine ⟨?_, ?_, ?_, ?_, ?_⟩
  · simp only [decOp, BitVec.toNat_sub, BitVec.toNat_ofNat]; omega
  · simp only [decOp, Flag.get_put, reduceCtorEq, if_false]; exact nz8_n _ _
  · simp only [decOp, Flag.get_put, reduceCtorEq, if_false]; exact nz8_z _ _
  · simp only [decOp, Flag.get_put, if_true, beq_iff_eq]
    exact ⟨fun h => by rw [h]; rfl, fun h => BitVec.eq_of_toNat_eq h⟩
  · intro k hk
    simp only [List.mem_cons, List.not_mem_nil, or_false, not_or] at hk
    simp only [decOp, Flag.get_put, hk, if_false, nz8_other _ _ hk.1 hk.2.1]

/-- R190 -/
theorem clrOp_spec (m cc : Byte) :
    (clrOp m cc).1 = 0x00#8 ∧ Flag.n.get (clrOp m cc).2 = false ∧ Flag.z.get (clrOp m cc).2 = true ∧
    Flag.v.get (clrOp m cc).2 = false ∧ Flag.c.get (clrOp m cc).2 = false ∧
    (∀ k : Flag, k ∉ [Flag.n, .z, .v, .c] → k.get (clrOp m cc).2 = k.get cc) := by
  refine ⟨rfl, ?_, ?_, ?_, ?_, ?_⟩
  · simp [clrOp]
  · simp [clrOp]
  · simp [clrOp]
  · simp [clrOp]
  · intro k hk
    simp only [List.mem_cons, List.not_mem_nil, or_false, not_or] at hk
    simp only [clrOp, Flag.get_put, hk, if_false]

/-- R255 -/
theorem comOp_spec (m cc : Byte) :
    (comOp m cc).1.toNat = 255 - m.toNat ∧
    (Flag.n.get (comOp m cc).2 = true ↔ (comOp m cc).1.toInt < 0) ∧
    (Flag.z.get (comOp m cc).2 = true ↔ (comOp m cc).1.toNat = 0) ∧
    Flag.v.get (comOp m cc).2 = false ∧ Flag.c.get (comOp m cc).2 = true ∧
    (∀ k : Flag, k ∉ [Flag.n, .z, .v, .c] → k.get (comOp m cc).2 = k.get cc) := by
  obtain ⟨h1, h2, h3, h4⟩ := nzv8_spec (~~~m) cc
  refine ⟨by simp [comOp, BitVec.toNat_not], ?_, ?_, ?_, ?_, ?_⟩
  · simpa only [comOp, Flag.get_put, reduceCtorEq, if_false] using h1
  · simpa only [comOp, Flag.get_put, reduceCtorEq, if_false] using h2
  · simpa only [comOp, Flag.get_put, reduceCtorEq, if_false] using h3
  · simp only [comOp, Flag.get_put, if_true]
  · intro k hk
    simp only [List.mem_cons, List.not_mem_nil, or_false, not_or] at hk
    simp only [comOp, Flag.get_put, hk, if_false]
    exact h4 k (by simp [hk])

/-! ## Shifts -/

theorem byte_bit6 (v : Byte) : v.getLsbD 6 = decide (v.toNat / 64 % 2 = 1) := by
  rw [BitVec.getLsbD, Nat.testBit_eq_decide_div_mod_eq]

theorem byte_bit0_iff (v : Byte) : v.getLsbD 0 = true ↔ v.toNat % 2 = 1 := by
  rw [BitVec.getLsbD, Nat.testBit_eq_decide_div_mod_eq, decide_eq_true_eq, pow_zero, Nat.div_one]

theorem byte_bit7_iff (v : Byte) : v.getLsbD 7 = true ↔ 128 ≤ v.toNat := by rw [byte_sign, decide_eq_true_eq]

/-- R280: bits 7 and 6 differ exactly when doubling leaves the signed range. -/
theorem shift_overflow (m : Byte) :
    (m.getLsbD 7 ^^ m.getLsbD 6) = true ↔ ¬ (-128 ≤ 2 * m.toInt ∧ 2 * m.toInt ≤ 127) := by
  have hm := m.isLt
  rw [byte_sign, byte_bit6, byte_toInt]
  by_cases h : 128 ≤ m.toNat <;> by_cases g : m.toNat / 64 % 2 = 1 <;> simp [h, g] <;> split <;> omega

/-- A left shift with a bit brought in. -/
theorem shl_or_toNat (m : Byte) (c : Bool) :
    ((m <<< 1) ||| (if c then 0x01#8 else 0x00#8)).toNat = (2 * m.toNat + c.toNat) % 256 := by
  have e : (m <<< 1) ||| (if c then 0x01#8 else 0x00#8) = (m <<< 1) + (if c then 0x01#8 else 0x00#8) := by
    rw [BitVec.add_eq_or_of_and_eq_zero]
    cases c <;> apply BitVec.eq_of_getLsbD_eq <;> intro i hi <;> (interval_cases i <;> simp)
  have hm := m.isLt
  rw [e, BitVec.toNat_add, BitVec.toNat_shiftLeft, Nat.shiftLeft_eq]
  cases c <;> simp <;> omega

/-- A right shift with a bit brought in. -/
theorem shr_or_toNat (m : Byte) (c : Bool) :
    ((m >>> 1) ||| (if c then 0x80#8 else 0x00#8)).toNat = m.toNat / 2 + 128 * c.toNat := by
  have e : (m >>> 1) ||| (if c then 0x80#8 else 0x00#8) = (m >>> 1) + (if c then 0x80#8 else 0x00#8) := by
    rw [BitVec.add_eq_or_of_and_eq_zero]
    cases c <;> apply BitVec.eq_of_getLsbD_eq <;> intro i hi <;> (interval_cases i <;> simp)
  have hm := m.isLt
  rw [e, BitVec.toNat_add, BitVec.toNat_ushiftRight, Nat.shiftRight_eq_div_pow]
  cases c <;> simp <;> omega

theorem keep_sign (m : Byte) : m &&& 0x80#8 = if m.getLsbD 7 then 0x80#8 else 0x00#8 := by
  apply BitVec.eq_of_getLsbD_eq
  intro i hi
  cases h : m.getLsbD 7 <;> rw [BitVec.getLsbD_eq_getElem (by omega)] at h <;> interval_cases i <;> simp [h]

/-- R280 -/
theorem aslOp_spec (m cc : Byte) :
    (aslOp m cc).1.toNat = 2 * m.toNat % 256 ∧
    (Flag.n.get (aslOp m cc).2 = true ↔ (aslOp m cc).1.toInt < 0) ∧
    (Flag.z.get (aslOp m cc).2 = true ↔ (aslOp m cc).1.toNat = 0) ∧
    (Flag.c.get (aslOp m cc).2 = true ↔ 128 ≤ m.toNat) ∧
    (Flag.v.get (aslOp m cc).2 = true ↔ ¬ (-128 ≤ 2 * m.toInt ∧ 2 * m.toInt ≤ 127)) ∧
    (∀ k : Flag, k ∉ [Flag.n, .z, .v, .c] → k.get (aslOp m cc).2 = k.get cc) := by
  refine ⟨?_, ?_, ?_, ?_, ?_, ?_⟩
  · simpa [aslOp] using shl_or_toNat m false
  · simp only [aslOp, Flag.get_put, reduceCtorEq, if_false]; exact nz8_n _ _
  · simp only [aslOp, Flag.get_put, reduceCtorEq, if_false]; exact nz8_z _ _
  · simp only [aslOp, Flag.get_put, reduceCtorEq, if_false, if_true]; exact byte_bit7_iff m
  · simp only [aslOp, Flag.get_put, if_true]; exact shift_overflow m
  · intro k hk
    simp only [List.mem_cons, List.not_mem_nil, or_false, not_or] at hk
    simp only [aslOp, Flag.get_put, hk, if_false, nz8_other _ _ hk.1 hk.2.1]

/-- R283 -/
theorem asrOp_spec (m cc : Byte) :
    (asrOp m cc).1.toInt = m.toInt / 2 ∧
    (Flag.n.get (asrOp m cc).2 = true ↔ (asrOp m cc).1.toInt < 0) ∧
    (Flag.z.get (asrOp m cc).2 = true ↔ (asrOp m cc).1.toNat = 0) ∧
    (Flag.c.get (asrOp m cc).2 = true ↔ m.toNat % 2 = 1) ∧
    (∀ k : Flag, k ∉ [Flag.n, .z, .c] → k.get (asrOp m cc).2 = k.get cc) := by
  refine ⟨?_, ?_, ?_, ?_, ?_⟩
  · have hm := m.isLt
    have h := shr_or_toNat m (m.getLsbD 7)
    rw [← keep_sign, byte_sign] at h
    simp only [asrOp]
    rw [byte_toInt, byte_toInt m, h]
    by_cases g : 128 ≤ m.toNat
    · simp only [g, decide_true, Bool.toNat_true]; split <;> split <;> omega
    · simp only [g, decide_false, Bool.toNat_false]; split <;> split <;> omega
  · simp only [asrOp, Flag.get_put, reduceCtorEq, if_false]; exact nz8_n _ _
  · simp only [asrOp, Flag.get_put, reduceCtorEq, if_false]; exact nz8_z _ _
  · simp only [asrOp, Flag.get_put, if_true]; exact byte_bit0_iff m
  · intro k hk
    simp only [List.mem_cons, List.not_mem_nil, or_false, not_or] at hk
    simp only [asrOp, Flag.get_put, hk, if_false, nz8_other _ _ hk.1 hk.2.1]

/-- R286 -/
theorem lsrOp_spec (m cc : Byte) :
    (lsrOp m cc).1.toNat = m.toNat / 2 ∧
    (Flag.n.get (lsrOp m cc).2 = true ↔ (lsrOp m cc).1.toInt < 0) ∧
    (Flag.z.get (lsrOp m cc).2 = true ↔ (lsrOp m cc).1.toNat = 0) ∧
    (Flag.c.get (lsrOp m cc).2 = true ↔ m.toNat % 2 = 1) ∧
    (∀ k : Flag, k ∉ [Flag.n, .z, .c] → k.get (lsrOp m cc).2 = k.get cc) := by
  refine ⟨?_, ?_, ?_, ?_, ?_⟩
  · simpa [lsrOp] using shr_or_toNat m false
  · simp only [lsrOp, Flag.get_put, reduceCtorEq, if_false]; exact nz8_n _ _
  · simp only [lsrOp, Flag.get_put, reduceCtorEq, if_false]; exact nz8_z _ _
  · simp only [lsrOp, Flag.get_put, if_true]; exact byte_bit0_iff m
  · intro k hk
    simp only [List.mem_cons, List.not_mem_nil, or_false, not_or] at hk
    simp only [lsrOp, Flag.get_put, hk, if_false, nz8_other _ _ hk.1 hk.2.1]

/-- R289 -/
theorem rolOp_spec (m cc : Byte) :
    (rolOp m cc).1.toNat = (2 * m.toNat + (Flag.c.get cc).toNat) % 256 ∧
    (Flag.n.get (rolOp m cc).2 = true ↔ (rolOp m cc).1.toInt < 0) ∧
    (Flag.z.get (rolOp m cc).2 = true ↔ (rolOp m cc).1.toNat = 0) ∧
    (Flag.c.get (rolOp m cc).2 = true ↔ 128 ≤ m.toNat) ∧
    (Flag.v.get (rolOp m cc).2 = true ↔ ¬ (-128 ≤ 2 * m.toInt ∧ 2 * m.toInt ≤ 127)) ∧
    (∀ k : Flag, k ∉ [Flag.n, .z, .v, .c] → k.get (rolOp m cc).2 = k.get cc) := by
  refine ⟨?_, ?_, ?_, ?_, ?_, ?_⟩
  · exact shl_or_toNat m _
  · simp only [rolOp, Flag.get_put, reduceCtorEq, if_false]; exact nz8_n _ _
  · simp only [rolOp, Flag.get_put, reduceCtorEq, if_false]; exact nz8_z _ _
  · simp only [rolOp, Flag.get_put, reduceCtorEq, if_false, if_true]; exact byte_bit7_iff m
  · simp only [rolOp, Flag.get_put, if_true]; exact shift_overflow m
  · intro k hk
    simp only [List.mem_cons, List.not_mem_nil, or_false, not_or] at hk
    simp only [rolOp, Flag.get_put, hk, if_false, nz8_other _ _ hk.1 hk.2.1]

/-- R292 -/
theorem rorOp_spec (m cc : Byte) :
    (rorOp m cc).1.toNat = m.toNat / 2 + 128 * (Flag.c.get cc).toNat ∧
    (Flag.n.get (rorOp m cc).2 = true ↔ (rorOp m cc).1.toInt < 0) ∧
    (Flag.z.get (rorOp m cc).2 = true ↔ (rorOp m cc).1.toNat = 0) ∧
    (Flag.c.get (rorOp m cc).2 = true ↔ m.toNat % 2 = 1) ∧
    (∀ k : Flag, k ∉ [Flag.n, .z, .c] → k.get (rorOp m cc).2 = k.get cc) := by
  refine ⟨?_, ?_, ?_, ?_, ?_⟩
  · exact shr_or_toNat m _
  · simp only [rorOp, Flag.get_put, reduceCtorEq, if_false]; exact nz8_n _ _
  · simp only [rorOp, Flag.get_put, reduceCtorEq, if_false]; exact nz8_z _ _
  · simp only [rorOp, Flag.get_put, if_true]; exact byte_bit0_iff m
  · intro k hk
    simp only [List.mem_cons, List.not_mem_nil, or_false, not_or] at hk
    simp only [rorOp, Flag.get_put, hk, if_false, nz8_other _ _ hk.1 hk.2.1]

end Sys2Proof.Machine
end

