-- ==== Sys2Proof/Laws/Window.lean ====
section
/-!
SUPPORT. The bytes at `PC`, the instruction that starts there, and the cycles a step of it takes.
-/

namespace Sys2Proof.Machine

/-! ## Bytes in memory -/

theorem bytesFrom_append (s : State) (m n : Nat) (a : Word) :
    bytesFrom s (m + n) a = bytesFrom s m a ++ bytesFrom s n (a + BitVec.ofNat 16 m) := by
  induction m generalizing a with
  | zero => simp [bytesFrom]
  | succ m ih =>
    rw [Nat.succ_add]
    simp only [bytesFrom, ih, List.cons_append]
    rw [BitVec.add_assoc, ← BitVec.ofNat_add, Nat.add_comm 1 m]

theorem bytesFrom_getD (s : State) {n k : Nat} (a : Word) (h : k < n) :
    (bytesFrom s n a).getD k 0x00#8 = s.byteAt (a + BitVec.ofNat 16 k) := by
  induction n generalizing a k with
  | zero => omega
  | succ n ih =>
    cases k with
    | zero => simp [bytesFrom]
    | succ k =>
      simp only [bytesFrom, List.getD_cons_succ]
      rw [ih _ (by omega), BitVec.add_assoc, ← BitVec.ofNat_add, Nat.add_comm 1 k]

theorem HoldsBytes.eq_bytesFrom {s : State} {a : Word} {bs : List Byte} (h : HoldsBytes s a bs) : bs = bytesFrom s bs.length a := by
  induction bs generalizing a with
  | nil => rfl
  | cons b bs ih =>
    obtain ⟨hb, hs⟩ := h
    simp only [List.length_cons, bytesFrom, hb]
    rw [← ih hs]

/-! ## The window at `PC` -/

/-- The instruction that starts a list of bytes, with zeros after it. -/
def windowOf (l : List Byte) : Decoded :=
  decodeWindow (l.getD 0 0x00#8) (l.getD 1 0x00#8) (l.getD 2 0x00#8) (l.getD 3 0x00#8) (l.getD 4 0x00#8)

theorem decodeAt_eq_windowOf (s : State) {n : Nat} (h : 5 ≤ n) : decodeAt s = windowOf (bytesFrom s n s.regs.pc) := by
  unfold windowOf
  rw [bytesFrom_getD, bytesFrom_getD, bytesFrom_getD, bytesFrom_getD, bytesFrom_getD] <;> first | rfl | omega

/-- R90, R93: the bytes that memory holds at `PC` begin the window. -/
theorem decodeAt_of_holds {s : State} {bs : List Byte} (h : HoldsBytes s s.regs.pc bs) :
    decodeAt s = windowOf (bs ++ bytesFrom s 5 (s.regs.pc + BitVec.ofNat 16 bs.length)) := by
  rw [decodeAt_eq_windowOf s (n := bs.length + 5) (by omega), bytesFrom_append, ← h.eq_bytesFrom]

/-! ## A step that runs an instruction -/

/-- R421: at a boundary at which nothing is requested the `Step` call starts the instruction at `PC`. -/
theorem running_of_noRequest {s : State} (hb : AtBoundary s) (hn : NoRequest s) : running s = startInstruction s := by
  obtain ⟨ha, hd⟩ := hb
  obtain ⟨h1, h2, h3, h4, h5⟩ := hn
  have hq : requested s.lines (s.get8 .cc) = none := by
    unfold requested
    rw [h2, h3]
    cases hf : s.lines.firq <;> cases hi : s.lines.irq <;> simp_all
  simp only [running, hd, if_true, beginSequence, ha, boundaryCheck, h1, hq, Bool.false_eq_true, if_false]

/-- R97: the cycles a step takes are those of the instruction at `PC`, and it leaves the block where the meaning goes on to. -/
theorem step_takes {s t : State} {n : Nat} (hb : AtBoundary s) (hn : NoRequest s)
    (ht : exec (decodeAt s).instr (fetched (decodeAt s) s) = .next t)
    (hc : instrCycles (decodeAt s) (fetched (decodeAt s) s) t = n + 1) :
    ∃ u, step s = .next u ∧ u.cycles = s.cycles + (n + 1) ∧ u.active = (waitOf (decodeAt s).instr).getD .none := by
  obtain ⟨t', ht', hs, ⟨_, _, _, _, hk⟩, _⟩ := startInstruction_spec s
  obtain rfl : t' = t := by rw [ht] at ht'; cases ht'; rfl
  refine ⟨_, step_of_running ((running_of_noRequest hb hn).trans hs), ?_⟩
  rw [runOut_due (n := n) hc]
  exact ⟨congrArg (· + (n + 1)) hk, exec_resume _ _ _ ht⟩

theorem fetched_cc (d : Decoded) (s : State) : (fetched d s).get8 .cc = s.get8 .cc := by
  have h : ∀ (n : Nat) (s : State), (fetchBytes n s).regs.cc = s.regs.cc := by
    intro n
    induction n with
    | zero => exact fun _ => rfl
    | succ n ih => exact fun s => (ih _).trans rfl
  exact h _ s

/-- How to show a cycle count: the entry and instruction that the encoding gives whatever follows it, then the count of R501. -/
theorem takesCycles_of {s : State} {i j : Instr} {page : Page} {opcode : Byte} {k n : Nat} {a : Active} (hb : AtBoundary s)
    (hn : NoRequest s) (hd : i.wf = true → ∀ rest, windowOf (encode i ++ rest) = ⟨page, opcode, j, k⟩)
    (hw : (waitOf j).getD .none = a) (hpos : 0 < n)
    (hc : ∀ t, exec j (fetched ⟨page, opcode, j, k⟩ s) = .next t →
      (opTable page opcode).cycles + extraCycles j (s.get8 .cc) (t.get8 .cc) - exitCycles a = n) : TakesCycles s i n a := by
  intro hwf hh
  have hat : decodeAt s = ⟨page, opcode, j, k⟩ := (decodeAt_of_holds hh).trans (hd hwf _)
  obtain ⟨t, ht⟩ := exec_next j (fetched ⟨page, opcode, j, k⟩ s)
  obtain ⟨m, rfl⟩ : ∃ m, n = m + 1 := ⟨n - 1, by omega⟩
  have hr : t.resume = a := (exec_resume _ _ _ ht).trans hw
  have hcy : instrCycles ⟨page, opcode, j, k⟩ (fetched ⟨page, opcode, j, k⟩ s) t = m + 1 := by
    simp only [instrCycles, hr, fetched_cc]
    exact hc t ht
  obtain ⟨u, hu, h1, h2⟩ := step_takes (n := m) hb hn (by rw [hat]; exact ht) (by rw [hat]; exact hcy)
  refine ⟨u, hu, h1, h2.trans ?_⟩
  rw [hat]
  exact hw

end Sys2Proof.Machine
end

