-- ==== Sys2Proof/Tests/Slice0.lean ====
section
/-!
SUPPORT. The model's own tests: which terms are refused as ill-formed, what written-out bytes decode to, single steps against the
rows of `95_test_vectors.md`, and for each statement with hypotheses a concrete state and operands that meet them.
-/

namespace Sys2Proof.Tests

open Sys2Proof.Machine

/-! ## Well-formedness -/

/-- R155: a post-byte that has a meaning is not the illegal form, and `$9F` is extended indirect (R152). -/
theorem test_wf_refuses_a_legal_post_byte :
    (Idx.illegal 0x84#8).wf = false ∧ (Ea.idx (.illegal 0x9F#8)).wf = false ∧ (Src8.mem (.idx (.illegal 0x12#8))).wf = false ∧
    (Src16.mem (.idx (.illegal 0x80#8))).wf = false ∧ (Instr.lda (.mem (.idx (.illegal 0x91#8)))).wf = false ∧
    (Instr.ldx (.mem (.idx (.illegal 0x91#8)))).wf = false ∧ (Instr.sta (.idx (.illegal 0x8D#8))).wf = false ∧
    (Instr.leax (.illegal 0xBC#8)).wf = false := by decide

/-- R106: a code that names a register is not an unassigned code. -/
theorem test_wf_refuses_an_assigned_code :
    (RegCode.unassigned 0b0000#4).wf = false ∧ (RegCode.unassigned 0b1011#4).wf = false ∧
    (RegPair.mk (.r16 .d) (.unassigned 0b0101#4)).wf = false ∧ (Instr.tfr ⟨.unassigned 0b1000#4, .r8 .a⟩).wf = false ∧
    (Instr.exg ⟨.r8 .a, .unassigned 0b0100#4⟩).wf = false := by decide

/-- R103: a documented entry is not an invalid opcode, and neither is a page selection byte of page 0 (R94). -/
theorem test_wf_refuses_a_documented_entry :
    (Instr.invalid .p0 0x86#8).wf = false ∧ (Instr.invalid .p0 0x10#8).wf = false ∧ (Instr.invalid .p1 0x8E#8).wf = false ∧
    (Instr.invalid .p2 0x3F#8).wf = false := by decide

/-- R94: a page selection byte alone is no instruction. -/
theorem test_wf_refuses_a_bare_page_byte : Instr.page2.wf = false ∧ Instr.page3.wf = false := by decide

/-- R103: how many entries of each page are invalid. -/
theorem test_invalid_entry_counts :
    invalidPage0.length = 33 ∧ 256 - documentedPage1.length = 218 ∧ 256 - documentedPage2.length = 247 := by decide

/-- R155: "39". -/
theorem test_illegal_post_byte_count :
    ((List.range 256).filter fun n => isIllegalPostByte (BitVec.ofNat 8 n)).length = 39 := by decide

/-! ## Decoding -/

/-- The bytes are exactly that instruction. -/
def reads (bytes : List Byte) (i : Instr) : Bool :=
  match decode bytes with
  | .ok r => decide (r.1 = i) && r.2.isEmpty
  | .error _ => false

def readAll (rows : List (List Byte × Instr)) : Bool := rows.all fun r => reads r.1 r.2

/-- `30_encoding.md` R100 to R107, `41_data_movement.md`. -/
theorem test_decode_data_movement_1 : readAll [
    ([0x0F#8, 0x10#8], .clr (.dir 0x10#8)),
    ([0x30#8, 0x84#8], .leax (.zero .x false)),
    ([0x31#8, 0x1F#8], .leay (.off5 .x 0x1F#5)),
    ([0x32#8, 0xA0#8], .leas (.inc1 .y)),
    ([0x33#8, 0xC1#8], .leau (.inc2 .u false)),
    ([0x4F#8], .clra),
    ([0x5F#8], .clrb),
    ([0x6F#8, 0x84#8], .clr (.idx (.zero .x false))),
    ([0x7F#8, 0x20#8, 0x01#8], .clr (.ext 0x2001#16)),
    ([0x86#8, 0x2A#8], .lda (.imm 0x2A#8)),
    ([0x8E#8, 0x12#8, 0x34#8], .ldx (.imm 0x1234#16)),
    ([0x96#8, 0x10#8], .lda (.mem (.dir 0x10#8))),
    ([0x97#8, 0x10#8], .sta (.dir 0x10#8)),
    ([0x9E#8, 0x10#8], .ldx (.mem (.dir 0x10#8))),
    ([0x9F#8, 0x10#8], .stx (.dir 0x10#8)),
    ([0xA6#8, 0xC6#8], .lda (.mem (.idx (.accA .u false)))),
    ([0xA7#8, 0xEB#8], .sta (.idx (.accD .s false))),
    ([0xAE#8, 0x84#8], .ldx (.mem (.idx (.zero .x false)))),
    ([0xAF#8, 0x1F#8], .stx (.idx (.off5 .x 0x1F#5))),
    ([0xB6#8, 0x20#8, 0x01#8], .lda (.mem (.ext 0x2001#16))),
    ([0xB7#8, 0x20#8, 0x01#8], .sta (.ext 0x2001#16)),
    ([0xBE#8, 0x20#8, 0x01#8], .ldx (.mem (.ext 0x2001#16))),
    ([0xBF#8, 0x20#8, 0x01#8], .stx (.ext 0x2001#16)),
    ([0xC6#8, 0x2A#8], .ldb (.imm 0x2A#8)),
    ([0xCC#8, 0x12#8, 0x34#8], .ldd (.imm 0x1234#16)),
    ([0xCE#8, 0x12#8, 0x34#8], .ldu (.imm 0x1234#16)),
    ([0xD6#8, 0x10#8], .ldb (.mem (.dir 0x10#8))),
    ([0xD7#8, 0x10#8], .stb (.dir 0x10#8)),
    ([0xDC#8, 0x10#8], .ldd (.mem (.dir 0x10#8))),
    ([0xDD#8, 0x10#8], .std (.dir 0x10#8)),
    ([0xDE#8, 0x10#8], .ldu (.mem (.dir 0x10#8))),
    ([0xDF#8, 0x10#8], .stu (.dir 0x10#8)),
    ([0xE6#8, 0xEB#8], .ldb (.mem (.idx (.accD .s false)))),
    ([0xE7#8, 0x98#8, 0x80#8], .stb (.idx (.off8 .x true 0x80#8))),
    ([0xEC#8, 0x97#8], .ldd (.mem (.idx (.illegal 0x97#8)))),
    ([0xED#8, 0x84#8], .std (.idx (.zero .x false)))] = true := by decide

/-- `30_encoding.md` R100 to R107, `41_data_movement.md`. -/
theorem test_decode_data_movement_2 : readAll [
    ([0xEE#8, 0x1F#8], .ldu (.mem (.idx (.off5 .x 0x1F#5)))),
    ([0xEF#8, 0xA0#8], .stu (.idx (.inc1 .y))),
    ([0xF6#8, 0x20#8, 0x01#8], .ldb (.mem (.ext 0x2001#16))),
    ([0xF7#8, 0x20#8, 0x01#8], .stb (.ext 0x2001#16)),
    ([0xFC#8, 0x20#8, 0x01#8], .ldd (.mem (.ext 0x2001#16))),
    ([0xFD#8, 0x20#8, 0x01#8], .std (.ext 0x2001#16)),
    ([0xFE#8, 0x20#8, 0x01#8], .ldu (.mem (.ext 0x2001#16))),
    ([0xFF#8, 0x20#8, 0x01#8], .stu (.ext 0x2001#16)),
    ([0x10#8, 0x8E#8, 0x12#8, 0x34#8], .ldy (.imm 0x1234#16)),
    ([0x10#8, 0x9E#8, 0x10#8], .ldy (.mem (.dir 0x10#8))),
    ([0x10#8, 0x9F#8, 0x10#8], .sty (.dir 0x10#8)),
    ([0x10#8, 0xAE#8, 0x93#8], .ldy (.mem (.idx (.dec2 .x true)))),
    ([0x10#8, 0xAF#8, 0xB5#8], .sty (.idx (.accB .y true))),
    ([0x10#8, 0xBE#8, 0x20#8, 0x01#8], .ldy (.mem (.ext 0x2001#16))),
    ([0x10#8, 0xBF#8, 0x20#8, 0x01#8], .sty (.ext 0x2001#16)),
    ([0x10#8, 0xCE#8, 0x12#8, 0x34#8], .lds (.imm 0x1234#16)),
    ([0x10#8, 0xDE#8, 0x10#8], .lds (.mem (.dir 0x10#8))),
    ([0x10#8, 0xDF#8, 0x10#8], .sts (.dir 0x10#8)),
    ([0x10#8, 0xEE#8, 0xC6#8], .lds (.mem (.idx (.accA .u false)))),
    ([0x10#8, 0xEF#8, 0xEB#8], .sts (.idx (.accD .s false))),
    ([0x10#8, 0xFE#8, 0x20#8, 0x01#8], .lds (.mem (.ext 0x2001#16))),
    ([0x10#8, 0xFF#8, 0x20#8, 0x01#8], .sts (.ext 0x2001#16))] = true := by decide

/-- `30_encoding.md` R100 to R107, `42_arithmetic.md`. -/
theorem test_decode_arithmetic_1 : readAll [
    ([0x00#8, 0x10#8], .neg (.dir 0x10#8)),
    ([0x0A#8, 0x10#8], .dec (.dir 0x10#8)),
    ([0x0C#8, 0x10#8], .inc (.dir 0x10#8)),
    ([0x0D#8, 0x10#8], .tst (.dir 0x10#8)),
    ([0x19#8], .daa),
    ([0x1D#8], .sex),
    ([0x3A#8], .abx),
    ([0x3D#8], .mul),
    ([0x40#8], .nega),
    ([0x4A#8], .deca),
    ([0x4C#8], .inca),
    ([0x4D#8], .tsta),
    ([0x50#8], .negb),
    ([0x5A#8], .decb),
    ([0x5C#8], .incb),
    ([0x5D#8], .tstb),
    ([0x60#8, 0xE2#8], .neg (.idx (.dec1 .s))),
    ([0x6A#8, 0x8C#8, 0xFE#8], .dec (.idx (.pcr8 0b00#2 false 0xFE#8))),
    ([0x6C#8, 0xBD#8, 0x12#8, 0x34#8], .inc (.idx (.pcr16 0b01#2 true 0x1234#16))),
    ([0x6D#8, 0x9F#8, 0x12#8, 0x34#8], .tst (.idx (.extInd 0x1234#16))),
    ([0x70#8, 0x20#8, 0x01#8], .neg (.ext 0x2001#16)),
    ([0x7A#8, 0x20#8, 0x01#8], .dec (.ext 0x2001#16)),
    ([0x7C#8, 0x20#8, 0x01#8], .inc (.ext 0x2001#16)),
    ([0x7D#8, 0x20#8, 0x01#8], .tst (.ext 0x2001#16)),
    ([0x80#8, 0x2A#8], .suba (.imm 0x2A#8)),
    ([0x81#8, 0x2A#8], .cmpa (.imm 0x2A#8)),
    ([0x82#8, 0x2A#8], .sbca (.imm 0x2A#8)),
    ([0x83#8, 0x12#8, 0x34#8], .subd (.imm 0x1234#16)),
    ([0x89#8, 0x2A#8], .adca (.imm 0x2A#8)),
    ([0x8B#8, 0x2A#8], .adda (.imm 0x2A#8)),
    ([0x8C#8, 0x12#8, 0x34#8], .cmpx (.imm 0x1234#16)),
    ([0x90#8, 0x10#8], .suba (.mem (.dir 0x10#8))),
    ([0x91#8, 0x10#8], .cmpa (.mem (.dir 0x10#8))),
    ([0x92#8, 0x10#8], .sbca (.mem (.dir 0x10#8))),
    ([0x93#8, 0x10#8], .subd (.mem (.dir 0x10#8))),
    ([0x99#8, 0x10#8], .adca (.mem (.dir 0x10#8)))] = true := by decide

/-- `30_encoding.md` R100 to R107, `42_arithmetic.md`. -/
theorem test_decode_arithmetic_2 : readAll [
    ([0x9B#8, 0x10#8], .adda (.mem (.dir 0x10#8))),
    ([0x9C#8, 0x10#8], .cmpx (.mem (.dir 0x10#8))),
    ([0xA0#8, 0x1F#8], .suba (.mem (.idx (.off5 .x 0x1F#5)))),
    ([0xA1#8, 0xA0#8], .cmpa (.mem (.idx (.inc1 .y)))),
    ([0xA2#8, 0xC1#8], .sbca (.mem (.idx (.inc2 .u false)))),
    ([0xA3#8, 0xE2#8], .subd (.mem (.idx (.dec1 .s)))),
    ([0xA9#8, 0xA9#8, 0x12#8, 0x34#8], .adca (.mem (.idx (.off16 .y false 0x1234#16)))),
    ([0xAB#8, 0xBD#8, 0x12#8, 0x34#8], .adda (.mem (.idx (.pcr16 0b01#2 true 0x1234#16)))),
    ([0xAC#8, 0x9F#8, 0x12#8, 0x34#8], .cmpx (.mem (.idx (.extInd 0x1234#16)))),
    ([0xB0#8, 0x20#8, 0x01#8], .suba (.mem (.ext 0x2001#16))),
    ([0xB1#8, 0x20#8, 0x01#8], .cmpa (.mem (.ext 0x2001#16))),
    ([0xB2#8, 0x20#8, 0x01#8], .sbca (.mem (.ext 0x2001#16))),
    ([0xB3#8, 0x20#8, 0x01#8], .subd (.mem (.ext 0x2001#16))),
    ([0xB9#8, 0x20#8, 0x01#8], .adca (.mem (.ext 0x2001#16))),
    ([0xBB#8, 0x20#8, 0x01#8], .adda (.mem (.ext 0x2001#16))),
    ([0xBC#8, 0x20#8, 0x01#8], .cmpx (.mem (.ext 0x2001#16))),
    ([0xC0#8, 0x2A#8], .subb (.imm 0x2A#8)),
    ([0xC1#8, 0x2A#8], .cmpb (.imm 0x2A#8)),
    ([0xC2#8, 0x2A#8], .sbcb (.imm 0x2A#8)),
    ([0xC3#8, 0x12#8, 0x34#8], .addd (.imm 0x1234#16)),
    ([0xC9#8, 0x2A#8], .adcb (.imm 0x2A#8)),
    ([0xCB#8, 0x2A#8], .addb (.imm 0x2A#8)),
    ([0xD0#8, 0x10#8], .subb (.mem (.dir 0x10#8))),
    ([0xD1#8, 0x10#8], .cmpb (.mem (.dir 0x10#8))),
    ([0xD2#8, 0x10#8], .sbcb (.mem (.dir 0x10#8))),
    ([0xD3#8, 0x10#8], .addd (.mem (.dir 0x10#8))),
    ([0xD9#8, 0x10#8], .adcb (.mem (.dir 0x10#8))),
    ([0xDB#8, 0x10#8], .addb (.mem (.dir 0x10#8))),
    ([0xE0#8, 0xA0#8], .subb (.mem (.idx (.inc1 .y)))),
    ([0xE1#8, 0xC1#8], .cmpb (.mem (.idx (.inc2 .u false)))),
    ([0xE2#8, 0xE2#8], .sbcb (.mem (.idx (.dec1 .s)))),
    ([0xE3#8, 0x93#8], .addd (.mem (.idx (.dec2 .x true)))),
    ([0xE9#8, 0x8C#8, 0xFE#8], .adcb (.mem (.idx (.pcr8 0b00#2 false 0xFE#8)))),
    ([0xEB#8, 0x9F#8, 0x12#8, 0x34#8], .addb (.mem (.idx (.extInd 0x1234#16)))),
    ([0xF0#8, 0x20#8, 0x01#8], .subb (.mem (.ext 0x2001#16))),
    ([0xF1#8, 0x20#8, 0x01#8], .cmpb (.mem (.ext 0x2001#16)))] = true := by decide

/-- `30_encoding.md` R100 to R107, `42_arithmetic.md`. -/
theorem test_decode_arithmetic_3 : readAll [
    ([0xF2#8, 0x20#8, 0x01#8], .sbcb (.mem (.ext 0x2001#16))),
    ([0xF3#8, 0x20#8, 0x01#8], .addd (.mem (.ext 0x2001#16))),
    ([0xF9#8, 0x20#8, 0x01#8], .adcb (.mem (.ext 0x2001#16))),
    ([0xFB#8, 0x20#8, 0x01#8], .addb (.mem (.ext 0x2001#16))),
    ([0x10#8, 0x83#8, 0x12#8, 0x34#8], .cmpd (.imm 0x1234#16)),
    ([0x10#8, 0x8C#8, 0x12#8, 0x34#8], .cmpy (.imm 0x1234#16)),
    ([0x10#8, 0x93#8, 0x10#8], .cmpd (.mem (.dir 0x10#8))),
    ([0x10#8, 0x9C#8, 0x10#8], .cmpy (.mem (.dir 0x10#8))),
    ([0x10#8, 0xA3#8, 0xC1#8], .cmpd (.mem (.idx (.inc2 .u false)))),
    ([0x10#8, 0xAC#8, 0xE2#8], .cmpy (.mem (.idx (.dec1 .s)))),
    ([0x10#8, 0xB3#8, 0x20#8, 0x01#8], .cmpd (.mem (.ext 0x2001#16))),
    ([0x10#8, 0xBC#8, 0x20#8, 0x01#8], .cmpy (.mem (.ext 0x2001#16))),
    ([0x11#8, 0x83#8, 0x12#8, 0x34#8], .cmpu (.imm 0x1234#16)),
    ([0x11#8, 0x8C#8, 0x12#8, 0x34#8], .cmps (.imm 0x1234#16)),
    ([0x11#8, 0x93#8, 0x10#8], .cmpu (.mem (.dir 0x10#8))),
    ([0x11#8, 0x9C#8, 0x10#8], .cmps (.mem (.dir 0x10#8))),
    ([0x11#8, 0xA3#8, 0x98#8, 0x80#8], .cmpu (.mem (.idx (.off8 .x true 0x80#8)))),
    ([0x11#8, 0xAC#8, 0xA9#8, 0x12#8, 0x34#8], .cmps (.mem (.idx (.off16 .y false 0x1234#16)))),
    ([0x11#8, 0xB3#8, 0x20#8, 0x01#8], .cmpu (.mem (.ext 0x2001#16))),
    ([0x11#8, 0xBC#8, 0x20#8, 0x01#8], .cmps (.mem (.ext 0x2001#16)))] = true := by decide

/-- `30_encoding.md` R100 to R107, `43_logical.md`. -/
theorem test_decode_logical_1 : readAll [
    ([0x03#8, 0x10#8], .com (.dir 0x10#8)),
    ([0x1A#8, 0x2A#8], .orcc 0x2A#8),
    ([0x1C#8, 0x2A#8], .andcc 0x2A#8),
    ([0x43#8], .coma),
    ([0x53#8], .comb),
    ([0x63#8, 0x93#8], .com (.idx (.dec2 .x true))),
    ([0x73#8, 0x20#8, 0x01#8], .com (.ext 0x2001#16)),
    ([0x84#8, 0x2A#8], .anda (.imm 0x2A#8)),
    ([0x85#8, 0x2A#8], .bita (.imm 0x2A#8)),
    ([0x88#8, 0x2A#8], .eora (.imm 0x2A#8)),
    ([0x8A#8, 0x2A#8], .ora (.imm 0x2A#8)),
    ([0x94#8, 0x10#8], .anda (.mem (.dir 0x10#8))),
    ([0x95#8, 0x10#8], .bita (.mem (.dir 0x10#8))),
    ([0x98#8, 0x10#8], .eora (.mem (.dir 0x10#8))),
    ([0x9A#8, 0x10#8], .ora (.mem (.dir 0x10#8))),
    ([0xA4#8, 0x93#8], .anda (.mem (.idx (.dec2 .x true)))),
    ([0xA5#8, 0xB5#8], .bita (.mem (.idx (.accB .y true)))),
    ([0xA8#8, 0x98#8, 0x80#8], .eora (.mem (.idx (.off8 .x true 0x80#8)))),
    ([0xAA#8, 0x8C#8, 0xFE#8], .ora (.mem (.idx (.pcr8 0b00#2 false 0xFE#8)))),
    ([0xB4#8, 0x20#8, 0x01#8], .anda (.mem (.ext 0x2001#16))),
    ([0xB5#8, 0x20#8, 0x01#8], .bita (.mem (.ext 0x2001#16))),
    ([0xB8#8, 0x20#8, 0x01#8], .eora (.mem (.ext 0x2001#16))),
    ([0xBA#8, 0x20#8, 0x01#8], .ora (.mem (.ext 0x2001#16))),
    ([0xC4#8, 0x2A#8], .andb (.imm 0x2A#8)),
    ([0xC5#8, 0x2A#8], .bitb (.imm 0x2A#8)),
    ([0xC8#8, 0x2A#8], .eorb (.imm 0x2A#8)),
    ([0xCA#8, 0x2A#8], .orb (.imm 0x2A#8)),
    ([0xD4#8, 0x10#8], .andb (.mem (.dir 0x10#8))),
    ([0xD5#8, 0x10#8], .bitb (.mem (.dir 0x10#8))),
    ([0xD8#8, 0x10#8], .eorb (.mem (.dir 0x10#8))),
    ([0xDA#8, 0x10#8], .orb (.mem (.dir 0x10#8))),
    ([0xE4#8, 0xB5#8], .andb (.mem (.idx (.accB .y true)))),
    ([0xE5#8, 0xC6#8], .bitb (.mem (.idx (.accA .u false)))),
    ([0xE8#8, 0xA9#8, 0x12#8, 0x34#8], .eorb (.mem (.idx (.off16 .y false 0x1234#16)))),
    ([0xEA#8, 0xBD#8, 0x12#8, 0x34#8], .orb (.mem (.idx (.pcr16 0b01#2 true 0x1234#16)))),
    ([0xF4#8, 0x20#8, 0x01#8], .andb (.mem (.ext 0x2001#16)))] = true := by decide

/-- `30_encoding.md` R100 to R107, `43_logical.md`. -/
theorem test_decode_logical_2 : readAll [
    ([0xF5#8, 0x20#8, 0x01#8], .bitb (.mem (.ext 0x2001#16))),
    ([0xF8#8, 0x20#8, 0x01#8], .eorb (.mem (.ext 0x2001#16))),
    ([0xFA#8, 0x20#8, 0x01#8], .orb (.mem (.ext 0x2001#16)))] = true := by decide

/-- `30_encoding.md` R100 to R107, `44_shifts_rotates.md`. -/
theorem test_decode_shifts_rotates : readAll [
    ([0x04#8, 0x10#8], .lsr (.dir 0x10#8)),
    ([0x06#8, 0x10#8], .ror (.dir 0x10#8)),
    ([0x07#8, 0x10#8], .asr (.dir 0x10#8)),
    ([0x08#8, 0x10#8], .asl (.dir 0x10#8)),
    ([0x09#8, 0x10#8], .rol (.dir 0x10#8)),
    ([0x44#8], .lsra),
    ([0x46#8], .rora),
    ([0x47#8], .asra),
    ([0x48#8], .asla),
    ([0x49#8], .rola),
    ([0x54#8], .lsrb),
    ([0x56#8], .rorb),
    ([0x57#8], .asrb),
    ([0x58#8], .aslb),
    ([0x59#8], .rolb),
    ([0x64#8, 0xB5#8], .lsr (.idx (.accB .y true))),
    ([0x66#8, 0xC6#8], .ror (.idx (.accA .u false))),
    ([0x67#8, 0xEB#8], .asr (.idx (.accD .s false))),
    ([0x68#8, 0x98#8, 0x80#8], .asl (.idx (.off8 .x true 0x80#8))),
    ([0x69#8, 0xA9#8, 0x12#8, 0x34#8], .rol (.idx (.off16 .y false 0x1234#16))),
    ([0x74#8, 0x20#8, 0x01#8], .lsr (.ext 0x2001#16)),
    ([0x76#8, 0x20#8, 0x01#8], .ror (.ext 0x2001#16)),
    ([0x77#8, 0x20#8, 0x01#8], .asr (.ext 0x2001#16)),
    ([0x78#8, 0x20#8, 0x01#8], .asl (.ext 0x2001#16)),
    ([0x79#8, 0x20#8, 0x01#8], .rol (.ext 0x2001#16))] = true := by decide

/-- `30_encoding.md` R100 to R107, `45_branches_control.md`. -/
theorem test_decode_branches_control_1 : readAll [
    ([0x0E#8, 0x10#8], .jmp (.dir 0x10#8)),
    ([0x16#8, 0x02#8, 0x01#8], .lbra 0x0201#16),
    ([0x17#8, 0x02#8, 0x01#8], .lbsr 0x0201#16),
    ([0x20#8, 0xFE#8], .bra 0xFE#8),
    ([0x21#8, 0xFE#8], .brn 0xFE#8),
    ([0x22#8, 0xFE#8], .bhi 0xFE#8),
    ([0x23#8, 0xFE#8], .bls 0xFE#8),
    ([0x24#8, 0xFE#8], .bcc 0xFE#8),
    ([0x25#8, 0xFE#8], .bcs 0xFE#8),
    ([0x26#8, 0xFE#8], .bne 0xFE#8),
    ([0x27#8, 0xFE#8], .beq 0xFE#8),
    ([0x28#8, 0xFE#8], .bvc 0xFE#8),
    ([0x29#8, 0xFE#8], .bvs 0xFE#8),
    ([0x2A#8, 0xFE#8], .bpl 0xFE#8),
    ([0x2B#8, 0xFE#8], .bmi 0xFE#8),
    ([0x2C#8, 0xFE#8], .bge 0xFE#8),
    ([0x2D#8, 0xFE#8], .blt 0xFE#8),
    ([0x2E#8, 0xFE#8], .bgt 0xFE#8),
    ([0x2F#8, 0xFE#8], .ble 0xFE#8),
    ([0x39#8], .rts),
    ([0x6E#8, 0x97#8], .jmp (.idx (.illegal 0x97#8))),
    ([0x7E#8, 0x20#8, 0x01#8], .jmp (.ext 0x2001#16)),
    ([0x8D#8, 0xFE#8], .bsr 0xFE#8),
    ([0x9D#8, 0x10#8], .jsr (.dir 0x10#8)),
    ([0xAD#8, 0x97#8], .jsr (.idx (.illegal 0x97#8))),
    ([0xBD#8, 0x20#8, 0x01#8], .jsr (.ext 0x2001#16)),
    ([0x10#8, 0x21#8, 0x02#8, 0x01#8], .lbrn 0x0201#16),
    ([0x10#8, 0x22#8, 0x02#8, 0x01#8], .lbhi 0x0201#16),
    ([0x10#8, 0x23#8, 0x02#8, 0x01#8], .lbls 0x0201#16),
    ([0x10#8, 0x24#8, 0x02#8, 0x01#8], .lbcc 0x0201#16),
    ([0x10#8, 0x25#8, 0x02#8, 0x01#8], .lbcs 0x0201#16),
    ([0x10#8, 0x26#8, 0x02#8, 0x01#8], .lbne 0x0201#16),
    ([0x10#8, 0x27#8, 0x02#8, 0x01#8], .lbeq 0x0201#16),
    ([0x10#8, 0x28#8, 0x02#8, 0x01#8], .lbvc 0x0201#16),
    ([0x10#8, 0x29#8, 0x02#8, 0x01#8], .lbvs 0x0201#16),
    ([0x10#8, 0x2A#8, 0x02#8, 0x01#8], .lbpl 0x0201#16)] = true := by decide

/-- `30_encoding.md` R100 to R107, `45_branches_control.md`. -/
theorem test_decode_branches_control_2 : readAll [
    ([0x10#8, 0x2B#8, 0x02#8, 0x01#8], .lbmi 0x0201#16),
    ([0x10#8, 0x2C#8, 0x02#8, 0x01#8], .lbge 0x0201#16),
    ([0x10#8, 0x2D#8, 0x02#8, 0x01#8], .lblt 0x0201#16),
    ([0x10#8, 0x2E#8, 0x02#8, 0x01#8], .lbgt 0x0201#16),
    ([0x10#8, 0x2F#8, 0x02#8, 0x01#8], .lble 0x0201#16)] = true := by decide

/-- `30_encoding.md` R100 to R107, `46_stack_ops.md`. -/
theorem test_decode_stack : readAll [
    ([0x34#8, 0xA5#8], .pshs ⟨true, false, true, false, false, true, false, true⟩),
    ([0x35#8, 0xA5#8], .puls ⟨true, false, true, false, false, true, false, true⟩),
    ([0x36#8, 0xA5#8], .pshu ⟨true, false, true, false, false, true, false, true⟩),
    ([0x37#8, 0xA5#8], .pulu ⟨true, false, true, false, false, true, false, true⟩)] = true := by decide

/-- `30_encoding.md` R100 to R107, `47_register_transfer.md`. -/
theorem test_decode_transfer : readAll [
    ([0x1E#8, 0x8B#8], .exg ⟨.r8 .a, .r8 .dp⟩),
    ([0x1F#8, 0x8B#8], .tfr ⟨.r8 .a, .r8 .dp⟩)] = true := by decide

/-- `30_encoding.md` R100 to R107, `48_interrupt_opcodes.md`. -/
theorem test_decode_interrupts : readAll [
    ([0x12#8], .nop),
    ([0x13#8], .sync),
    ([0x3B#8], .rti),
    ([0x3C#8, 0x2A#8], .cwai 0x2A#8),
    ([0x3F#8], .swi),
    ([0x10#8, 0x3F#8], .swi2),
    ([0x11#8, 0x3F#8], .swi3)] = true := by decide

/-- R410, R94: invalid opcodes, and a second page selection byte. -/
theorem test_decode_invalid : readAll [
    ([0x01#8], .invalid .p0 0x01#8),
    ([0xCF#8], .invalid .p0 0xCF#8),
    ([0x10#8, 0x00#8], .invalid .p1 0x00#8),
    ([0x10#8, 0x10#8], .invalid .p1 0x10#8),
    ([0x11#8, 0x11#8], .invalid .p2 0x11#8),
    ([0x11#8, 0x8E#8], .invalid .p2 0x8E#8)] = true := by decide

/-- R94: the page selection entries, as rows of the table. -/
theorem test_decode_page_rows :
    decodeTableWord 8 0x10 = some .page2 ∧ decodeTableWord 8 0x11 = some .page3 ∧
    decodeTableWord 16 0x108E = some (.ldy (.imm 0x0000#16)) := by decide

/-- R154, R106, R105: the register fields, bit by bit. -/
theorem test_decode_fields :
    decode [0xA6#8, 0b00110000#8] = .ok (.lda (.mem (.idx (.off5 .y 0b10000#5))), []) ∧
    decode [0xA6#8, 0b11110001#8] = .ok (.lda (.mem (.idx (.inc2 .s true))), []) ∧
    decode [0x1E#8, 0b00110101#8] = .ok (.exg ⟨.r16 .u, .r16 .pc⟩, []) ∧
    decode [0x1F#8, 0b10101001#8] = .ok (.tfr ⟨.r8 .cc, .r8 .b⟩, []) ∧
    decode [0x1F#8, 0b01101111#8] = .ok (.tfr ⟨.unassigned 0b0110#4, .unassigned 0b1111#4⟩, []) ∧
    decode [0x36#8, 0b10000001#8] = .ok (.pshu ⟨true, false, false, false, false, false, false, true⟩, []) :=
  ⟨rfl, rfl, rfl, rfl, rfl, rfl⟩

/-- The list ends before the instruction does. -/
theorem test_decode_rejects_a_truncated_list :
    decode [0x10#8, 0x8E#8, 0x12#8] = .error .truncated ∧ decode [] = .error .truncated := ⟨rfl, rfl⟩

/-! ## Single steps against the vectors -/

/-- The registers of the vectors' conventions: all 0, `PC` at `$1000`. -/
def zeroRegs : Regs := { Regs.reset with pc := 0x1000#16 }

/-- A state at a fetch boundary with these registers and memory bytes. -/
def start (r : Regs) (cells : List (Nat × Byte)) : State :=
  { State.reset with regs := r, mem := cells.foldl (fun m c => Memory.write m c.1 c.2) [] }

/-- The writes among the calls on the bus, oldest first. -/
def writesOf (calls : List BusOp) : List (Word × Byte) :=
  calls.reverse.filterMap fun c =>
    match c with
    | .write a v => some (a, v)
    | .read _ _ _ => none

/-- From registers `r`, the bytes at `PC` and the cells: one step gives registers `r'`, in this many cycles, with these writes. -/
def runs (r : Regs) (bytes : List Byte) (cells : List (Nat × Byte)) (r' : Regs) (cycles : Nat) (writes : List (Word × Byte)) :
    Bool :=
  match step (placeBytes bytes r.pc (start r cells)) with
  | .next t => decide (t.regs = r') && decide (t.cycles = cycles) && decide (writesOf t.bus = writes) && t.mem.wf
  | .fault _ | .refused _ => false

/-- `95_test_vectors.md` AM4, AM5, AM9, AM12. -/
theorem test_addressing_1 :
    -- AM4: LDD <$FF
    runs { zeroRegs with dp := 0x20#8 } [0xDC#8, 0xFF#8] [(0x20FF, 0x12#8), (0x2100, 0x34#8)]
      { zeroRegs with dp := 0x20#8, a := 0x12#8, b := 0x34#8, pc := 0x1002#16 } 5 [] = true ∧
    -- AM5: LDD $FFFF
    runs zeroRegs [0xFC#8, 0xFF#8, 0xFF#8] [(0x0, 0xCD#8), (0xFFFF, 0xAB#8)]
      { zeroRegs with a := 0xAB#8, b := 0xCD#8, pc := 0x1003#16, cc := 0x8#8 } 6 [] = true ∧
    -- AM9: LDA -16,U
    runs { zeroRegs with u := 0x8#16 } [0xA6#8, 0x50#8] [(0xFFF8, 0x33#8)]
      { zeroRegs with u := 0x8#16, a := 0x33#8, pc := 0x1002#16 } 5 [] = true ∧
    -- AM12: LDA 127,X
    runs { zeroRegs with x := 0xFFF0#16 } [0xA6#8, 0x88#8, 0x7F#8] [(0x6F, 0x77#8)]
      { zeroRegs with x := 0xFFF0#16, a := 0x77#8, pc := 0x1003#16 } 5 [] = true := by decide

/-- `95_test_vectors.md` AM14, AM16, AM18, AM20. -/
theorem test_addressing_2 :
    -- AM14: LDA ,Y+
    runs { zeroRegs with y := 0xFFFF#16 } [0xA6#8, 0xA0#8] [(0xFFFF, 0x99#8)]
      { zeroRegs with a := 0x99#8, pc := 0x1002#16, cc := 0x8#8 } 6 [] = true ∧
    -- AM16: LDA ,-U
    runs zeroRegs [0xA6#8, 0xC2#8] [(0xFFFF, 0x5A#8)]
      { zeroRegs with u := 0xFFFF#16, a := 0x5A#8, pc := 0x1002#16 } 6 [] = true ∧
    -- AM18: LDA B,X
    runs { zeroRegs with b := 0x80#8, x := 0x2000#16 } [0xA6#8, 0x85#8] [(0x1F80, 0x01#8)]
      { zeroRegs with b := 0x80#8, x := 0x2000#16, a := 0x1#8, pc := 0x1002#16 } 5 [] = true ∧
    -- AM20: LDA D,X
    runs { zeroRegs with a := 0xFF#8, b := 0xFF#8, x := 0x2000#16 } [0xA6#8, 0x8B#8] [(0x1FFF, 0x03#8)]
      { zeroRegs with a := 0x3#8, b := 0xFF#8, x := 0x2000#16, pc := 0x1002#16 } 8 [] = true := by decide

/-- `95_test_vectors.md` AM22, AM26, AM28, AM30. -/
theorem test_addressing_3 :
    -- AM22: LDA -3,PCR
    runs zeroRegs [0xA6#8, 0x8D#8, 0xFF#8, 0xFD#8] []
      { zeroRegs with a := 0x8D#8, pc := 0x1004#16, cc := 0x8#8 } 9 [] = true ∧
    -- AM26: LDA [,X++]
    runs { zeroRegs with x := 0x2000#16 } [0xA6#8, 0x91#8] [(0x2000, 0x30#8), (0x2001, 0x00#8), (0x3000, 0x08#8)]
      { zeroRegs with x := 0x2002#16, a := 0x8#8, pc := 0x1002#16 } 10 [] = true ∧
    -- AM28: LDA [D,X]
    runs { zeroRegs with b := 0x4#8, x := 0x2000#16 } [0xA6#8, 0x9B#8] [(0x2004, 0x30#8), (0x2005, 0x00#8), (0x3000, 0x0A#8)]
      { zeroRegs with a := 0xA#8, b := 0x4#8, x := 0x2000#16, pc := 0x1002#16 } 11 [] = true ∧
    -- AM30: LDA [$FFFF]
    runs zeroRegs [0xA6#8, 0x9F#8, 0xFF#8, 0xFF#8] [(0x0, 0x00#8), (0x3000, 0x0C#8), (0xFFFF, 0x30#8)]
      { zeroRegs with a := 0xC#8, pc := 0x1004#16 } 9 [] = true := by decide

/-- `95_test_vectors.md` AM31, AM33, AM34, AM35. -/
theorem test_addressing_4 :
    -- AM31: LDA (post-byte $87)
    runs { zeroRegs with a := 0x99#8, x := 0x2000#16, cc := 0xF#8 } [0xA6#8, 0x87#8] []
      { zeroRegs with a := 0x99#8, x := 0x2000#16, cc := 0xF#8, pc := 0x1002#16 } 4 [] = true ∧
    -- AM33: LDA (post-byte $BF)
    runs { zeroRegs with a := 0x99#8 } [0xA6#8, 0xBF#8, 0x20#8, 0x00#8] []
      { zeroRegs with a := 0x99#8, pc := 0x1002#16 } 4 [] = true ∧
    -- AM34: STX ,X++
    runs { zeroRegs with x := 0x2000#16 } [0xAF#8, 0x81#8] []
      { zeroRegs with x := 0x2002#16, pc := 0x1002#16 } 8 [(0x2000#16, 0x20#8), (0x2001#16, 0x02#8)] = true ∧
    -- AM35: LDX ,X++
    runs { zeroRegs with x := 0x2000#16 } [0xAE#8, 0x81#8] [(0x2000, 0xCA#8), (0x2001, 0xFE#8)]
      { zeroRegs with x := 0xCAFE#16, pc := 0x1002#16, cc := 0x8#8 } 8 [] = true := by decide

/-- `95_test_vectors.md` DM1, DM7, DM9, DM11. -/
theorem test_loads_stores_1 :
    -- DM1: LDA #$00
    runs { zeroRegs with a := 0xFF#8, cc := 0xFB#8 } [0x86#8, 0x00#8] []
      { zeroRegs with cc := 0xF5#8, pc := 0x1002#16 } 2 [] = true ∧
    -- DM7: LDS $2000
    runs zeroRegs [0x10#8, 0xFE#8, 0x20#8, 0x00#8] [(0x2000, 0x80#8), (0x2001, 0x00#8)]
      { zeroRegs with s := 0x8000#16, pc := 0x1004#16, cc := 0x8#8 } 7 [] = true ∧
    -- DM9: STA $2000
    runs { zeroRegs with a := 0x80#8, cc := 0x2#8 } [0xB7#8, 0x20#8, 0x00#8] []
      { zeroRegs with a := 0x80#8, cc := 0xA#8, pc := 0x1003#16 } 5 [(0x2000#16, 0x80#8)] = true ∧
    -- DM11: STD <$FF
    runs { zeroRegs with a := 0x12#8, b := 0x34#8, dp := 0x20#8 } [0xDD#8, 0xFF#8] []
      { zeroRegs with a := 0x12#8, b := 0x34#8, dp := 0x20#8, pc := 0x1002#16 } 5 [(0x20FF#16, 0x12#8), (0x2100#16, 0x34#8)] = true := by decide

/-- `95_test_vectors.md` DM12, DM15, DM16, DM18. -/
theorem test_loads_stores_2 :
    -- DM12: STX $FFFF
    runs { zeroRegs with x := 0xABCD#16 } [0xBF#8, 0xFF#8, 0xFF#8] []
      { zeroRegs with x := 0xABCD#16, pc := 0x1003#16, cc := 0x8#8 } 6 [(0xFFFF#16, 0xAB#8), (0x0#16, 0xCD#8)] = true ∧
    -- DM15: STS $3000
    runs { zeroRegs with s := 0x7FFF#16, cc := 0xE#8 } [0x10#8, 0xFF#8, 0x30#8, 0x00#8] []
      { zeroRegs with s := 0x7FFF#16, cc := 0x2#8, pc := 0x1004#16 } 7 [(0x3000#16, 0x7F#8), (0x3001#16, 0xFF#8)] = true ∧
    -- DM16: LEAX 1,X
    runs { zeroRegs with x := 0xFFFF#16 } [0x30#8, 0x01#8] []
      { zeroRegs with pc := 0x1002#16, cc := 0x4#8 } 5 [] = true ∧
    -- DM18: LEAS -1,S
    runs { zeroRegs with s := 0x1#16 } [0x32#8, 0x7F#8] []
      { zeroRegs with pc := 0x1002#16 } 5 [] = true := by decide

/-- `95_test_vectors.md` DM20, DM24, DM21, DM10. -/
theorem test_loads_stores_3 :
    -- DM20: LEAX [,Y]
    runs { zeroRegs with y := 0x2000#16 } [0x30#8, 0xB4#8] [(0x2000, 0x12#8), (0x2001, 0x34#8)]
      { zeroRegs with y := 0x2000#16, x := 0x1234#16, pc := 0x1002#16 } 7 [] = true ∧
    -- DM24: CLR ,X+
    runs { zeroRegs with x := 0x2000#16 } [0x6F#8, 0x80#8] [(0x2000, 0xAA#8)]
      { zeroRegs with x := 0x2001#16, pc := 0x1002#16, cc := 0x4#8 } 8 [(0x2000#16, 0x00#8)] = true ∧
    -- DM21: CLRA
    runs { zeroRegs with a := 0x55#8, cc := 0xFF#8 } [0x4F#8] []
      { zeroRegs with cc := 0xF4#8, pc := 0x1001#16 } 2 [] = true ∧
    -- DM10: STB ,X
    runs { zeroRegs with x := 0x2000#16, cc := 0xB#8 } [0xE7#8, 0x84#8] [(0x2000, 0xFF#8)]
      { zeroRegs with x := 0x2000#16, cc := 0x7#8, pc := 0x1002#16 } 4 [(0x2000#16, 0x00#8)] = true := by decide

/-- `95_test_vectors.md` AR1, AR3, AR7, AR11. -/
theorem test_add :
    -- AR1: ADDA #$01
    runs { zeroRegs with a := 0xFF#8 } [0x8B#8, 0x01#8] []
      { zeroRegs with pc := 0x1002#16, cc := 0x25#8 } 2 [] = true ∧
    -- AR3: ADDA #$80
    runs { zeroRegs with a := 0x80#8 } [0x8B#8, 0x80#8] []
      { zeroRegs with pc := 0x1002#16, cc := 0x7#8 } 2 [] = true ∧
    -- AR7: ADDD #$0001
    runs { zeroRegs with a := 0xFF#8, b := 0xFF#8, cc := 0x20#8 } [0xC3#8, 0x00#8, 0x01#8] []
      { zeroRegs with cc := 0x25#8, pc := 0x1003#16 } 4 [] = true ∧
    -- AR11: ADCA #$0F
    runs { zeroRegs with cc := 0x1#8 } [0x89#8, 0x0F#8] []
      { zeroRegs with a := 0x10#8, cc := 0x20#8, pc := 0x1002#16 } 2 [] = true := by decide

/-- `95_test_vectors.md` AR15, AR17, AR18, AR22. -/
theorem test_subtract :
    -- AR15: SUBA #$01
    runs { zeroRegs with a := 0x80#8, cc := 0x20#8 } [0x80#8, 0x01#8] []
      { zeroRegs with a := 0x7F#8, cc := 0x22#8, pc := 0x1002#16 } 2 [] = true ∧
    -- AR17: SUBB #$FF
    runs { zeroRegs with b := 0x7F#8 } [0xC0#8, 0xFF#8] []
      { zeroRegs with b := 0x80#8, pc := 0x1002#16, cc := 0xB#8 } 2 [] = true ∧
    -- AR18: SUBD #$0001
    runs zeroRegs [0x83#8, 0x00#8, 0x01#8] []
      { zeroRegs with a := 0xFF#8, b := 0xFF#8, pc := 0x1003#16, cc := 0x9#8 } 4 [] = true ∧
    -- AR22: SBCA #$7F
    runs { zeroRegs with a := 0x80#8, cc := 0x1#8 } [0x82#8, 0x7F#8] []
      { zeroRegs with cc := 0x6#8, pc := 0x1002#16 } 2 [] = true := by decide

/-- `95_test_vectors.md` AR25, AR28, AR30, AR33. -/
theorem test_compare :
    -- AR25: CMPA #$80
    runs { zeroRegs with a := 0x7F#8 } [0x81#8, 0x80#8] []
      { zeroRegs with a := 0x7F#8, pc := 0x1002#16, cc := 0xB#8 } 2 [] = true ∧
    -- AR28: CMPD #$8000
    runs { zeroRegs with a := 0x7F#8, b := 0xFF#8 } [0x10#8, 0x83#8, 0x80#8, 0x00#8] []
      { zeroRegs with a := 0x7F#8, b := 0xFF#8, pc := 0x1004#16, cc := 0xB#8 } 5 [] = true ∧
    -- AR30: CMPX ,Y
    runs { zeroRegs with y := 0x2000#16 } [0xAC#8, 0xA4#8] [(0x2000, 0x00#8), (0x2001, 0x01#8)]
      { zeroRegs with y := 0x2000#16, pc := 0x1002#16, cc := 0x9#8 } 6 [] = true ∧
    -- AR33: CMPS <$10
    runs { zeroRegs with s := 0x8000#16 } [0x11#8, 0x9C#8, 0x10#8] [(0x10, 0x7F#8), (0x11, 0xFF#8)]
      { zeroRegs with s := 0x8000#16, pc := 0x1003#16, cc := 0x2#8 } 7 [] = true := by decide

/-- `95_test_vectors.md` AR34, AR38, AR41, AR46. -/
theorem test_one_operand :
    -- AR34: NEGA
    runs { zeroRegs with a := 0x80#8 } [0x40#8] []
      { zeroRegs with a := 0x80#8, pc := 0x1001#16, cc := 0xB#8 } 2 [] = true ∧
    -- AR38: INCA
    runs { zeroRegs with a := 0x7F#8, cc := 0x1#8 } [0x4C#8] []
      { zeroRegs with a := 0x80#8, cc := 0xB#8, pc := 0x1001#16 } 2 [] = true ∧
    -- AR41: DECA
    runs { zeroRegs with a := 0x80#8 } [0x4A#8] []
      { zeroRegs with a := 0x7F#8, pc := 0x1001#16, cc := 0x2#8 } 2 [] = true ∧
    -- AR46: TST <$10
    runs { zeroRegs with cc := 0xE#8 } [0x0D#8, 0x10#8] [(0x10, 0x01#8)]
      { zeroRegs with pc := 0x1002#16 } 6 [] = true := by decide

/-- `95_test_vectors.md` AR48, AR50, AR51, AR60. -/
theorem test_multiply_sex_abx :
    -- AR48: MUL
    runs { zeroRegs with a := 0xC#8, b := 0xB#8, cc := 0xF#8 } [0x3D#8] []
      { zeroRegs with b := 0x84#8, cc := 0xB#8, pc := 0x1001#16 } 11 [] = true ∧
    -- AR50: MUL
    runs { zeroRegs with a := 0x10#8, b := 0x8#8 } [0x3D#8] []
      { zeroRegs with b := 0x80#8, pc := 0x1001#16, cc := 0x1#8 } 11 [] = true ∧
    -- AR51: SEX
    runs { zeroRegs with b := 0x80#8, a := 0x12#8 } [0x1D#8] []
      { zeroRegs with b := 0x80#8, a := 0xFF#8, pc := 0x1001#16, cc := 0x8#8 } 2 [] = true ∧
    -- AR60: ABX
    runs { zeroRegs with b := 0xFF#8, x := 0xFF01#16, cc := 0xF#8 } [0x3A#8] []
      { zeroRegs with b := 0xFF#8, cc := 0xF#8, pc := 0x1001#16 } 3 [] = true := by decide

/-- `95_test_vectors.md` AR54, AR55, AR58, AR59. -/
theorem test_decimal_adjust :
    -- AR54: DAA
    runs { zeroRegs with a := 0xA#8 } [0x19#8] []
      { zeroRegs with a := 0x10#8, pc := 0x1001#16 } 2 [] = true ∧
    -- AR55: DAA
    runs { zeroRegs with a := 0x9A#8 } [0x19#8] []
      { zeroRegs with pc := 0x1001#16, cc := 0x5#8 } 2 [] = true ∧
    -- AR58: DAA
    runs { zeroRegs with a := 0xA0#8 } [0x19#8] []
      { zeroRegs with pc := 0x1001#16, cc := 0x5#8 } 2 [] = true ∧
    -- AR59: DAA
    runs { zeroRegs with a := 0x99#8, cc := 0x2#8 } [0x19#8] []
      { zeroRegs with a := 0x99#8, cc := 0xA#8, pc := 0x1001#16 } 2 [] = true := by decide

/-- `95_test_vectors.md` LG1, LG6, LG11, LG14. -/
theorem test_logical :
    -- LG1: ANDA #$0F
    runs { zeroRegs with a := 0xF0#8, cc := 0x3#8 } [0x84#8, 0x0F#8] []
      { zeroRegs with cc := 0x5#8, pc := 0x1002#16 } 2 [] = true ∧
    -- LG6: ORB $2000
    runs { zeroRegs with b := 0xF#8 } [0xFA#8, 0x20#8, 0x00#8] [(0x2000, 0x30#8)]
      { zeroRegs with b := 0x3F#8, pc := 0x1003#16 } 5 [] = true ∧
    -- LG11: BITA #$80
    runs { zeroRegs with a := 0x80#8, cc := 0x2#8 } [0x85#8, 0x80#8] []
      { zeroRegs with a := 0x80#8, cc := 0x8#8, pc := 0x1002#16 } 2 [] = true ∧
    -- LG14: COMA
    runs { zeroRegs with a := 0xFF#8, cc := 0x2#8 } [0x43#8] []
      { zeroRegs with cc := 0x5#8, pc := 0x1001#16 } 2 [] = true := by decide

/-- `95_test_vectors.md` LG17, LG20. -/
theorem test_masks :
    -- LG17: ORCC #$50
    runs zeroRegs [0x1A#8, 0x50#8] []
      { zeroRegs with cc := 0x50#8, pc := 0x1002#16 } 3 [] = true ∧
    -- LG20: ANDCC #$AF
    runs { zeroRegs with cc := 0xFF#8 } [0x1C#8, 0xAF#8] []
      { zeroRegs with cc := 0xAF#8, pc := 0x1002#16 } 3 [] = true := by decide

/-- `95_test_vectors.md` SH1, SH6, SH9, SH12. -/
theorem test_shifts_1 :
    -- SH1: ASLA
    runs { zeroRegs with a := 0x80#8 } [0x48#8] []
      { zeroRegs with pc := 0x1001#16, cc := 0x7#8 } 2 [] = true ∧
    -- SH6: ASRA
    runs { zeroRegs with a := 0x81#8, cc := 0x2#8 } [0x47#8] []
      { zeroRegs with a := 0xC0#8, cc := 0xB#8, pc := 0x1001#16 } 2 [] = true ∧
    -- SH9: ASR $2000
    runs zeroRegs [0x77#8, 0x20#8, 0x00#8] [(0x2000, 0x80#8)]
      { zeroRegs with pc := 0x1003#16, cc := 0x8#8 } 7 [(0x2000#16, 0xC0#8)] = true ∧
    -- SH12: LSRB
    runs { zeroRegs with b := 0xFF#8, cc := 0x2#8 } [0x54#8] []
      { zeroRegs with b := 0x7F#8, cc := 0x3#8, pc := 0x1001#16 } 2 [] = true := by decide

/-- `95_test_vectors.md` SH13, SH14, SH17, SH20. -/
theorem test_shifts_2 :
    -- SH13: LSR ,X
    runs { zeroRegs with x := 0x2000#16 } [0x64#8, 0x84#8] [(0x2000, 0x02#8)]
      { zeroRegs with x := 0x2000#16, pc := 0x1002#16 } 6 [(0x2000#16, 0x01#8)] = true ∧
    -- SH14: ROLA
    runs { zeroRegs with a := 0x80#8, cc := 0x1#8 } [0x49#8] []
      { zeroRegs with a := 0x1#8, cc := 0x3#8, pc := 0x1001#16 } 2 [] = true ∧
    -- SH17: ROL <$10
    runs zeroRegs [0x09#8, 0x10#8] [(0x10, 0xFF#8)]
      { zeroRegs with cc := 0x9#8, pc := 0x1002#16 } 6 [(0x10#16, 0xFE#8)] = true ∧
    -- SH20: RORB
    runs { zeroRegs with b := 0x81#8, cc := 0x3#8 } [0x56#8] []
      { zeroRegs with b := 0xC0#8, cc := 0xB#8, pc := 0x1001#16 } 2 [] = true := by decide

/-- `95_test_vectors.md` TR1, TR4, TR9, TR10. -/
theorem test_transfers_1 :
    -- TR1: TFR A,B
    runs { zeroRegs with a := 0x12#8, b := 0x34#8, cc := 0xF#8 } [0x1F#8, 0x89#8] []
      { zeroRegs with a := 0x12#8, b := 0x12#8, cc := 0xF#8, pc := 0x1002#16 } 6 [] = true ∧
    -- TR4: TFR A,CC
    runs { zeroRegs with a := 0x50#8 } [0x1F#8, 0x8A#8] []
      { zeroRegs with a := 0x50#8, pc := 0x1002#16, cc := 0x50#8 } 6 [] = true ∧
    -- TR9: TFR X,PC
    runs { zeroRegs with x := 0x2000#16 } [0x1F#8, 0x15#8] []
      { zeroRegs with x := 0x2000#16, pc := 0x2000#16 } 6 [] = true ∧
    -- TR10: TFR A,X
    runs { zeroRegs with a := 0x12#8, x := 0x3456#16 } [0x1F#8, 0x81#8] []
      { zeroRegs with a := 0x12#8, x := 0x3456#16, pc := 0x1002#16 } 6 [] = true := by decide

/-- `95_test_vectors.md` TR11, TR15, TR17, TR18. -/
theorem test_transfers_2 :
    -- TR11: TFR (codes 6,7)
    runs { zeroRegs with x := 0x3456#16 } [0x1F#8, 0x67#8] []
      { zeroRegs with x := 0x3456#16, pc := 0x1002#16 } 6 [] = true ∧
    -- TR15: EXG D,U
    runs { zeroRegs with a := 0x12#8, b := 0x34#8, u := 0xABCD#16 } [0x1E#8, 0x03#8] []
      { zeroRegs with a := 0xAB#8, b := 0xCD#8, u := 0x1234#16, pc := 0x1002#16 } 8 [] = true ∧
    -- TR17: EXG DP,B
    runs { zeroRegs with dp := 0x20#8, b := 0x40#8 } [0x1E#8, 0xB9#8] []
      { zeroRegs with dp := 0x40#8, b := 0x20#8, pc := 0x1002#16 } 8 [] = true ∧
    -- TR18: EXG X,PC
    runs { zeroRegs with x := 0x2000#16 } [0x1E#8, 0x15#8] []
      { zeroRegs with x := 0x1002#16, pc := 0x2000#16 } 8 [] = true := by decide

/-- `95_test_vectors.md` BR2, BR9, BR18, BR21. -/
theorem test_branches_1 :
    -- BR2: BRA $0F82
    runs zeroRegs [0x20#8, 0x80#8] []
      { zeroRegs with pc := 0xF82#16 } 3 [] = true ∧
    -- BR9: BHI $1012
    runs { zeroRegs with cc := 0x4#8 } [0x22#8, 0x10#8] []
      { zeroRegs with cc := 0x4#8, pc := 0x1002#16 } 3 [] = true ∧
    -- BR18: BGE $1012
    runs { zeroRegs with cc := 0x8#8 } [0x2C#8, 0x10#8] []
      { zeroRegs with cc := 0x8#8, pc := 0x1002#16 } 3 [] = true ∧
    -- BR21: BGT $1012
    runs { zeroRegs with cc := 0xE#8 } [0x2E#8, 0x10#8] []
      { zeroRegs with cc := 0xE#8, pc := 0x1002#16 } 3 [] = true := by decide

/-- `95_test_vectors.md` BR29, BR30, BR31, BR32. -/
theorem test_branches_2 :
    -- BR29: LBRN $2004
    runs { zeroRegs with cc := 0xFF#8 } [0x10#8, 0x21#8, 0x10#8, 0x00#8] []
      { zeroRegs with cc := 0xFF#8, pc := 0x1004#16 } 5 [] = true ∧
    -- BR30: LBEQ $2004
    runs { zeroRegs with cc := 0x4#8 } [0x10#8, 0x27#8, 0x10#8, 0x00#8] []
      { zeroRegs with cc := 0x4#8, pc := 0x2004#16 } 6 [] = true ∧
    -- BR31: LBEQ $2004
    runs zeroRegs [0x10#8, 0x27#8, 0x10#8, 0x00#8] []
      { zeroRegs with pc := 0x1004#16 } 5 [] = true ∧
    -- BR32: LBNE $0004
    runs zeroRegs [0x10#8, 0x26#8, 0xF0#8, 0x00#8] []
      { zeroRegs with pc := 0x4#16 } 6 [] = true := by decide

/-- `95_test_vectors.md` BR25, BR47, BR51, BR53. -/
theorem test_calls :
    -- BR25: BSR $0FF2
    runs { zeroRegs with s := 0x1#16 } [0x8D#8, 0xF0#8] []
      { zeroRegs with s := 0xFFFF#16, pc := 0xFF2#16 } 7 [(0x0#16, 0x02#8), (0xFFFF#16, 0x10#8)] = true ∧
    -- BR47: JMP [,X]
    runs { zeroRegs with x := 0x2000#16 } [0x6E#8, 0x94#8] [(0x2000, 0xAB#8), (0x2001, 0xCD#8)]
      { zeroRegs with x := 0x2000#16, pc := 0xABCD#16 } 6 [] = true ∧
    -- BR51: JSR ,S
    runs { zeroRegs with s := 0x8000#16 } [0xAD#8, 0xE4#8] []
      { zeroRegs with s := 0x7FFE#16, pc := 0x8000#16 } 7 [(0x7FFF#16, 0x02#8), (0x7FFE#16, 0x10#8)] = true ∧
    -- BR53: RTS
    runs { zeroRegs with s := 0xFFFF#16 } [0x39#8] [(0x0, 0x34#8), (0xFFFF, 0x12#8)]
      { zeroRegs with s := 0x1#16, pc := 0x1234#16 } 5 [] = true := by decide

/-- `95_test_vectors.md` ST4, ST6, ST8, ST14. -/
theorem test_stacks_1 :
    -- ST4: PSHS CC
    runs { zeroRegs with cc := 0xA5#8 } [0x34#8, 0x01#8] []
      { zeroRegs with s := 0xFFFF#16, cc := 0xA5#8, pc := 0x1002#16 } 6 [(0xFFFF#16, 0xA5#8)] = true ∧
    -- ST6: PSHU S
    runs { zeroRegs with s := 0x8000#16, u := 0x4000#16 } [0x36#8, 0x40#8] []
      { zeroRegs with s := 0x8000#16, u := 0x3FFE#16, pc := 0x1002#16 } 7 [(0x3FFF#16, 0x00#8), (0x3FFE#16, 0x80#8)] = true ∧
    -- ST8: PSHS PC
    runs { zeroRegs with s := 0x8000#16 } [0x34#8, 0x80#8] []
      { zeroRegs with s := 0x7FFE#16, pc := 0x1002#16 } 7 [(0x7FFF#16, 0x02#8), (0x7FFE#16, 0x10#8)] = true ∧
    -- ST14: PULU S
    runs { zeroRegs with u := 0x4000#16 } [0x37#8, 0x40#8] [(0x4000, 0x80#8), (0x4001, 0x00#8)]
      { zeroRegs with u := 0x4002#16, s := 0x8000#16, pc := 0x1002#16 } 7 [] = true := by decide

/-- `95_test_vectors.md` ST12, ST13, ST15, ST16. -/
theorem test_stacks_2 :
    -- ST12: PULS CC
    runs { zeroRegs with s := 0x7FFF#16, cc := 0x50#8 } [0x35#8, 0x01#8] [(0x7FFF, 0x00#8)]
      { zeroRegs with s := 0x8000#16, pc := 0x1002#16 } 6 [] = true ∧
    -- ST13: PULS A,B,X
    runs { zeroRegs with s := 0x7000#16 } [0x35#8, 0x16#8] [(0x7000, 0x01#8), (0x7001, 0x02#8), (0x7002, 0x03#8), (0x7003, 0x04#8)]
      { zeroRegs with s := 0x7004#16, a := 0x1#8, b := 0x2#8, x := 0x304#16, pc := 0x1002#16 } 9 [] = true ∧
    -- ST15: PULU A,PC
    runs { zeroRegs with u := 0x4000#16 } [0x37#8, 0x82#8] [(0x4000, 0x7F#8), (0x4001, 0x30#8), (0x4002, 0x00#8)]
      { zeroRegs with u := 0x4003#16, a := 0x7F#8, pc := 0x3000#16 } 8 [] = true ∧
    -- ST16: PULS U
    runs { zeroRegs with s := 0xFFFF#16 } [0x35#8, 0x40#8] [(0x0, 0x34#8), (0xFFFF, 0x12#8)]
      { zeroRegs with s := 0x1#16, u := 0x1234#16, pc := 0x1002#16 } 7 [] = true := by decide

/-- `95_test_vectors.md` IO5. -/
theorem test_interrupt_return :
    -- IO5: RTI
    runs { zeroRegs with s := 0x7FFD#16, cc := 0xD0#8, a := 0x77#8 } [0x3B#8] [(0x7FFD, 0x05#8), (0x7FFE, 0x20#8), (0x7FFF, 0x00#8)]
      { zeroRegs with s := 0x8000#16, cc := 0x5#8, a := 0x77#8, pc := 0x2000#16 } 6 [] = true := by decide

/-- `95_test_vectors.md` IO6, IV4, IV5, IV7. -/
theorem test_no_operations :
    -- IO6: NOP
    runs { zeroRegs with cc := 0xFF#8 } [0x12#8] []
      { zeroRegs with cc := 0xFF#8, pc := 0x1001#16 } 2 [] = true ∧
    -- IV4: INVALID $11 $8E
    runs zeroRegs [0x11#8, 0x8E#8, 0x12#8, 0x34#8] []
      { zeroRegs with pc := 0x1002#16 } 3 [] = true ∧
    -- IV5: INVALID $10 $10
    runs zeroRegs [0x10#8, 0x10#8, 0x8E#8] []
      { zeroRegs with pc := 0x1002#16 } 3 [] = true ∧
    -- IV7: INVALID $CD
    runs { zeroRegs with pc := 0xFFFF#16 } [0xCD#8] []
      { zeroRegs with pc := 0x0#16 } 2 [] = true := by decide

/-- `95_test_vectors.md` IO1: SWI pushes the twelve bytes with `E` set and takes its vector. -/
theorem test_swi :
    runs { zeroRegs with s := 0x8000#16, a := 0x11#8, b := 0x22#8, dp := 0x33#8, x := 0x4455#16, y := 0x6677#16, u := 0x8899#16 }
      [0x3F#8] [(0xFFFA, 0x12#8), (0xFFFB, 0x34#8)]
      { zeroRegs with
        s := 0x7FF4#16, a := 0x11#8, b := 0x22#8, dp := 0x33#8, x := 0x4455#16, y := 0x6677#16, u := 0x8899#16
        pc := 0x1234#16, cc := 0xD0#8 } 19
      [(0x7FFF#16, 0x01#8), (0x7FFE#16, 0x10#8), (0x7FFD#16, 0x99#8), (0x7FFC#16, 0x88#8), (0x7FFB#16, 0x77#8),
        (0x7FFA#16, 0x66#8), (0x7FF9#16, 0x55#8), (0x7FF8#16, 0x44#8), (0x7FF7#16, 0x33#8), (0x7FF6#16, 0x22#8),
        (0x7FF5#16, 0x11#8), (0x7FF4#16, 0x80#8)] = true := by decide

/-- With these lines asserted: one step gives registers `r'` in this many cycles. -/
def runsWith (l : Lines) (a : Active) (r : Regs) (cells : List (Nat × Byte)) (r' : Regs) (cycles : Nat) : Bool :=
  match step { start r cells with lines := l, active := a } with
  | .next t => decide (t.regs = r') && decide (t.cycles = cycles) && decide (t.active = .none)
  | .fault _ | .refused _ => false

/-- `95_test_vectors.md` S1, row 1: RESET. -/
theorem test_reset_sequence :
    runsWith { Lines.quiet with reset := true } .none
      { zeroRegs with s := 0x8000#16, cc := 0xFF#8, dp := 0x55#8, pc := 0xABCD#16 } [(0xFFFE, 0x02#8), (0xFFFF, 0x00#8)]
      { zeroRegs with s := 0x8000#16, pc := 0x0200#16 } 7 = true := by decide

/-- R421, R432: FIRQ stacks `CC` and `PC` only, with `E` clear, and sets both masks. -/
theorem test_firq_entry :
    runsWith { Lines.quiet with firq := true } .none { zeroRegs with s := 0x8000#16, cc := 0x80#8 } [(0xFFF6, 0x60#8)]
      { zeroRegs with s := 0x7FFD#16, cc := 0x50#8, pc := 0x6000#16 } 10 = true := by decide

/-- R423, R424: with both lines asserted a masked FIRQ leaves the boundary to IRQ. -/
theorem test_irq_behind_masked_firq :
    runsWith { Lines.quiet with firq := true, irq := true } .none { zeroRegs with s := 0x8000#16, cc := 0x40#8 } [(0xFFF8, 0x70#8)]
      { zeroRegs with s := 0x7FF4#16, cc := 0xD0#8, pc := 0x7000#16 } 19 = true := by decide

/-- R386: leaving the CWAI wait by NMI takes three cycles and stacks nothing. -/
theorem test_cwai_exit :
    runsWith { Lines.quiet with nmi := true } .waitCwai { zeroRegs with s := 0x7FF4#16, cc := 0x80#8 } [(0xFFFC, 0x50#8)]
      { zeroRegs with s := 0x7FF4#16, cc := 0xD0#8, pc := 0x5000#16 } 3 = true := by decide

/-- R387: a masked IRQ ends the SYNC wait, and nothing is entered. -/
theorem test_sync_exit :
    runsWith { Lines.quiet with irq := true } .waitSync { zeroRegs with cc := 0x10#8 } [] { zeroRegs with cc := 0x10#8 } 2
      = true := by decide

/-- R440: HALT holds the block at the boundary, NMI or not. -/
theorem test_halt :
    runsWith { Lines.quiet with halt := true, nmi := true } .none zeroRegs [] zeroRegs 1 = true := by decide

/-- R48, R481: the state after RESET is what the RESET sequence leaves of it. -/
theorem test_reset_state : (resetSequence State.reset).regs = State.reset.regs ∧ State.reset.mem.wf = true := by decide

/-! ## States and operands that meet the hypotheses of the statements -/

/-- Full registers, the stacks around the end of the address space, both masks set. -/
def demoRegs : Regs :=
  { a := 0x12#8, b := 0x80#8, dp := 0x20#8, cc := 0x51#8, x := 0x2000#16, y := 0xFFFF#16, u := 0x8000#16, s := 0xFFFE#16
    pc := 0x1000#16 }

def demo : State := start demoRegs [(0x1000, 0x86#8), (0x1001, 0x2A#8), (0x2000, 0x30#8), (0x20FF, 0x7F#8), (0xFFFE, 0x85#8)]

/-- `demo` with these lines, doing this. -/
def demoWith (l : Lines) (a : Active) : State := { demo with lines := l, active := a }

theorem witness_DecodeInvertsEncode :
    (Instr.lda (.mem (.idx (.illegal 0xFF#8)))).wf = true ∧ (Instr.ldx (.mem (.idx (.extInd 0xFFFF#16)))).wf = true ∧
    (Instr.clr (.idx (.off5 .s 0x10#5))).wf = true ∧ (Instr.leax (.pcr16 0b11#2 true 0x8000#16)).wf = true ∧
    (Instr.tfr ⟨.unassigned 0b1111#4, .r8 .dp⟩).wf = true ∧ (Instr.invalid .p2 0xFF#8).wf = true ∧ Instr.swi3.wf = true := by
  decide

theorem witness_InvalidEntriesTakeNoOperand :
    isInvalidEntry .p0 0x01#8 = true ∧ isInvalidEntry .p0 0xCF#8 = true ∧ isInvalidEntry .p1 0x00#8 = true ∧
    isInvalidEntry .p1 0xFD#8 = true ∧ isInvalidEntry .p2 0x00#8 = true ∧ isInvalidEntry .p2 0xFF#8 = true := by decide

theorem demo_AtBoundary : AtBoundary demo := ⟨rfl, rfl⟩

theorem demo_NoRequest : NoRequest demo := ⟨rfl, rfl, rfl, nofun, nofun⟩

/-- Masked FIRQ and IRQ are no request. -/
theorem witness_NoRequest_masked : NoRequest (demoWith { Lines.quiet with firq := true, irq := true } .none) :=
  ⟨rfl, rfl, rfl, fun _ => rfl, fun _ => rfl⟩

theorem witness_StepRunsTheDecodedInstruction :
    AtBoundary demo ∧ NoRequest demo ∧
    decode (bytesFrom demo 5 (demo.get16 .pc)) = .ok (.lda (.imm 0x2A#8), [0x00#8, 0x00#8, 0x00#8]) :=
  ⟨demo_AtBoundary, demo_NoRequest, rfl⟩

/-- Both clauses: a form that writes its base register, and one that does not. -/
theorem witness_ResolversChangeOnlyTheirBase :
    (∃ a t, resolve (.idx (.dec2 .u true)) demo = some (a, t) ∧ Reg16.x ≠ baseReg .u) ∧
    (∃ a t, resolve (.idx (.extInd 0xFFFF#16)) demo = some (a, t)) ∧
    (∀ r ind, Ea.idx (.extInd 0xFFFF#16) ≠ .idx (.inc1 r) ∧ Ea.idx (.extInd 0xFFFF#16) ≠ .idx (.inc2 r ind) ∧
      Ea.idx (.extInd 0xFFFF#16) ≠ .idx (.dec1 r) ∧ Ea.idx (.extInd 0xFFFF#16) ≠ .idx (.dec2 r ind)) :=
  ⟨⟨_, _, rfl, nofun⟩, ⟨_, _, rfl⟩, fun _ _ => ⟨nofun, nofun, nofun, nofun⟩⟩

/-- Both clauses: an address, and none. -/
theorem witness_OperandsAreReadOnce :
    (∃ a s1, resolve (.idx (.inc2 .y false)) demo = some (a, s1)) ∧ resolve (.idx (.illegal 0x87#8)) demo = none :=
  ⟨⟨_, _, rfl⟩, rfl⟩

theorem witness_IllegalPostBytesDoNothing :
    resolve (.idx (.illegal 0x80#8)) demo = resolve (.idx (.illegal 0xFF#8)) demo ∧
    resolve (.idx (.illegal 0xFF#8)) demo = none := ⟨rfl, rfl⟩

/-- Both clauses, at an operand whose second byte lies past the top of the address space, and the immediate forms. -/
theorem witness_LoadsOfBytesAndWords :
    (∃ m s1, operand8 (.mem (.dir 0xFF#8)) demo = some (m, s1) ∧ m = 0x7F#8) ∧
    (∃ m s1, operand16 (.mem (.ext 0xFFFE#16)) demo = some (m, s1) ∧ m = 0x8500#16) ∧
    (∃ s1, operand8 (.imm 0x00#8) demo = some (0x00#8, s1)) ∧ (∃ s1, operand16 (.imm 0xFFFF#16) demo = some (0xFFFF#16, s1)) :=
  ⟨⟨_, _, rfl, by decide⟩, ⟨_, _, rfl, by decide⟩, ⟨_, rfl⟩, ⟨_, rfl⟩⟩

theorem witness_StoresOfAByte : ∃ a s1, resolve (.idx (.dec1 .s)) demo = some (a, s1) ∧ a = 0xFFFD#16 := ⟨_, _, rfl, by decide⟩

theorem witness_StoresOfAWord : ∃ a s1, resolve (.idx (.inc2 .y false)) demo = some (a, s1) ∧ a = 0xFFFF#16 :=
  ⟨_, _, rfl, by decide⟩

theorem witness_LoadsOfAnAddress : ∃ a s1, resolve (.idx (.off5 .y 0x01#5)) demo = some (a, s1) ∧ a = 0x0000#16 :=
  ⟨_, _, rfl, by decide⟩

/-- `B` is `$80`: the sum carries and overflows; and a word operand through a pointer. -/
theorem witness_AdditionOfBytesAndWords :
    (∃ s1, operand8 (.imm 0x80#8) demo = some (0x80#8, s1) ∧ s1.get8 .b = 0x80#8) ∧
    (∃ m s1, operand16 (.mem (.idx (.zero .x true))) demo = some (m, s1)) :=
  ⟨⟨_, rfl, by decide⟩, _, _, rfl⟩

theorem witness_SubtractionOfBytesAndWords :
    (∃ s1, operand8 (.imm 0xFF#8) demo = some (0xFF#8, s1) ∧ s1.get8 .b = 0x80#8) ∧
    (∃ s1, operand16 (.imm 0x8000#16) demo = some (0x8000#16, s1)) :=
  ⟨⟨_, rfl, by decide⟩, _, rfl⟩

/-- Both clauses. -/
theorem witness_Comparisons :
    (∃ s1, operand8 (.imm 0x12#8) demo = some (0x12#8, s1)) ∧ (∃ s1, operand16 (.imm 0x8000#16) demo = some (0x8000#16, s1)) :=
  ⟨⟨_, rfl⟩, ⟨_, rfl⟩⟩

theorem witness_ArithmeticOnMemory : ∃ a s1, resolve (.dir 0xFF#8) demo = some (a, s1) ∧ s1.byteAt a = 0x7F#8 :=
  ⟨_, _, rfl, by decide⟩

theorem witness_TestsOfAByte : ∃ a s1, resolve (.ext 0xFFFE#16) demo = some (a, s1) ∧ s1.byteAt a = 0x85#8 :=
  ⟨_, _, rfl, by decide⟩

/-- The four corrections at the boundary values of both digits, `H` and `C` clear. -/
theorem witness_DecimalAdjust :
    (daaOp 0x99#8 0x00#8).1 = 0x99#8 ∧ (daaOp 0x8A#8 0x00#8).1 = 0x90#8 ∧ (daaOp 0xA0#8 0x00#8).1 = 0x00#8 ∧
    (daaOp 0x9A#8 0x00#8).1 = 0x00#8 := by decide

theorem witness_DecimalAdditionIsDecimal :
    (start { zeroRegs with a := 0x99#8, cc := 0x01#8 } []).regs.a = BitVec.ofNat 8 (16 * (99 / 10) + 99 % 10) ∧
    (start zeroRegs []).regs.a = BitVec.ofNat 8 (16 * (0 / 10) + 0 % 10) := by decide

theorem witness_LogicalOperations : ∃ m s1, operand8 (.mem (.idx (.inc1 .x))) demo = some (m, s1) ∧ m = 0x30#8 :=
  ⟨_, _, rfl, by decide⟩

theorem witness_ShiftsOfMemory : ∃ a s1, resolve (.idx (.dec2 .s false)) demo = some (a, s1) ∧ a = 0xFFFC#16 :=
  ⟨_, _, rfl, by decide⟩

theorem witness_JumpsCallsAndReturns : ∃ a s1, resolve (.idx (.zero .s false)) demo = some (a, s1) ∧ a = 0xFFFE#16 :=
  ⟨_, _, rfl, by decide⟩

/-- The image of every register below the end of the address space, under both stack pointers. -/
def stacked : State :=
  start { zeroRegs with s := 0xFFFC#16, u := 0xFFFC#16 }
    [(0xFFFC, 0x85#8), (0xFFFD, 0x11#8), (0xFFFE, 0x22#8), (0xFFFF, 0x33#8), (0x0000, 0x44#8), (0x0001, 0x55#8),
      (0x0002, 0x66#8), (0x0003, 0x77#8), (0x0004, 0x88#8), (0x0005, 0x99#8), (0x0006, 0x20#8)]

def stackedRegs : Regs :=
  { a := 0x11#8, b := 0x22#8, dp := 0x33#8, cc := 0x85#8, x := 0x4455#16, y := 0x6677#16, u := 0x8899#16, s := 0x8899#16
    pc := 0x2000#16 }

/-- Both clauses: with every register, and with none. -/
theorem witness_PullsTakeTheImage :
    HoldsBytes stacked stacked.regs.s (stackImage .u ⟨true, true, true, true, true, true, true, true⟩ stackedRegs) ∧
    HoldsBytes stacked stacked.regs.u (stackImage .s ⟨true, true, true, true, true, true, true, true⟩ stackedRegs) ∧
    HoldsBytes stacked stacked.regs.s (stackImage .u ⟨false, false, false, false, false, false, false, false⟩ stackedRegs) :=
  ⟨⟨rfl, rfl, rfl, rfl, rfl, rfl, rfl, rfl, rfl, rfl, rfl, rfl, trivial⟩,
    ⟨rfl, rfl, rfl, rfl, rfl, rfl, rfl, rfl, rfl, rfl, rfl, rfl, trivial⟩, trivial⟩

/-- Both clauses: `E` set in the pulled `CC`, and `E` clear. -/
theorem witness_RtiTakesTheFrame :
    (FlagSet .e { stacked with regs := stackedRegs } ∧ HoldsBytes stacked stacked.regs.s (frameAll stackedRegs)) ∧
    (¬ FlagSet .e { demo with regs := demoRegs } ∧
      HoldsBytes (start { zeroRegs with s := 0xFFFF#16 } [(0xFFFF, 0x51#8), (0x0000, 0x10#8)]) 0xFFFF#16 (frameFast demoRegs)) :=
  ⟨⟨rfl, ⟨rfl, rfl, rfl, rfl, rfl, rfl, rfl, rfl, rfl, rfl, rfl, rfl, trivial⟩⟩, nofun, ⟨rfl, rfl, rfl, trivial⟩⟩

/-- Both clauses: the handler has changed a register. -/
theorem witness_ReturnUndoesEntry :
    (let h := (enterException true true 0xFFF8#16 demo).set8 .a 0x99#8
     h.regs.s = (enterException true true 0xFFF8#16 demo).regs.s ∧ SameMemory (enterException true true 0xFFF8#16 demo) h) ∧
    (let h := (enterException false true 0xFFF6#16 demo).set16 .x 0x9999#16
     h.regs.s = (enterException false true 0xFFF6#16 demo).regs.s ∧ SameMemory (enterException false true 0xFFF6#16 demo) h) :=
  have byte : ∀ e : State, (e.set8 .a 0x99#8).regs.s = e.regs.s ∧ SameMemory e (e.set8 .a 0x99#8) := fun _ => ⟨rfl, fun _ => rfl⟩
  have word : ∀ e : State, (e.set16 .x 0x9999#16).regs.s = e.regs.s ∧ SameMemory e (e.set16 .x 0x9999#16) :=
    fun _ => ⟨rfl, fun _ => rfl⟩
  ⟨byte _, word _⟩

/-- `demo` in a wait with both masks clear. -/
def waiting (l : Lines) (a : Active) : State := { start { zeroRegs with s := 0x8000#16 } [] with lines := l, active := a }

/-- Every clause: NMI over all others; FIRQ over IRQ; IRQ alone; masked lines only; no line. -/
theorem witness_CwaiWaitsForAnUnmaskedLine :
    (let s := waiting ⟨false, true, true, true, true⟩ .waitCwai
     s.active = .waitCwai ∧ s.clocksDue = 0 ∧ s.lines.reset = false ∧ s.lines.nmi = true) ∧
    (let s := waiting ⟨false, false, true, true, false⟩ .waitCwai
     s.lines.reset = false ∧ s.lines.nmi = false ∧ s.lines.firq = true ∧ ¬ FlagSet .f s) ∧
    (let s := waiting ⟨false, false, false, true, false⟩ .waitCwai
     s.lines.nmi = false ∧ ¬ (s.lines.firq = true ∧ ¬ FlagSet .f s) ∧ s.lines.irq = true ∧ ¬ FlagSet .i s) ∧
    (let s := demoWith ⟨false, false, true, true, false⟩ .waitCwai
     s.clocksDue = 0 ∧ s.lines.nmi = false ∧ ¬ (s.lines.firq = true ∧ ¬ FlagSet .f s) ∧
     ¬ (s.lines.irq = true ∧ ¬ FlagSet .i s)) :=
  ⟨⟨rfl, rfl, rfl, rfl⟩, ⟨rfl, rfl, rfl, nofun⟩, ⟨rfl, nofun, rfl, nofun⟩, rfl, rfl, fun h => h.2 rfl, fun h => h.2 rfl⟩

/-- Both clauses: a masked line, and no line. -/
theorem witness_SyncWaitsForAnyLine :
    (let s := demoWith ⟨false, false, false, true, false⟩ .waitSync
     s.active = .waitSync ∧ s.clocksDue = 0 ∧ s.lines.reset = false ∧ s.lines.irq = true ∧ FlagSet .i s) ∧
    (let s := demoWith ⟨false, false, false, false, true⟩ .waitSync
     s.active = .waitSync ∧ s.lines.reset = false ∧ s.lines.nmi = false ∧ s.lines.firq = false ∧ s.lines.irq = false) :=
  ⟨⟨rfl, rfl, rfl, rfl, rfl⟩, rfl, rfl, rfl, rfl, rfl⟩

/-- Every clause: a boundary with all other interrupt lines, and both waits with HALT. -/
theorem witness_ResetSequence :
    (let s := demoWith ⟨true, true, true, true, false⟩ .none
     s.clocksDue = 0 ∧ s.lines.reset = true ∧ s.active = .none ∧ s.lines.halt = false) ∧
    (let s := demoWith ⟨true, true, true, true, true⟩ .waitCwai
     s.clocksDue = 0 ∧ s.lines.reset = true ∧ s.active = .waitCwai) ∧
    (let s := demoWith ⟨true, false, false, false, true⟩ .waitSync
     s.clocksDue = 0 ∧ s.lines.reset = true ∧ s.active = .waitSync) :=
  ⟨⟨rfl, rfl, rfl, rfl⟩, ⟨rfl, rfl, rfl⟩, rfl, rfl, rfl⟩

/-- Every clause: NMI over masked lines; FIRQ over IRQ; IRQ behind a masked FIRQ. -/
theorem witness_NmiEnters :
    let s := demoWith ⟨false, true, true, true, false⟩ .none
    AtBoundary s ∧ s.lines.halt = false ∧ s.lines.reset = false ∧ s.lines.nmi = true := ⟨⟨rfl, rfl⟩, rfl, rfl, rfl⟩

/-- Both clauses; in the second FIRQ is asserted and masked. -/
theorem witness_FirqAndIrqEnter :
    (let s := waiting ⟨false, false, true, true, false⟩ .none
     AtBoundary s ∧ s.lines.halt = false ∧ s.lines.reset = false ∧ s.lines.nmi = false ∧ s.lines.firq = true ∧ ¬ FlagSet .f s) ∧
    (let s := { waiting ⟨false, false, true, true, false⟩ .none with regs := { zeroRegs with cc := 0x40#8 } }
     AtBoundary s ∧ s.lines.halt = false ∧ s.lines.reset = false ∧ s.lines.nmi = false ∧
       ¬ (s.lines.firq = true ∧ ¬ FlagSet .f s) ∧ s.lines.irq = true ∧ ¬ FlagSet .i s) :=
  ⟨⟨⟨rfl, rfl⟩, rfl, rfl, rfl, rfl, nofun⟩, ⟨rfl, rfl⟩, rfl, rfl, rfl, fun h => h.2 rfl, rfl, nofun⟩

theorem witness_HaltIdlesAtABoundary :
    let s := demoWith ⟨true, true, true, true, true⟩ .none
    AtBoundary s ∧ s.lines.halt = true := ⟨⟨rfl, rfl⟩, rfl⟩

/-- `demo` with the encoding of `i` at `PC`. -/
def demoRunning (i : Instr) : State := placeBytes (encode i) 0x1000#16 demo

/-- The hypotheses of a cycle count. -/
def StartsAt (s : State) (i : Instr) : Prop := AtBoundary s ∧ NoRequest s ∧ i.wf = true ∧ HoldsBytes s s.regs.pc (encode i)

theorem placeBytes_eq (bs : List Byte) (a : Word) (s : State) : placeBytes bs a s = { s with mem := (placeBytes bs a s).mem } := by
  induction bs generalizing a s with
  | nil => rfl
  | cons b bs ih => exact ih _ _

theorem starts_demoRunning {i : Instr} (hw : i.wf = true) (hb : HoldsBytes (demoRunning i) 0x1000#16 (encode i)) :
    StartsAt (demoRunning i) i := by
  have h : demoRunning i = { demo with mem := (demoRunning i).mem } := placeBytes_eq _ _ _
  refine ⟨?_, ?_, hw, ?_⟩
  · rw [h]; exact ⟨rfl, rfl⟩
  · rw [h]; exact demo_NoRequest
  · rw [show (demoRunning i).regs.pc = 0x1000#16 by rw [h]; rfl]; exact hb

/-- A row of each clause: fixed counts, an invalid entry behind a page byte, RTI with the full frame, a pair of illegal codes, the ends of
the ranges of the offsets, the full mask, and the two that wait. -/
theorem witness_CycleCounts :
    StartsAt (demoRunning .mul) .mul ∧ StartsAt (demoRunning .rorb) .rorb ∧
    (StartsAt (demoRunning .rti) .rti ∧ ((demoRunning .rti).byteAt (demoRunning .rti).regs.s).getLsbD 7 = true) ∧
    StartsAt (demoRunning (.invalid .p1 0x10#8)) (.invalid .p1 0x10#8) ∧
    StartsAt (demoRunning (.lbsr 0xFFFF#16)) (.lbsr 0xFFFF#16) ∧
    StartsAt (demoRunning (.tfr ⟨.unassigned 0xF#4, .r8 .dp⟩)) (.tfr ⟨.unassigned 0xF#4, .r8 .dp⟩) ∧
    StartsAt (demoRunning (.ble 0x80#8)) (.ble 0x80#8) ∧ StartsAt (demoRunning (.lble 0x8000#16)) (.lble 0x8000#16) ∧
    StartsAt (demoRunning (.puls ⟨true, true, true, true, true, true, true, true⟩)) (.puls ⟨true, true, true, true, true, true, true, true⟩) ∧
    StartsAt (demoRunning (.cwai 0xEF#8)) (.cwai 0xEF#8) ∧ StartsAt (demoRunning .sync) .sync :=
  ⟨starts_demoRunning rfl ⟨rfl, trivial⟩,
    starts_demoRunning rfl ⟨rfl, trivial⟩,
    ⟨starts_demoRunning rfl ⟨rfl, trivial⟩, by decide⟩,
    starts_demoRunning rfl ⟨rfl, rfl, trivial⟩,
    starts_demoRunning rfl ⟨rfl, rfl, rfl, trivial⟩,
    starts_demoRunning rfl ⟨rfl, rfl, trivial⟩,
    starts_demoRunning rfl ⟨rfl, rfl, trivial⟩,
    starts_demoRunning rfl ⟨rfl, rfl, rfl, rfl, trivial⟩,
    starts_demoRunning rfl ⟨rfl, rfl, trivial⟩,
    starts_demoRunning rfl ⟨rfl, rfl, trivial⟩,
    starts_demoRunning rfl ⟨rfl, trivial⟩⟩

/-- A row of each clause: the ends of an indexed form's range, a form through a pointer, an illegal post-byte. -/
theorem witness_CycleCountsOfOperandForms :
    StartsAt (demoRunning (.lda (.mem (.idx (.off5 .s 0x10#5))))) (.lda (.mem (.idx (.off5 .s 0x10#5)))) ∧
    StartsAt (demoRunning (.cmps (.mem (.idx (.pcr16 0b11#2 true 0xFFFF#16))))) (.cmps (.mem (.idx (.pcr16 0b11#2 true 0xFFFF#16)))) ∧
    StartsAt (demoRunning (.sty (.ext 0x0000#16))) (.sty (.ext 0x0000#16)) ∧
    StartsAt (demoRunning (.leax (.illegal 0xFF#8))) (.leax (.illegal 0xFF#8)) :=
  ⟨starts_demoRunning rfl ⟨rfl, rfl, trivial⟩,
    starts_demoRunning rfl ⟨rfl, rfl, rfl, rfl, rfl, trivial⟩,
    starts_demoRunning rfl ⟨rfl, rfl, rfl, rfl, trivial⟩,
    starts_demoRunning rfl ⟨rfl, rfl, trivial⟩⟩

theorem witness_StepKeepsMemoryCanonical : demo.mem.wf = true ∧ ∃ t, step demo = .next t := ⟨by decide, _, rfl⟩

theorem witness_StepKeepsSettled :
    (Settled demo ∧ demo.active = .none ∧ demo.lines.halt = false ∧ ∃ t, step demo = .next t ∧ t.active = .none) ∧
    (let s := demoWith ⟨false, true, false, false, false⟩ .waitSync
     Settled s ∧ ∃ t, step s = .next t) :=
  ⟨⟨⟨rfl, rfl, rfl, .inl rfl⟩, rfl, rfl, _, rfl, rfl⟩, ⟨rfl, rfl, rfl, .inr (.inr rfl)⟩, _, rfl⟩

theorem witness_StepIsItsClockCycles : ∃ t, step demo = .next t ∧ t.cycles = demo.cycles + 2 := ⟨_, rfl, by decide⟩

theorem witness_StepNeverWritesTheLines :
    let s := { demo with inputs := [⟨false, true, false, false, false⟩] }
    ∃ t, step s = .next t ∧ t.lines.nmi = true := ⟨_, rfl, by decide⟩

theorem witness_ScratchIsNeverObservable : ∃ t, step demo = .next t ∧ t.scratch = demo.scratch := ⟨_, rfl, by decide⟩

theorem witness_StepReadsAreNotReadOnly :
    ∃ t, step demo = .next t ∧ t.bus = [.read 0x1001#16 false 0x2A#8, .read 0x1000#16 false 0x86#8] := ⟨_, rfl, by decide⟩

/-- Every clause: an instruction that none of the exceptions names. -/
theorem witness_OnlyListedInstructionsWriteDpAndMasks :
    (∃ t, exec .daa demo = .next t) ∧
    (∀ p m v src, Instr.daa ≠ .tfr p ∧ Instr.daa ≠ .exg p ∧ Instr.daa ≠ .puls m ∧ Instr.daa ≠ .pulu m ∧ Instr.daa ≠ .andcc v ∧
      Instr.daa ≠ .orcc v ∧ Instr.daa ≠ .cwai v ∧ Instr.daa ≠ .adda src ∧ Instr.daa ≠ .addb src ∧ Instr.daa ≠ .adca src ∧
      Instr.daa ≠ .adcb src) ∧
    Instr.daa ≠ .rti ∧ Instr.daa ≠ .swi ∧ Instr.daa ≠ .swi2 ∧ Instr.daa ≠ .swi3 :=
  ⟨⟨_, rfl⟩, fun _ _ _ _ => ⟨nofun, nofun, nofun, nofun, nofun, nofun, nofun, nofun, nofun, nofun, nofun⟩, nofun, nofun, nofun,
    nofun⟩

/-- Every hypothesis: a read-only instruction on memory. -/
theorem witness_OnlyListedInstructionsWriteMemory :
    let i := Instr.tst (.ext 0xFFFE#16)
    (∃ t, exec i demo = .next t) ∧
    (∀ ea, i ≠ .sta ea ∧ i ≠ .stb ea ∧ i ≠ .std ea ∧ i ≠ .stx ea ∧ i ≠ .sty ea ∧ i ≠ .stu ea ∧ i ≠ .sts ea ∧ i ≠ .clr ea ∧
      i ≠ .neg ea ∧ i ≠ .inc ea ∧ i ≠ .dec ea ∧ i ≠ .com ea ∧ i ≠ .asl ea ∧ i ≠ .asr ea ∧ i ≠ .lsr ea ∧ i ≠ .rol ea ∧
      i ≠ .ror ea ∧ i ≠ .jsr ea) ∧
    (∀ m o8 o16, i ≠ .pshs m ∧ i ≠ .pshu m ∧ i ≠ .bsr o8 ∧ i ≠ .lbsr o16 ∧ i ≠ .cwai o8) ∧
    i ≠ .swi ∧ i ≠ .swi2 ∧ i ≠ .swi3 :=
  ⟨⟨_, rfl⟩, fun _ => ⟨nofun, nofun, nofun, nofun, nofun, nofun, nofun, nofun, nofun, nofun, nofun, nofun, nofun, nofun, nofun,
    nofun, nofun, nofun⟩, fun _ _ _ => ⟨nofun, nofun, nofun, nofun, nofun⟩, nofun, nofun, nofun⟩

end Sys2Proof.Tests
end

namespace Sys2Proof.Machine

/-! ## The state after RESET and the registers -/

/-- Settles O7: both directions are `joinBytes` and its halves as numbers. -/
theorem dIsTheAliasOfAAndB : Obligations.DIsTheAliasOfAAndB := by
  intro s a b d
  exact ⟨joinBytes_toNat a b, hiByte_toNat d, loByte_toNat d⟩

/-- Settles O53: `State.reset` is a closed state, and RESET fetches its vector from two unlisted bytes. -/
theorem resetStateIsSettled : Obligations.ResetStateIsSettled := by
  have hsettled : Settled State.reset := ⟨rfl, rfl, rfl, .inl rfl⟩
  have hquiet : NoRequest State.reset := ⟨rfl, rfl, rfl, nofun, nofun⟩
  exact ⟨hsettled, rfl, hquiet, rfl, rfl, rfl⟩

/-! ## Fetching -/

theorem bytesFrom_of_mem {s t : State} (h : t.mem = s.mem) (n : Nat) (a : Word) : bytesFrom t n a = bytesFrom s n a := by
  induction n generalizing a with
  | zero => rfl
  | succ n ih => simp only [bytesFrom, byteAt_of_mem h, ih]

/-- R90, R93: everything `n` calls of `Fetch8()` do. -/
theorem fetchBytes_eq (n : Nat) (s : State) :
    fetchBytes n s =
      { s with
        regs := { s.regs with pc := s.regs.pc + BitVec.ofNat 16 n }
        bus := (readCalls s.regs.pc (bytesFrom s n s.regs.pc)).reverse ++ s.bus } := by
  induction n generalizing s with
  | zero => simp [fetchBytes, bytesFrom, readCalls]
  | succ n ih =>
    have hbytes : bytesFrom (fetch8 s) n (s.regs.pc + 1#16) = bytesFrom s n (s.regs.pc + 1#16) := 
      bytesFrom_of_mem (s := s) (t := fetch8 s) rfl n _
    have hpc : s.regs.pc + BitVec.ofNat 16 (n + 1) = s.regs.pc + 1#16 + BitVec.ofNat 16 n := by
      rw [BitVec.add_assoc, ← BitVec.ofNat_add, Nat.add_comm n 1]
    have hfetch := ih (fetch8 s)
    rw [fetch8_eq] at hfetch hbytes
    simp only [fetchBytes, fetch8_eq, hfetch, hbytes, hpc, bytesFrom, readCalls, List.reverse_cons, List.append_assoc,
      List.singleton_append]

/-- Settles O6, by what `fetchBytes` does; the rest of `fetched` sets the dispatcher's own fields. -/
theorem fetchReadsTheInstructionsBytes : Obligations.FetchReadsTheInstructionsBytes := by
  intro s d t
  have hfetch : t = fetched d s := rfl
  rw [fetched, fetchBytes_eq] at hfetch
  rw [hfetch]
  exact ⟨rfl, fun _ => rfl, rfl, rfl, rfl, rfl, rfl, rfl, rfl, rfl⟩

/-! ## Time -/

/-- R44: after a step's cycles the lines are the environment's, and the scratch registers are as before. -/
theorem runOut_time (s : State) :
    ∃ n, (runOut s).cycles = s.cycles + n ∧ (runOut s).lines = (ticks n s).lines ∧ (runOut s).inputs = (ticks n s).inputs ∧
      (runOut s).scratch = s.scratch ∧ (runOut s).offset = s.offset := by
  cases hd : s.clocksDue with
  | zero =>
    rw [runOut_idle hd, tick_eq]
    exact ⟨1, rfl, rfl, rfl, rfl, rfl⟩
  | succ n =>
    rw [runOut_due hd]
    exact ⟨n + 1, rfl, rfl, rfl, rfl, rfl⟩

/-- Settles O55: what a `Step` call starts leaves lines and time alone, and then only cycles pass. -/
theorem stepNeverWritesTheLines : Obligations.StepNeverWritesTheLines := by
  intro s t h
  obtain ⟨r, hr, ⟨hscratch, hoffset, hlines, hinputs, hcycles⟩, -⟩ := running_spec s
  obtain rfl : runOut r = t := Host.Outcome.next.inj ((step_of_running hr).symm.trans h)
  obtain ⟨n, hn, hl, hi, hs, ho⟩ := runOut_time r
  have hspan : (runOut r).cycles - s.cycles = n := by rw [hn, hcycles]; omega
  obtain ⟨hticks, hticksInputs⟩ := ticks_lines_of s r hlines hinputs n
  rw [hspan]
  exact ⟨hl.trans hticks, hi.trans hticksInputs, hs.trans hscratch, ho.trans hoffset⟩

/-! ## Settled states -/

/-- R40: what the block may do between two steps: nothing, or wait. -/
def Active.Rests (a : Active) : Prop := a = .none ∨ a = .waitCwai ∨ a = .waitSync

theorem waitOf_rests (i : Instr) : ((waitOf i).getD .none).Rests := by
  unfold waitOf
  split
  · exact .inr (.inl rfl)
  · exact .inr (.inr rfl)
  · exact .inl rfl

/-- R100, R386, R387: every entry of page 0 takes more cycles than leaving its wait does. -/
theorem exitCycles_lt_opTable0 (n : Nat) (hn : n < 256) (b1 b2 b3 : Byte) :
    exitCycles ((waitOf ((opTable0 (BitVec.ofNat 8 n)).form.assemble b1 b2 b3).1).getD .none) <
      (opTable0 (BitVec.ofNat 8 n)).cycles := by
  interval_cases n <;> exact Nat.le_of_ble_eq_true rfl

/-- R100 to R102: the same of all three pages; on the prefixed ones nothing waits. -/
theorem exitCycles_lt_opTable (page : Page) (opcode b1 b2 b3 : Byte) :
    exitCycles ((waitOf ((opTable page opcode).form.assemble b1 b2 b3).1).getD .none) < (opTable page opcode).cycles := by
  cases page with
  | p0 => simpa [opTable] using exitCycles_lt_opTable0 opcode.toNat opcode.isLt b1 b2 b3
  | p1 =>
    simp only [opTable, opTable1]
    split <;> exact Nat.le_of_ble_eq_true rfl
  | p2 =>
    simp only [opTable, opTable2]
    split <;> exact Nat.le_of_ble_eq_true rfl

/-- R94: a decoded instruction is what its entry builds from some operand bytes. -/
theorem decodeWindow_instr (b0 b1 b2 b3 b4 : Byte) :
    ∃ o1 o2 o3, (decodeWindow b0 b1 b2 b3 b4).instr =
      ((opTable (decodeWindow b0 b1 b2 b3 b4).page (decodeWindow b0 b1 b2 b3 b4).opcode).form.assemble o1 o2 o3).1 := by
  unfold decodeWindow
  split
  · exact ⟨b2, b3, b4, rfl⟩
  · exact ⟨b1, b2, b3, rfl⟩

/-- R97: an instruction takes at least one cycle before it retires or waits. -/
theorem instrCycles_pos {s t u : State} (h : t.resume = (waitOf (decodeAt s).instr).getD .none) :
    0 < instrCycles (decodeAt s) u t := by
  obtain ⟨o1, o2, o3, hi⟩ : ∃ o1 o2 o3, (decodeAt s).instr =
      ((opTable (decodeAt s).page (decodeAt s).opcode).form.assemble o1 o2 o3).1 := decodeWindow_instr _ _ _ _ _
  have hlt := exitCycles_lt_opTable (decodeAt s).page (decodeAt s).opcode o1 o2 o3
  rw [← hi, ← h] at hlt
  unfold instrCycles
  omega

/-- A sequence has started, and the block rests once its cycles are over. -/
def Started (s : State) : Prop := 0 < s.clocksDue ∧ s.resume.Rests

theorem startException_started (kind : ExcKind) (s : State) : Started (startException kind s) := by
  refine ⟨?_, .inl rfl⟩
  cases kind <;> exact Nat.le_of_ble_eq_true rfl

theorem startInstruction_started {s t : State} (h : startInstruction s = .next t) : Started t := by
  obtain ⟨u, hexec, hstart, -⟩ := startInstruction_spec s
  have hresume : u.resume = (waitOf (decodeAt s).instr).getD .none := exec_resume _ _ _ hexec
  obtain rfl := Host.Outcome.next.inj (hstart.symm.trans h)
  refine ⟨instrCycles_pos hresume, ?_⟩
  show u.resume.Rests
  rw [hresume]
  exact waitOf_rests _

theorem boundaryCheck_cases {s t : State} (h : boundaryCheck s = .next t) : (t = s ∧ s.lines.halt = true) ∨ Started t := by
  unfold boundaryCheck at h
  split at h
  next hhalt => exact .inl ⟨(Host.Outcome.next.inj h).symm, hhalt⟩
  next =>
    split at h
    · obtain rfl := Host.Outcome.next.inj h
      exact .inr (startException_started _ s)
    · exact .inr (startInstruction_started h)

theorem leaveWait_started {n : Nat} (hn : 0 < n) (s : State) : Started (leaveWait n s) := ⟨hn, .inl rfl⟩

theorem cwaiWaitCycle_cases (s : State) : cwaiWaitCycle s = s ∨ Started (cwaiWaitCycle s) := by
  unfold cwaiWaitCycle
  split
  · exact .inr (startException_started .reset s)
  iterate 3 · exact .inr (leaveWait_started (by decide) _)
  · exact .inl rfl

theorem syncWaitCycle_cases (s : State) : syncWaitCycle s = s ∨ Started (syncWaitCycle s) := by
  unfold syncWaitCycle
  split
  · exact .inr (startException_started .reset s)
  · split
    · exact .inr (leaveWait_started (by decide) s)
    · exact .inl rfl

/-- R96, R421: from a settled state a `Step` call starts nothing (HALT at a boundary, or a wait that goes on) or a sequence. -/
theorem running_cases {s t : State} (hs : Settled s) (h : running s = .next t) :
    (t = s ∧ (s.active = .none → s.lines.halt = true)) ∨ Started t := by
  obtain ⟨hdue, -, -, hactive⟩ := hs
  simp only [running, hdue, if_true, beginSequence] at h
  rcases hactive with ha | ha | ha <;> simp only [ha] at h
  · exact (boundaryCheck_cases h).imp_left fun ⟨heq, hhalt⟩ => ⟨heq, fun _ => hhalt⟩
  · obtain rfl := Host.Outcome.next.inj h
    exact (cwaiWaitCycle_cases s).imp_left fun heq => ⟨heq, fun hn => by simp [ha] at hn⟩
  · obtain rfl := Host.Outcome.next.inj h
    exact (syncWaitCycle_cases s).imp_left fun heq => ⟨heq, fun hn => by simp [ha] at hn⟩

theorem tick_settled {s : State} (h : Settled s) : Settled (tick s) := by
  rw [tick_eq]
  exact h

/-- R98, R41: a started sequence ends settled, with the sentinel where it ends at a boundary. -/
theorem runOut_started {s : State} (h : Started s) :
    Settled (runOut s) ∧ ((runOut s).active = .none → (runOut s).clocksUsed = 255#8) := by
  obtain ⟨hdue, hrests⟩ := h
  obtain ⟨n, hn⟩ : ∃ n, s.clocksDue = n + 1 := ⟨s.clocksDue - 1, by omega⟩
  rw [runOut_due hn]
  exact ⟨⟨rfl, rfl, rfl, hrests⟩, fun hnone => if_pos hnone⟩

/-- Settles O52: a `Step` call of a settled state starts nothing, or a sequence that ends settled. -/
theorem stepKeepsSettled : Obligations.StepKeepsSettled := by
  intro s t hs h
  obtain ⟨r, hr, -⟩ := running_spec s
  obtain rfl : runOut r = t := Host.Outcome.next.inj ((step_of_running hr).symm.trans h)
  rcases running_cases hs hr with ⟨rfl, hhalt⟩ | hstarted
  · have ⟨hdue, _⟩ := hs
    rw [runOut_idle hdue]
    refine ⟨tick_settled hs, fun ha hno => ?_⟩
    rw [hhalt ha] at hno
    exact absurd hno (by decide)
  · obtain ⟨hsettled, hsentinel⟩ := runOut_started hstarted
    exact ⟨hsettled, fun _ _ => hsentinel⟩

end Sys2Proof.Machine

namespace Sys2Proof.Machine

/-! ## The scratch registers -/

/-- The state with other scratch registers (R28). -/
def State.withScratch (x y : Word) (s : State) : State := { s with scratch := x, offset := y }

@[simp] theorem withScratch_active (x y : Word) (s : State) : (s.withScratch x y).active = s.active := rfl
@[simp] theorem withScratch_clocksDue (x y : Word) (s : State) : (s.withScratch x y).clocksDue = s.clocksDue := rfl
@[simp] theorem withScratch_lines (x y : Word) (s : State) : (s.withScratch x y).lines = s.lines := rfl
@[simp] theorem withScratch_get8 (x y : Word) (s : State) (r : Reg8) : (s.withScratch x y).get8 r = s.get8 r := rfl
@[simp] theorem decodeAt_withScratch (x y : Word) (s : State) : decodeAt (s.withScratch x y) = decodeAt s := rfl

/-- R28: an operation neither reads nor writes the scratch registers. -/
def IgnoresScratch (f : State → State) : Prop := ∀ x y s, f (s.withScratch x y) = (f s).withScratch x y

/-- The same of a resolver: what it answers, and whether it does, does not depend on them. -/
def ResolvesWithoutScratch {α : Type} (o : State → Option (α × State)) : Prop :=
  ∀ x y s, o (s.withScratch x y) = (o s).map fun p => (p.1, p.2.withScratch x y)

theorem IgnoresScratch.comp {f g : State → State} (hg : IgnoresScratch g) (hf : IgnoresScratch f) :
    IgnoresScratch fun s => g (f s) := by
  intro x y s
  simp only [hf x y s, hg x y (f s)]

/-- An operation behind a condition that does not look at the scratch registers. -/
theorem IgnoresScratch.onlyIf {f : State → State} (hf : IgnoresScratch f) {c : State → Bool}
    (hc : ∀ x y s, c (s.withScratch x y) = c s) : IgnoresScratch fun s => if c s then f s else s := by
  intro x y s
  simp only [hc, hf x y s]
  split <;> rfl

/-! ### Exceptions and stacks -/

theorem pushImage_ignoresScratch (sp : Reg16) (bs : List Byte) : IgnoresScratch (pushImage sp bs) := by
  intro x y s
  induction bs with
  | nil => rfl
  | cons b bs ih => simp only [pushImage, ih]; rfl

theorem pushMask_ignoresScratch (sp other : Reg16) (m : StackMask) : IgnoresScratch (pushMask sp other m) := by
  intro x y s
  rw [pushMask_eq_pushImage, pushMask_eq_pushImage, ← pushImage_ignoresScratch]
  rfl

theorem pullReg8_ignoresScratch (sp : Reg16) (r : Reg8) : IgnoresScratch (pullReg8 sp r) := fun _ _ _ => rfl

theorem pullReg16_ignoresScratch (sp r : Reg16) : IgnoresScratch (pullReg16 sp r) := fun _ _ _ => rfl

theorem pullMask_ignoresScratch (sp other : Reg16) (m : StackMask) : IgnoresScratch (pullMask sp other m) := by
  have byte (c : Bool) (r : Reg8) : IgnoresScratch fun s => if c then pullReg8 sp r s else s :=
    (pullReg8_ignoresScratch sp r).onlyIf fun _ _ _ => rfl
  have word (c : Bool) (r : Reg16) : IgnoresScratch fun s => if c then pullReg16 sp r s else s :=
    (pullReg16_ignoresScratch sp r).onlyIf fun _ _ _ => rfl
  exact (word m.pc .pc).comp <| (word m.other other).comp <| (word m.y .y).comp <| (word m.x .x).comp <|
    (byte m.dp .dp).comp <| (byte m.b .b).comp <| (byte m.a .a).comp (byte m.cc .cc)

theorem enterException_ignoresScratch (full masks : Bool) (v : Word) : IgnoresScratch (enterException full masks v) := by
  intro x y s
  cases full <;> cases masks <;> rfl

theorem returnFromException_ignoresScratch : IgnoresScratch returnFromException := by
  have long := (pullReg16_ignoresScratch .s .u).comp <| (pullReg16_ignoresScratch .s .y).comp <|
    (pullReg16_ignoresScratch .s .x).comp <| (pullReg8_ignoresScratch .s .dp).comp <|
      (pullReg8_ignoresScratch .s .b).comp (pullReg8_ignoresScratch .s .a)
  have frame := long.onlyIf (c := fun s => Flag.e.get (s.get8 .cc)) fun _ _ _ => rfl
  exact (pullReg16_ignoresScratch .s .pc).comp (frame.comp (pullReg8_ignoresScratch .s .cc))

theorem sequence_ignoresScratch (kind : ExcKind) : IgnoresScratch kind.sequence := by
  cases kind with
  | reset => exact fun _ _ _ => rfl
  | nmi | firq | irq => exact enterException_ignoresScratch _ _ _

/-! ### Operands and shapes -/

theorem indirect_withScratch (ind : Bool) (p x y : Word) (s : State) :
    indirect ind p (s.withScratch x y) = ((indirect ind p s).1, (indirect ind p s).2.withScratch x y) := by
  cases ind <;> rfl

theorem resolveIdx_withoutScratch (i : Idx) : ResolvesWithoutScratch (resolveIdx i) := by
  intro x y s
  cases i
  case off5 | inc1 | dec1 | illegal => rfl
  case inc2 | dec2 => exact congrArg some (indirect_withScratch _ _ x y (s.set16 _ _))
  all_goals exact congrArg some (indirect_withScratch _ _ x y _)

theorem resolve_withoutScratch (ea : Ea) : ResolvesWithoutScratch (resolve ea) := by
  cases ea with
  | dir | ext => exact fun _ _ _ => rfl
  | idx i => exact resolveIdx_withoutScratch i

theorem operand8_withoutScratch (src : Src8) : ResolvesWithoutScratch (operand8 src) := by
  intro x y s
  cases src with
  | imm => rfl
  | mem ea =>
    simp only [operand8, resolve_withoutScratch ea x y s, Option.map_map]
    rfl

theorem operand16_withoutScratch (src : Src16) : ResolvesWithoutScratch (operand16 src) := by
  intro x y s
  cases src with
  | imm => rfl
  | mem ea =>
    simp only [operand16, resolve_withoutScratch ea x y s, Option.map_map]
    rfl

theorem orNothing_ignoresScratch {α : Type} {o : State → Option (α × State)} {f : α → State → State}
    (ho : ResolvesWithoutScratch o) (hf : ∀ a, IgnoresScratch (f a)) : IgnoresScratch fun s => orNothing (o s) f s := by
  intro x y s
  simp only [ho x y s]
  cases o s with
  | none => rfl
  | some p => exact hf p.1 x y p.2

theorem accumulate8_ignoresScratch (r : Reg8) (op : Byte → Byte → Byte → Byte × Byte) (src : Src8) :
    IgnoresScratch (accumulate8 r op src) :=
  orNothing_ignoresScratch (operand8_withoutScratch src) fun _ _ _ _ => rfl

theorem accumulate16_ignoresScratch (r : Reg16) (op : Word → Word → Byte → Word × Byte) (src : Src16) :
    IgnoresScratch (accumulate16 r op src) :=
  orNothing_ignoresScratch (operand16_withoutScratch src) fun _ _ _ _ => rfl

theorem compare8_ignoresScratch (r : Reg8) (op : Byte → Byte → Byte → Byte × Byte) (src : Src8) :
    IgnoresScratch (compare8 r op src) :=
  orNothing_ignoresScratch (operand8_withoutScratch src) fun _ _ _ _ => rfl

theorem compare16_ignoresScratch (r : Reg16) (op : Word → Word → Byte → Word × Byte) (src : Src16) :
    IgnoresScratch (compare16 r op src) :=
  orNothing_ignoresScratch (operand16_withoutScratch src) fun _ _ _ _ => rfl

/-- The shapes that work on an effective address: stores, read-modify-writes, tests, jumps and calls. -/
theorem onAddress_ignoresScratch (ea : Ea) {f : Word → State → State} (hf : ∀ a, IgnoresScratch (f a)) :
    IgnoresScratch fun s => orNothing (resolve ea s) f s :=
  orNothing_ignoresScratch (resolve_withoutScratch ea) hf

theorem onIndexed_ignoresScratch (i : Idx) {f : Word → State → State} (hf : ∀ a, IgnoresScratch (f a)) :
    IgnoresScratch fun s => orNothing (resolveIdx i s) f s :=
  orNothing_ignoresScratch (resolveIdx_withoutScratch i) hf

theorem branch_ignoresScratch (k : Cond) (offset : Word) : IgnoresScratch (branch k offset) :=
  IgnoresScratch.onlyIf (f := fun s => s.set16 .pc (s.get16 .pc + offset)) (c := fun s => k.taken (s.get8 .cc))
    (fun _ _ _ => rfl) fun _ _ _ => rfl

theorem transfer_ignoresScratch (p : RegPair) : IgnoresScratch (transfer p) := by
  intro x y s
  unfold transfer
  split <;> rfl

theorem exchange_ignoresScratch (p : RegPair) : IgnoresScratch (exchange p) := by
  intro x y s
  unfold exchange
  split <;> rfl

/-! ### Instructions -/

/-- R28: no meaning depends on the scratch registers or changes them. -/
theorem exec_withScratch {i : Instr} {s t : State} (x y : Word) (h : exec i s = .next t) :
    exec i (s.withScratch x y) = .next (t.withScratch x y) := by
  cases i <;> cases h <;> apply congrArg Host.Outcome.next
  case lda | ldb | adda | addb | adca | adcb | suba | subb | sbca | sbcb | anda | andb | ora | orb | eora | eorb =>
    exact accumulate8_ignoresScratch _ _ _ x y s
  case cmpa | cmpb | bita | bitb => exact compare8_ignoresScratch _ _ _ x y s
  case ldd | ldx | ldy | ldu | lds | addd | subd => exact accumulate16_ignoresScratch _ _ _ x y s
  case cmpd | cmpx | cmpy | cmpu | cmps => exact compare16_ignoresScratch _ _ _ x y s
  case sta | stb | std | stx | sty | stu | sts | clr | neg | inc | dec | com | asl | asr | lsr | rol | ror | tst | jmp | jsr =>
    exact onAddress_ignoresScratch _ (fun _ _ _ _ => rfl) x y s
  case leax | leay | leas | leau => exact onIndexed_ignoresScratch _ (fun _ _ _ _ => rfl) x y s
  case bra | brn | bhi | bls | bcc | bcs | bne | beq | bvc | bvs | bpl | bmi | bge | blt | bgt | ble
      | lbra | lbrn | lbhi | lbls | lbcc | lbcs | lbne | lbeq | lbvc | lbvs | lbpl | lbmi | lbge | lblt | lbgt | lble =>
    exact branch_ignoresScratch _ _ x y s
  case pshs | pshu => exact pushMask_ignoresScratch _ _ _ x y s
  case puls | pulu => exact pullMask_ignoresScratch _ _ _ x y s
  case tfr => exact transfer_ignoresScratch _ x y s
  case exg => exact exchange_ignoresScratch _ x y s
  case swi | swi2 | swi3 => exact enterException_ignoresScratch _ _ _ x y s
  case rti => exact returnFromException_ignoresScratch x y s
  all_goals rfl

/-! ### Steps -/

theorem fetchBytes_ignoresScratch (n : Nat) : IgnoresScratch (fetchBytes n) := by
  intro x y s
  induction n generalizing s with
  | zero => rfl
  | succ n ih => exact ih (fetch8 s)

theorem fetched_ignoresScratch (d : Decoded) : IgnoresScratch (fetched d) := by
  intro x y s
  simp only [fetched, fetchBytes_ignoresScratch d.length x y s]
  rfl

theorem startException_ignoresScratch (kind : ExcKind) : IgnoresScratch (startException kind) := by
  intro x y s
  simp only [startException, sequence_ignoresScratch kind x y s]
  rfl

theorem startInstruction_withScratch {s t : State} (x y : Word) (h : startInstruction s = .next t) :
    startInstruction (s.withScratch x y) = .next (t.withScratch x y) := by
  obtain ⟨u, hexec, hstart, -⟩ := startInstruction_spec s
  obtain rfl := Host.Outcome.next.inj (hstart.symm.trans h)
  simp only [startInstruction, decodeAt_withScratch, fetched_ignoresScratch _ x y s, exec_withScratch x y hexec]
  rfl

theorem boundaryCheck_withScratch {s t : State} (x y : Word) (h : boundaryCheck s = .next t) :
    boundaryCheck (s.withScratch x y) = .next (t.withScratch x y) := by
  unfold boundaryCheck at h ⊢
  rw [withScratch_lines, withScratch_get8]
  split at h
  next hhalt =>
    cases h
    exact if_pos hhalt
  next hhalt =>
    rw [if_neg hhalt]
    split at h
    next kind _ =>
      cases h
      rw [startException_ignoresScratch]
    next => exact startInstruction_withScratch x y h

theorem cwaiWaitCycle_ignoresScratch : IgnoresScratch cwaiWaitCycle := by
  intro x y s
  unfold cwaiWaitCycle
  rw [withScratch_lines, withScratch_get8]
  split
  · exact startException_ignoresScratch .reset x y s
  all_goals rfl

theorem syncWaitCycle_ignoresScratch : IgnoresScratch syncWaitCycle := by
  intro x y s
  unfold syncWaitCycle
  rw [withScratch_lines]
  split
  · exact startException_ignoresScratch .reset x y s
  · split <;> rfl

theorem running_withScratch {s t : State} (x y : Word) (h : running s = .next t) :
    running (s.withScratch x y) = .next (t.withScratch x y) := by
  unfold running beginSequence at h ⊢
  rw [withScratch_clocksDue, withScratch_active]
  by_cases hdue : s.clocksDue = 0
  · rw [if_pos hdue] at h ⊢
    cases ha : s.active <;> simp only [ha] at h ⊢
    case none => exact boundaryCheck_withScratch x y h
    case waitCwai => cases h; rw [cwaiWaitCycle_ignoresScratch]
    case waitSync => cases h; rw [syncWaitCycle_ignoresScratch]
    all_goals cases h; rfl
  · rw [if_neg hdue] at h ⊢
    cases h
    rfl

theorem tick_ignoresScratch : IgnoresScratch tick := by
  intro x y s
  obtain ⟨_, _, _, _, _, _, _, _, _, inputs, _, _, _⟩ := s
  cases inputs <;> rfl

theorem runOut_ignoresScratch : IgnoresScratch runOut := by
  intro x y s
  cases hd : s.clocksDue with
  | zero => rw [runOut_idle hd, runOut_idle (s := s.withScratch x y) hd, tick_ignoresScratch]
  | succ n =>
    obtain ⟨hlines, hinputs⟩ := ticks_lines_of s (s.withScratch x y) rfl rfl (n + 1)
    rw [runOut_due hd, runOut_due (s := s.withScratch x y) hd, hlines, hinputs]
    rfl

/-- Settles O56: what a `Step` call starts and the cycles that follow commute with replacing the scratch registers. -/
theorem scratchIsNeverObservable : Obligations.ScratchIsNeverObservable := by
  intro s t x y h
  obtain ⟨r, hr, -⟩ := running_spec s
  obtain rfl : runOut r = t := Host.Outcome.next.inj ((step_of_running hr).symm.trans h)
  calc step (s.withScratch x y) = .next (runOut (r.withScratch x y)) := step_of_running (running_withScratch x y hr)
    _ = .next ((runOut r).withScratch x y) := by rw [runOut_ignoresScratch]

end Sys2Proof.Machine

namespace Sys2Proof.Machine

/-! ## Which flags an operation writes -/

/-- The flags that are not listed are the same in two values of `CC`. -/
def AgreeOutside (written : List Flag) (cc cc' : Byte) : Prop := ∀ k : Flag, k ∉ written → k.get cc' = k.get cc

/-- Flags of a result: what every arithmetic, logical and shift operation may write (R31 to R34). -/
def resultFlags : List Flag := [.n, .z, .v, .c]

/-- With the half carry (R35). -/
def sumFlags : List Flag := [.h, .n, .z, .v, .c]

theorem AgreeOutside.put {written : List Flag} {cc cc' : Byte} (h : AgreeOutside written cc cc') {q : Flag}
    (hq : q ∈ written) (b : Bool) : AgreeOutside written cc (q.put b cc') := by
  intro k hk
  rw [Flag.get_put, if_neg (by rintro rfl; exact hk hq)]
  exact h k hk

theorem nz8_agree (r cc : Byte) : AgreeOutside resultFlags cc (nz8 r cc) :=
  AgreeOutside.put (AgreeOutside.put (fun _ _ => rfl) (by decide) _) (by decide) _

theorem nz16_agree (r : Word) (cc : Byte) : AgreeOutside resultFlags cc (nz16 r cc) :=
  AgreeOutside.put (AgreeOutside.put (fun _ _ => rfl) (by decide) _) (by decide) _

theorem nzv8_agree (r cc : Byte) : AgreeOutside resultFlags cc (nzv8 r cc) := (nz8_agree r cc).put (by decide) _

theorem nzv16_agree (r : Word) (cc : Byte) : AgreeOutside resultFlags cc (nzv16 r cc) := (nz16_agree r cc).put (by decide) _

theorem sub8_agree (a b : Byte) (c : Bool) (cc : Byte) : AgreeOutside resultFlags cc (sub8 a b c cc).2 :=
  ((nz8_agree _ cc).put (by decide) _).put (by decide) _

theorem add16_agree (a b : Word) (cc : Byte) : AgreeOutside resultFlags cc (add16 a b cc).2 :=
  ((nz16_agree _ cc).put (by decide) _).put (by decide) _

theorem sub16_agree (a b : Word) (cc : Byte) : AgreeOutside resultFlags cc (sub16 a b cc).2 :=
  ((nz16_agree _ cc).put (by decide) _).put (by decide) _

theorem add8_agree (a b : Byte) (c : Bool) (cc : Byte) : AgreeOutside sumFlags cc (add8 a b c cc).2 := by
  obtain ⟨_, _, _, _, _, _, h⟩ := add8_spec a b c cc
  exact h

/-- A one-operand operation writes no flag but those of its result. -/
def UnaryFlags (op : Byte → Byte → Byte × Byte) : Prop := ∀ m cc, AgreeOutside resultFlags cc (op m cc).2

@[simp] theorem negOp_flags : UnaryFlags negOp := fun m cc => sub8_agree _ m _ cc
@[simp] theorem incOp_flags : UnaryFlags incOp := fun _ cc => (nz8_agree _ cc).put (by decide) _
@[simp] theorem decOp_flags : UnaryFlags decOp := fun _ cc => (nz8_agree _ cc).put (by decide) _
@[simp] theorem tstOp_flags : UnaryFlags tstOp := fun m cc => nzv8_agree m cc
@[simp] theorem comOp_flags : UnaryFlags comOp := fun _ cc => (nzv8_agree _ cc).put (by decide) _
@[simp] theorem aslOp_flags : UnaryFlags aslOp := fun _ cc => ((nz8_agree _ cc).put (by decide) _).put (by decide) _
@[simp] theorem asrOp_flags : UnaryFlags asrOp := fun _ cc => (nz8_agree _ cc).put (by decide) _
@[simp] theorem lsrOp_flags : UnaryFlags lsrOp := fun _ cc => (nz8_agree _ cc).put (by decide) _
@[simp] theorem rolOp_flags : UnaryFlags rolOp := fun _ cc => ((nz8_agree _ cc).put (by decide) _).put (by decide) _
@[simp] theorem rorOp_flags : UnaryFlags rorOp := fun _ cc => (nz8_agree _ cc).put (by decide) _
@[simp] theorem daaOp_flags : UnaryFlags daaOp := fun _ cc => (nz8_agree _ cc).put (by decide) _
@[simp] theorem clrOp_flags : UnaryFlags clrOp := fun m cc => by
  obtain ⟨_, _, _, _, _, h⟩ := clrOp_spec m cc
  exact h

theorem mulOp_agree (a b cc : Byte) : AgreeOutside resultFlags cc (mulOp a b cc).2 :=
  AgreeOutside.put (AgreeOutside.put (fun _ _ => rfl) (by decide) _) (by decide) _

/-! ## What an instruction spares of `DP` and `CC` -/

/-- `DP` and the flags that are not listed are as before. -/
def Spares (written : List Flag) (s t : State) : Prop :=
  t.regs.dp = s.regs.dp ∧ AgreeOutside written s.regs.cc t.regs.cc

theorem Spares.refl (written : List Flag) (s : State) : Spares written s s := ⟨rfl, fun _ _ => rfl⟩

theorem Spares.trans {written : List Flag} {s t u : State} (h : Spares written s t) (g : Spares written t u) :
    Spares written s u := ⟨g.1.trans h.1, fun k hk => (g.2 k hk).trans (h.2 k hk)⟩

theorem set16_dp (r : Regs) (k : Reg16) (v : Word) : (r.set16 k v).dp = r.dp := by cases k <;> rfl

theorem spares_set16 (written : List Flag) (s : State) (r : Reg16) (v : Word) : Spares written s (s.set16 r v) :=
  ⟨set16_dp s.regs r v, fun _ _ => by rw [set16_regs, set16_cc]⟩

theorem spares_set8_cc {written : List Flag} {s : State} {cc : Byte} (h : AgreeOutside written s.regs.cc cc) :
    Spares written s (s.set8 .cc cc) := ⟨rfl, h⟩

theorem spares_set16_set8_cc {written : List Flag} {s : State} {r : Reg16} {v : Word} {cc : Byte}
    (h : AgreeOutside written s.regs.cc cc) : Spares written s ((s.set16 r v).set8 .cc cc) := ⟨set16_dp s.regs r v, h⟩

/-- An accumulator: one of the 8-bit registers that instructions compute in. -/
def IsAccumulator (r : Reg8) : Prop := r = .a ∨ r = .b

theorem spares_set8_acc {written : List Flag} {s : State} {r : Reg8} (hr : IsAccumulator r) {v cc : Byte}
    (h : AgreeOutside written s.regs.cc cc) : Spares written s ((s.set8 r v).set8 .cc cc) := by
  rcases hr with rfl | rfl <;> exact ⟨rfl, h⟩

theorem spares_push16 (written : List Flag) (sp : Reg16) (v : Word) (s : State) : Spares written s (push16 sp v s) :=
  (spares_set16 written s sp _).trans (spares_set16 written _ sp _)

theorem spares_pullReg16 (written : List Flag) (sp r : Reg16) (s : State) : Spares written s (pullReg16 sp r s) :=
  ((spares_set16 written s sp _).trans (spares_set16 written _ sp _)).trans (spares_set16 written _ r _)

theorem spares_pushImage (written : List Flag) (sp : Reg16) (bs : List Byte) (s : State) :
    Spares written s (pushImage sp bs s) := by
  induction bs with
  | nil => exact Spares.refl written s
  | cons b bs ih => exact ih.trans (spares_set16 written _ sp _)

theorem spares_stackAll (written : List Flag) (s : State) : Spares written s (stackAll s) := by
  rw [stackAll_eq_pushImage]
  exact spares_pushImage written .s _ s

theorem spares_enterException (full masks : Bool) (v : Word) (s : State) :
    Spares (if masks then [.e, .i, .f] else [.e]) s (enterException full masks v s) := by
  obtain ⟨⟨-, -, -, -, -, -, hflags, -, -, hdp, -⟩, -⟩ := enterException_spec full masks v s
  exact ⟨hdp, hflags⟩

/-- What reading an operand may change is a base register (R154). -/
theorem spares_of_base (written : List Flag) {s t : State}
    (h : t.regs = s.regs ∨ ∃ r v, t.regs = s.regs.set16 (baseReg r) v) :
    Spares written s t := by
  rcases h with h | ⟨r, v, h⟩
  · exact ⟨by rw [h], fun _ _ => by rw [h]⟩
  · exact ⟨by rw [h, set16_dp], fun _ _ => by rw [h, set16_cc]⟩

theorem spares_orNothing {α : Type} {written : List Flag} {o : Option (α × State)} {f : α → State → State} {s : State}
    (ho : ∀ p, o = some p → Spares written s p.2) (hf : ∀ a t, Spares written t (f a t)) :
    Spares written s (orNothing o f s) := by
  cases o with
  | none => exact Spares.refl written s
  | some p => exact (ho p rfl).trans (hf p.1 p.2)

theorem spares_operand8 {written : List Flag} {src : Src8} {f : Byte → State → State} (s : State)
    (hf : ∀ m t, Spares written t (f m t)) : Spares written s (orNothing (operand8 src s) f s) :=
  spares_orNothing (fun _ h => have ⟨_, _, hbase⟩ := operand8_spec h; spares_of_base written hbase) hf

theorem spares_operand16 {written : List Flag} {src : Src16} {f : Word → State → State} (s : State)
    (hf : ∀ m t, Spares written t (f m t)) : Spares written s (orNothing (operand16 src s) f s) :=
  spares_orNothing (fun _ h => have ⟨_, _, hbase⟩ := operand16_spec h; spares_of_base written hbase) hf

theorem spares_onAddress {written : List Flag} {ea : Ea} {f : Word → State → State} (s : State)
    (hf : ∀ a t, Spares written t (f a t)) : Spares written s (orNothing (resolve ea s) f s) :=
  spares_orNothing (fun _ h => have ⟨_, _, hbase⟩ := resolve_spec h; spares_of_base written hbase) hf

theorem spares_onIndexed {written : List Flag} {i : Idx} {f : Word → State → State} (s : State)
    (hf : ∀ a t, Spares written t (f a t)) : Spares written s (orNothing (resolveIdx i s) f s) :=
  spares_orNothing (fun _ h => have ⟨_, _, hbase⟩ := resolveIdx_spec h; spares_of_base written hbase) hf

theorem spares_accumulate8 {written : List Flag} {r : Reg8} {op : Byte → Byte → Byte → Byte × Byte} (hr : IsAccumulator r)
    (hop : ∀ a m cc, AgreeOutside written cc (op a m cc).2) (src : Src8) (s : State) :
    Spares written s (accumulate8 r op src s) :=
  spares_operand8 s fun m _ => spares_set8_acc hr (hop _ m _)

theorem spares_compare8 {written : List Flag} {r : Reg8} {op : Byte → Byte → Byte → Byte × Byte}
    (hop : ∀ a m cc, AgreeOutside written cc (op a m cc).2) (src : Src8) (s : State) :
    Spares written s (compare8 r op src s) :=
  spares_operand8 s fun m _ => spares_set8_cc (hop _ m _)

theorem spares_accumulate16 {written : List Flag} {r : Reg16} {op : Word → Word → Byte → Word × Byte}
    (hop : ∀ a m cc, AgreeOutside written cc (op a m cc).2) (src : Src16) (s : State) :
    Spares written s (accumulate16 r op src s) :=
  spares_operand16 s fun m _ => spares_set16_set8_cc (hop _ m _)

theorem spares_compare16 {written : List Flag} {r : Reg16} {op : Word → Word → Byte → Word × Byte}
    (hop : ∀ a m cc, AgreeOutside written cc (op a m cc).2) (src : Src16) (s : State) :
    Spares written s (compare16 r op src s) :=
  spares_operand16 s fun m _ => spares_set8_cc (hop _ m _)

theorem spares_modify {op : Byte → Byte → Byte × Byte} (hop : UnaryFlags op) (ea : Ea) (s : State) :
    Spares resultFlags s (Machine.modify op ea s) :=
  spares_onAddress s fun _ _ => spares_set8_cc (hop _ _)

theorem spares_modifyAcc {op : Byte → Byte → Byte × Byte} (hop : UnaryFlags op) {r : Reg8} (hr : IsAccumulator r) (s : State) :
    Spares resultFlags s (modifyAcc r op s) :=
  spares_set8_acc hr (hop _ _)

theorem spares_branch (written : List Flag) (k : Cond) (o : Word) (s : State) : Spares written s (branch k o s) := by
  unfold branch
  split
  · exact spares_set16 written s .pc _
  · exact Spares.refl written s

theorem spares_call (written : List Flag) (target : Word) (s : State) : Spares written s (call target s) :=
  (spares_push16 written .s _ s).trans (spares_set16 written _ .pc _)

theorem spares_loadAddressZ (r : Reg16) (i : Idx) (s : State) : Spares resultFlags s (loadAddressZ r i s) :=
  spares_onIndexed s fun _ _ =>
    (spares_set16 _ _ r _).trans (spares_set8_cc (AgreeOutside.put (fun _ _ => rfl) (by decide) _))

/-! ## Every instruction -/

/-- R26: the instructions that load `DP` from elsewhere. -/
def loadsDp : Instr → Bool
  | .tfr _ | .exg _ | .puls _ | .pulu _ | .rti => true
  | _ => false

/-- R30 to R38: the flags an instruction may write. -/
def flagsWritten : Instr → List Flag
  | .tfr _ | .exg _ | .puls _ | .pulu _ | .rti | .andcc _ | .orcc _ | .cwai _ => [.c, .v, .z, .n, .i, .h, .f, .e]
  | .adda _ | .addb _ | .adca _ | .adcb _ => sumFlags
  | .swi => [.e, .i, .f]
  | .swi2 | .swi3 => [.e]
  | _ => resultFlags

theorem spares_of_all {s t : State} (h : t.regs.dp = s.regs.dp) : Spares [.c, .v, .z, .n, .i, .h, .f, .e] s t :=
  ⟨h, fun k hk => absurd (by cases k <;> decide) hk⟩

/-- R26, R36 to R38: a meaning that does not load `DP` leaves it, and the flags it does not write. -/
theorem exec_spares {i : Instr} {s t : State} (h : exec i s = .next t) (hdp : loadsDp i = false) :
    Spares (flagsWritten i) s t := by
  cases i
  case tfr | exg | puls | pulu | rti => cases hdp
  case andcc | orcc => cases h; exact spares_of_all rfl
  case cwai =>
    cases h
    exact spares_of_all (spares_stackAll [] ((s.set8 .cc _).setFlag .e true)).1
  case adda | adca => cases h; exact spares_accumulate8 (.inl rfl) (fun a m cc => add8_agree a m _ cc) _ s
  case addb | adcb => cases h; exact spares_accumulate8 (.inr rfl) (fun a m cc => add8_agree a m _ cc) _ s
  case swi | swi2 | swi3 => cases h; exact spares_enterException _ _ _ s
  case suba | sbca => cases h; exact spares_accumulate8 (.inl rfl) (fun a m cc => sub8_agree a m _ cc) _ s
  case subb | sbcb => cases h; exact spares_accumulate8 (.inr rfl) (fun a m cc => sub8_agree a m _ cc) _ s
  case lda | anda | ora | eora => cases h; exact spares_accumulate8 (.inl rfl) (fun _ _ cc => nzv8_agree _ cc) _ s
  case ldb | andb | orb | eorb => cases h; exact spares_accumulate8 (.inr rfl) (fun _ _ cc => nzv8_agree _ cc) _ s
  case cmpa | cmpb => cases h; exact spares_compare8 (fun a m cc => sub8_agree a m _ cc) _ s
  case bita | bitb => cases h; exact spares_compare8 (fun _ _ cc => nzv8_agree _ cc) _ s
  case ldd | ldx | ldy | ldu | lds => cases h; exact spares_accumulate16 (fun _ m cc => nzv16_agree m cc) _ s
  case addd => cases h; exact spares_accumulate16 add16_agree _ s
  case subd => cases h; exact spares_accumulate16 sub16_agree _ s
  case cmpd | cmpx | cmpy | cmpu | cmps => cases h; exact spares_compare16 sub16_agree _ s
  case sta | stb => cases h; exact spares_onAddress s fun _ _ => spares_set8_cc (nz8_agree _ _)
  case std | stx | sty | stu | sts => cases h; exact spares_onAddress s fun _ _ => spares_set8_cc (nz16_agree _ _)
  case leax | leay => cases h; exact spares_loadAddressZ _ _ s
  case leas | leau => cases h; exact spares_onIndexed s fun _ _ => spares_set16 _ _ _ _
  case clr | neg | inc | dec | com | asl | asr | lsr | rol | ror => cases h; exact spares_modify (by simp) _ s
  case tst => cases h; exact spares_onAddress s fun _ _ => spares_set8_cc (tstOp_flags _ _)
  case clra | nega | inca | deca | tsta | daa | coma | asla | asra | lsra | rola | rora =>
    cases h; exact spares_modifyAcc (by simp) (.inl rfl) s
  case clrb | negb | incb | decb | tstb | comb | aslb | asrb | lsrb | rolb | rorb =>
    cases h; exact spares_modifyAcc (by simp) (.inr rfl) s
  case mul => cases h; exact spares_set16_set8_cc (mulOp_agree _ _ _)
  case sex => cases h; exact spares_set16_set8_cc (nz16_agree _ _)
  case abx => cases h; exact spares_set16 _ s .x _
  case bra | brn | bhi | bls | bcc | bcs | bne | beq | bvc | bvs | bpl | bmi | bge | blt | bgt | ble
      | lbra | lbrn | lbhi | lbls | lbcc | lbcs | lbne | lbeq | lbvc | lbvs | lbpl | lbmi | lbge | lblt | lbgt | lble =>
    cases h; exact spares_branch _ _ _ s
  case bsr | lbsr => cases h; exact spares_call _ _ s
  case jmp => cases h; exact spares_onAddress s fun _ _ => spares_set16 _ _ _ _
  case jsr => cases h; exact spares_onAddress s fun _ _ => spares_call _ _ _
  case rts => cases h; exact spares_pullReg16 _ .s .pc s
  case pshs | pshu =>
    cases h
    rw [pushMask_eq_pushImage]
    exact spares_pushImage _ _ _ s
  case sync | nop | invalid | page2 | page3 => cases h; exact ⟨rfl, fun _ _ => rfl⟩

/-- The mask and the pair of zeros stand for the operands that a list of excluded instructions also quantifies over. -/
theorem loadsDp_eq_false {i : Instr} (hlist : ∀ p m, i ≠ .tfr p ∧ i ≠ .exg p ∧ i ≠ .puls m ∧ i ≠ .pulu m)
    (hrti : i ≠ .rti) : loadsDp i = false := by
  unfold loadsDp
  split
  next p => exact absurd (hlist p (decodeMask 0x00#8)) (by simp)
  next p => exact absurd (hlist p (decodeMask 0x00#8)) (by simp)
  next m => exact absurd (hlist (decodePair 0x00#8) m) (by simp)
  next m => exact absurd (hlist (decodePair 0x00#8) m) (by simp)
  next => exact absurd rfl hrti
  next => rfl

/-- R30 to R38: without those that write all of `CC`, the flags an instruction may write are of four kinds. -/
theorem flagsWritten_cases {i : Instr}
    (hlist : ∀ p m v, i ≠ .tfr p ∧ i ≠ .exg p ∧ i ≠ .puls m ∧ i ≠ .pulu m ∧ i ≠ .andcc v ∧ i ≠ .orcc v ∧ i ≠ .cwai v)
    (hrti : i ≠ .rti) :
    flagsWritten i = resultFlags ∨
    (flagsWritten i = sumFlags ∧ ∃ src, ¬ (i ≠ .adda src ∧ i ≠ .addb src ∧ i ≠ .adca src ∧ i ≠ .adcb src)) ∨
    (flagsWritten i = [.e, .i, .f] ∧ i = .swi) ∨ (flagsWritten i = [.e] ∧ (i = .swi2 ∨ i = .swi3)) := by
  unfold flagsWritten
  split
  next p => exact absurd (hlist p (decodeMask 0x00#8) 0x00#8) (by simp)
  next p => exact absurd (hlist p (decodeMask 0x00#8) 0x00#8) (by simp)
  next m => exact absurd (hlist (decodePair 0x00#8) m 0x00#8) (by simp)
  next m => exact absurd (hlist (decodePair 0x00#8) m 0x00#8) (by simp)
  next => exact absurd rfl hrti
  iterate 3 next v => exact absurd (hlist (decodePair 0x00#8) (decodeMask 0x00#8) v) (by simp)
  iterate 4 next src => exact .inr (.inl ⟨rfl, src, by simp⟩)
  next => exact .inr (.inr (.inl ⟨rfl, rfl⟩))
  next => exact .inr (.inr (.inr ⟨rfl, .inl rfl⟩))
  next => exact .inr (.inr (.inr ⟨rfl, .inr rfl⟩))
  next => exact .inl rfl

theorem Spares.flagSet_iff {written : List Flag} {s t : State} (h : Spares written s t) {k : Flag} (hk : k ∉ written) :
    FlagSet k t ↔ FlagSet k s := by
  obtain ⟨_, hflags⟩ := h
  exact iff_of_eq (congrArg (· = true) (hflags k hk))

/-- Settles O58: by what each instruction spares, and which flags it may write. -/
theorem onlyListedInstructionsWriteDpAndMasks : Obligations.OnlyListedInstructionsWriteDpAndMasks := by
  intro i s t h
  refine ⟨fun hlist hrti => (exec_spares h (loadsDp_eq_false hlist hrti)).1, fun hlist hrti => ?_⟩
  have hdp : loadsDp i = false := loadsDp_eq_false (fun p m => by
    obtain ⟨htfr, hexg, hpuls, hpulu, -⟩ := hlist p m 0x00#8
    exact ⟨htfr, hexg, hpuls, hpulu⟩) hrti
  have keeps {k : Flag} (hk : k ∉ flagsWritten i) : FlagSet k t ↔ FlagSet k s := (exec_spares h hdp).flagSet_iff hk
  rcases flagsWritten_cases hlist hrti with hw | ⟨hw, src, hsum⟩ | ⟨hw, hswi⟩ | ⟨hw, hswi⟩ <;> rw [hw] at keeps
  · exact ⟨fun _ => keeps (by decide), fun _ => ⟨keeps (by decide), keeps (by decide)⟩, fun _ _ _ => keeps (by decide)⟩
  · exact ⟨fun hno => absurd (hno src) hsum, fun _ => ⟨keeps (by decide), keeps (by decide)⟩,
      fun _ _ _ => keeps (by decide)⟩
  · exact ⟨fun _ => keeps (by decide), fun hno => absurd hswi hno, fun hno => absurd hswi hno⟩
  · exact ⟨fun _ => keeps (by decide), fun _ => ⟨keeps (by decide), keeps (by decide)⟩,
      fun _ hno2 hno3 => (hswi.elim hno2 hno3).elim⟩

end Sys2Proof.Machine

namespace Sys2Proof.Machine

/-! ## What a step keeps of memory and the bus -/

/-- R97: the cycles that pass touch neither memory nor the record of the bus. -/
theorem runOut_mem_bus (s : State) : (runOut s).mem = s.mem ∧ (runOut s).bus = s.bus := by
  cases hd : s.clocksDue with
  | zero =>
    rw [runOut_idle hd, tick_eq]
    exact ⟨rfl, rfl⟩
  | succ n =>
    rw [runOut_due hd]
    exact ⟨rfl, rfl⟩

/-- R60, R63, R70: what holds of everything a `Step` call starts holds of the whole step. -/
theorem step_keepsBus {s t : State} (h : step s = .next t) : KeepsBus s t := by
  obtain ⟨r, hr, -, hkeeps⟩ := running_spec s
  obtain rfl : runOut r = t := Host.Outcome.next.inj ((step_of_running hr).symm.trans h)
  obtain ⟨hmem, hbus⟩ := runOut_mem_bus r
  unfold KeepsBus
  rw [hmem, hbus]
  exact hkeeps

/-- Settles O51: every operation that writes memory does so by `Memory.write`, which keeps the canonical form. -/
theorem stepKeepsMemoryCanonical : Obligations.StepKeepsMemoryCanonical := by
  intro s t hwf h
  obtain ⟨hkeeps, -⟩ := step_keepsBus h
  exact hkeeps hwf

/-- Settles O57: the calls a step adds are plain, and a plain read has `readOnly` false. -/
theorem stepReadsAreNotReadOnly : Obligations.StepReadsAreNotReadOnly := by
  intro s t h
  obtain ⟨-, calls, hbus, hplain⟩ := step_keepsBus h
  exact ⟨calls, hbus, fun a ro v hread => hplain (.read a ro v) hread⟩

/-! ## Words in memory -/

theorem word_ne_succ (a : Word) : a ≠ a + 1#16 := by bv_omega

/-- R67: a word written is the word read back. -/
theorem write16_wordAt (a v : Word) (s : State) : (write16 a v s).wordAt a = v := by
  rw [State.wordAt, write16_byteAt, write16_byteAt, if_neg (word_ne_succ a), if_pos rfl, if_pos rfl, joinBytes_hi_lo]

/-- Settles O8: the two writes go to different addresses, so their order is not seen in the bytes. -/
theorem wordsAreBigEndian : Obligations.WordsAreBigEndian := by
  intro s a v
  refine ⟨fun b => ?_, write16_wordAt a v s, rfl, joinBytes_toNat _ _, rfl⟩
  rw [write16_byteAt]
  by_cases hb : b = a
  · rw [if_pos hb, if_pos hb, if_neg (hb ▸ word_ne_succ a)]
  · rw [if_neg hb, if_neg hb]

/-! ## Which instructions write memory -/

/-- The stores, read-modify-writes, pushes, calls and software interrupts. -/
def writesMemory : Instr → Bool
  | .sta _ | .stb _ | .std _ | .stx _ | .sty _ | .stu _ | .sts _ | .clr _ | .neg _ | .inc _ | .dec _ | .com _ | .asl _
  | .asr _ | .lsr _ | .rol _ | .ror _ | .jsr _ | .pshs _ | .pshu _ | .bsr _ | .lbsr _ | .cwai _ | .swi | .swi2 | .swi3 => true
  | _ => false

/-- What stands behind an operand and writes no memory writes none with it (R155, R156). -/
theorem orNothing_mem {α : Type} {o : Option (α × State)} {f : α → State → State} {s : State}
    (ho : ∀ p, o = some p → p.2.mem = s.mem) (hf : ∀ a t, (f a t).mem = t.mem) : (orNothing o f s).mem = s.mem := by
  cases o with
  | none => rfl
  | some p => exact (hf p.1 p.2).trans (ho p rfl)

section

variable {f8 : Byte → State → State} {f16 : Word → State → State}

theorem orNothing_operand8_mem (src : Src8) (s : State) (hf : ∀ m t, (f8 m t).mem = t.mem) :
    (orNothing (operand8 src s) f8 s).mem = s.mem :=
  orNothing_mem (fun _ h => have ⟨hmem, _⟩ := operand8_spec h; hmem) hf

theorem orNothing_operand16_mem (src : Src16) (s : State) (hf : ∀ m t, (f16 m t).mem = t.mem) :
    (orNothing (operand16 src s) f16 s).mem = s.mem :=
  orNothing_mem (fun _ h => have ⟨hmem, _⟩ := operand16_spec h; hmem) hf

theorem orNothing_resolve_mem (ea : Ea) (s : State) (hf : ∀ a t, (f16 a t).mem = t.mem) :
    (orNothing (resolve ea s) f16 s).mem = s.mem :=
  orNothing_mem (fun _ h => have ⟨hmem, _⟩ := resolve_spec h; hmem) hf

theorem orNothing_resolveIdx_mem (i : Idx) (s : State) (hf : ∀ a t, (f16 a t).mem = t.mem) :
    (orNothing (resolveIdx i s) f16 s).mem = s.mem :=
  orNothing_mem (fun _ h => have ⟨hmem, _⟩ := resolveIdx_spec h; hmem) hf

end

theorem branch_mem (k : Cond) (offset : Word) (s : State) : (branch k offset s).mem = s.mem := by
  unfold branch
  split <;> rfl

theorem transfer_mem (p : RegPair) (s : State) : (transfer p s).mem = s.mem := by
  unfold transfer
  split <;> rfl

theorem exchange_mem (p : RegPair) (s : State) : (exchange p s).mem = s.mem := by
  unfold exchange
  split <;> rfl

@[simp] theorem pullReg8_mem (sp : Reg16) (r : Reg8) (s : State) : (pullReg8 sp r s).mem = s.mem := rfl

@[simp] theorem pullReg16_mem (sp r : Reg16) (s : State) : (pullReg16 sp r s).mem = s.mem := rfl

/-- R355: a pull only reads, whichever registers the mask names. -/
theorem pullMask_mem (sp other : Reg16) (m : StackMask) (s : State) : (pullMask sp other m s).mem = s.mem := by
  simp only [pullMask, apply_ite State.mem, pullReg8_mem, pullReg16_mem, ite_self]

/-- R385: both forms of the frame are only read. -/
theorem returnFromException_mem (s : State) : (returnFromException s).mem = s.mem := by
  simp only [returnFromException, apply_ite State.mem, pullReg8_mem, pullReg16_mem, ite_self]

/-- R69: every other meaning leaves the memory as it is. -/
theorem exec_mem {i : Instr} {s t : State} (h : exec i s = .next t) (hw : writesMemory i = false) : t.mem = s.mem := by
  cases i
  case sta | stb | std | stx | sty | stu | sts | clr | neg | inc | dec | com | asl | asr | lsr | rol | ror | jsr | pshs | pshu
      | bsr | lbsr | cwai | swi | swi2 | swi3 => cases hw
  all_goals cases h
  case lda | ldb | adda | addb | adca | adcb | suba | subb | sbca | sbcb | anda | andb | ora | orb | eora | eorb
      | cmpa | cmpb | bita | bitb => exact orNothing_operand8_mem _ s fun _ _ => rfl
  case ldd | ldx | ldy | ldu | lds | addd | subd | cmpd | cmpx | cmpy | cmpu | cmps =>
    exact orNothing_operand16_mem _ s fun _ _ => rfl
  case tst | jmp => exact orNothing_resolve_mem _ s fun _ _ => rfl
  case leax | leay | leas | leau => exact orNothing_resolveIdx_mem _ s fun _ _ => rfl
  case bra | brn | bhi | bls | bcc | bcs | bne | beq | bvc | bvs | bpl | bmi | bge | blt | bgt | ble
      | lbra | lbrn | lbhi | lbls | lbcc | lbcs | lbne | lbeq | lbvc | lbvs | lbpl | lbmi | lbge | lblt | lbgt | lble =>
    exact branch_mem _ _ s
  case tfr => exact transfer_mem _ s
  case exg => exact exchange_mem _ s
  case puls | pulu => exact pullMask_mem _ _ _ s
  case rti => exact returnFromException_mem s
  all_goals rfl

/-- The zeros and the mask stand for the operands that a list of excluded instructions also quantifies over. -/
theorem writesMemory_eq_false {i : Instr}
    (hea : ∀ ea, i ≠ .sta ea ∧ i ≠ .stb ea ∧ i ≠ .std ea ∧ i ≠ .stx ea ∧ i ≠ .sty ea ∧ i ≠ .stu ea ∧ i ≠ .sts ea ∧
      i ≠ .clr ea ∧ i ≠ .neg ea ∧ i ≠ .inc ea ∧ i ≠ .dec ea ∧ i ≠ .com ea ∧ i ≠ .asl ea ∧ i ≠ .asr ea ∧ i ≠ .lsr ea ∧
      i ≠ .rol ea ∧ i ≠ .ror ea ∧ i ≠ .jsr ea)
    (hpush : ∀ m o8 o16, i ≠ .pshs m ∧ i ≠ .pshu m ∧ i ≠ .bsr o8 ∧ i ≠ .lbsr o16 ∧ i ≠ .cwai o8)
    (hswi : i ≠ .swi) (hswi2 : i ≠ .swi2) (hswi3 : i ≠ .swi3) : writesMemory i = false := by
  cases i
  case sta ea | stb ea | std ea | stx ea | sty ea | stu ea | sts ea | clr ea | neg ea | inc ea | dec ea | com ea | asl ea | asr ea
      | lsr ea | rol ea | ror ea | jsr ea => exact absurd (hea ea) (by simp)
  case pshs m | pshu m => exact absurd (hpush m 0x00#8 0x0000#16) (by simp)
  case bsr o8 | cwai o8 => exact absurd (hpush (decodeMask 0x00#8) o8 0x0000#16) (by simp)
  case lbsr o16 => exact absurd (hpush (decodeMask 0x00#8) 0x00#8 o16) (by simp)
  case swi => exact absurd rfl hswi
  case swi2 => exact absurd rfl hswi2
  case swi3 => exact absurd rfl hswi3
  all_goals rfl

/-- Settles O59: outside the list no meaning writes memory. -/
theorem onlyListedInstructionsWriteMemory : Obligations.OnlyListedInstructionsWriteMemory := by
  intro i s t h hea hpush hswi hswi2 hswi3
  exact sameMemory_of_mem (exec_mem h (writesMemory_eq_false hea hpush hswi hswi2 hswi3))

end Sys2Proof.Machine

namespace Sys2Proof

/-! ## The opcode table against the encoder

An entry of the table builds an instruction from one operand.  `Operand` holds an operand of every kind, so that one statement
about `build` and `operandBytes` covers the formats of R91, and the table can be gone through entry by entry. -/

/-- An operand of every kind; a format takes the one it has. -/
structure Operand where
  byte : Byte := 0x00#8
  word : Word := 0x0000#16
  idx : Idx := .extInd 0x0000#16
  mask : StackMask := decodeMask 0x00#8
  pair : RegPair := decodePair 0x00#8

/-- The instruction an entry builds from an operand. -/
def Form.build (o : Operand) : Form → Instr
  | .inh i | .pageSelect _ i | .invalid i => i
  | .imm8 mk | .dir mk | .rel8 mk => mk o.byte
  | .imm16 mk | .ext mk | .rel16 mk => mk o.word
  | .idx mk => mk o.idx
  | .stk mk => mk o.mask
  | .rr mk => mk o.pair

/-- The bytes of an operand behind the opcode (R91, R95). -/
def Form.operandBytes (o : Operand) : Form → List Byte
  | .inh _ | .pageSelect _ _ | .invalid _ => []
  | .imm8 _ | .dir _ | .rel8 _ => [o.byte]
  | .imm16 _ | .ext _ | .rel16 _ => [hiByte o.word, loByte o.word]
  | .idx _ => encodeIdx o.idx
  | .stk _ => [encodeMask o.mask]
  | .rr _ => [encodePair o.pair]

/-- Whether an entry builds a well-formed instruction from an operand. -/
def Form.admits (o : Operand) : Form → Bool
  | .inh _ | .invalid _ | .imm8 _ | .dir _ | .rel8 _ | .imm16 _ | .ext _ | .rel16 _ | .stk _ => true
  | .pageSelect _ _ => false
  | .idx _ => o.idx.wf
  | .rr _ => o.pair.wf

/-- R94: the page a page selection entry sets. -/
def Form.selects : Form → Option Page
  | .pageSelect page _ => some page
  | _ => none

/-- The entry itself, where it has no documented mnemonic (R103). -/
def OpEntry.undocumented (e : OpEntry) : Option OpEntry :=
  match e.form with
  | .invalid _ => some e
  | _ => none

/-- The bytes before the operand: page selection byte and opcode (R90, R94). -/
def entryBytes : Page → Byte → List Byte
  | .p0, op => [op]
  | .p1, op => [0x10#8, op]
  | .p2, op => [0x11#8, op]

/-- R94: the page that an entry selects, from its place in the table. -/
def selectedPage : Page → Byte → Option Page
  | .p0, op => if op = 0x10#8 then some .p1 else if op = 0x11#8 then some .p2 else none
  | .p1, _ | .p2, _ => none

/-- What an entry of the table says, against the encoder and the check of well-formedness. -/
structure RowAgrees (page : Page) (op : Byte) : Prop where
  encode_build : ∀ o, encode ((opTable page op).form.build o) = entryBytes page op ++ (opTable page op).form.operandBytes o
  wf_build : ∀ o, ((opTable page op).form.build o).wf = (opTable page op).form.admits o
  selects : (opTable page op).form.selects = selectedPage page op
  undocumented : (opTable page op).undocumented = if isInvalidEntry page op then some (invalidEntry page op) else none

/-- R100 to R103: the 768 entries, one by one, each for every operand. -/
theorem rowAgrees_ofNat (page : Page) (n : Nat) (hn : n < 256) : RowAgrees page (BitVec.ofNat 8 n) := by
  cases page <;> interval_cases n <;> exact ⟨fun _ => rfl, fun _ => rfl, rfl, rfl⟩

theorem rowAgrees (page : Page) (op : Byte) : RowAgrees page op := by
  simpa using rowAgrees_ofNat page op.toNat op.isLt

theorem opTable_invalid {page : Page} {op : Byte} (h : isInvalidEntry page op = true) :
    opTable page op = invalidEntry page op := by
  have hundocumented := (rowAgrees page op).undocumented
  rw [if_pos h, OpEntry.undocumented] at hundocumented
  split at hundocumented
  · exact Option.some.inj hundocumented
  · cases hundocumented

theorem selects_of_admits {f : Form} {o : Operand} (h : f.admits o = true) : f.selects = none := by
  cases f
  case pageSelect => cases h
  all_goals rfl

/-- R94: the page selection bytes are `$10` and `$11`. -/
theorem pageSelected_cases (b : Byte) :
    (b = 0x10#8 ∧ pageSelected b = some .p1) ∨ (b = 0x11#8 ∧ pageSelected b = some .p2) ∨
    (selectedPage .p0 b = none ∧ pageSelected b = none) := by
  have h : pageSelected b = selectedPage .p0 b := by
    rw [← (rowAgrees .p0 b).selects]
    unfold pageSelected
    cases (opTable .p0 b).form <;> rfl
  rw [h, selectedPage]
  split
  next h10 => exact .inl ⟨h10, rfl⟩
  next =>
    split
    next h11 => exact .inr (.inl ⟨h11, rfl⟩)
    next => exact .inr (.inr ⟨rfl, rfl⟩)

/-! ## Indexed post-bytes -/

theorem postByte_fields (rr : BitVec 2) (ind : Bool) (sub : BitVec 4) :
    (postByte rr ind sub)[7] = true ∧ (postByte rr ind sub).extractLsb' 5 2 = rr ∧
    (postByte rr ind sub)[4] = ind ∧ loNibble (postByte rr ind sub) = sub := by
  revert rr ind sub
  decide

theorem postByte_of_fields (pb : Byte) (h : pb.getLsbD 7 = true) :
    postByte (pb.extractLsb' 5 2) (pb.getLsbD 4) (loNibble pb) = pb := by
  revert pb
  decide

/-- R141: the post-byte of a 5-bit offset. -/
theorem shortOffset_fields (r : Base) (n : BitVec 5) :
    let pb : Byte := 0b0#1 ++ baseBits r ++ n
    pb[7] = false ∧ pb.extractLsb' 5 2 = baseBits r ∧ pb.extractLsb' 0 5 = n := by
  revert n
  cases r <;> decide

theorem shortOffset_of_fields (pb : Byte) (h : pb.getLsbD 7 = false) :
    0b0#1 ++ pb.extractLsb' 5 2 ++ pb.extractLsb' 0 5 = pb := by
  revert pb
  decide

theorem baseBits_baseOf (pb : Byte) : baseBits (baseOf pb) = pb.extractLsb' 5 2 := by
  unfold baseOf
  generalize pb.extractLsb' 5 2 = rr
  revert rr
  decide

theorem baseOf_eq {pb : Byte} {r : Base} (h : pb.extractLsb' 5 2 = baseBits r) : baseOf pb = r := by
  unfold baseOf
  rw [h]
  cases r <;> rfl

theorem baseOf_postByte (r : Base) (ind : Bool) (sub : BitVec 4) : baseOf (postByte (baseBits r) ind sub) = r := by
  obtain ⟨-, hregister, -⟩ := postByte_fields (baseBits r) ind sub
  exact baseOf_eq hregister

theorem isIllegalPostByte_postByte (rr : BitVec 2) (ind : Bool) (sub : BitVec 4) :
    isIllegalPostByte (postByte rr ind sub) =
      (sub == 0b0111#4 || sub == 0b1010#4 || sub == 0b1110#4 || (sub == 0b1111#4 && postByte rr ind sub != 0x9F#8) ||
        (ind && (sub == 0b0000#4 || sub == 0b0010#4))) := by
  revert rr ind sub
  decide

/-- R155: a post-byte without a meaning takes no offset byte. -/
theorem decodeIdx_illegal {pb : Byte} (h : isIllegalPostByte pb = true) (o1 o2 : Byte) :
    decodeIdx pb o1 o2 = (.illegal pb, 0) := by
  simp only [isIllegalPostByte, Bool.and_eq_true, Bool.or_eq_true, beq_iff_eq, bne_iff_ne] at h
  obtain ⟨h7, hsub⟩ := h
  have hlo : ∀ sub, pb.extractLsb' 0 4 = sub → loNibble pb = sub := fun _ => id
  simp only [decodeIdx, h7]
  rcases hsub with (((hsub | hsub) | hsub) | ⟨hsub, hext⟩) | ⟨hind, hsub | hsub⟩ <;> simp [hlo _ hsub, *]

theorem decodeIdx_extInd (o1 o2 : Byte) : decodeIdx 0x9F#8 o1 o2 = (.extInd (joinBytes o1 o2), 2) := rfl

/-- R140, R107: whatever follows it, an encoded indexed operand is read back with as many offset bytes as it has. -/
theorem decodeIdx_encodeIdx (x : Idx) (hw : x.wf = true) (rest : List Byte) :
    let bs := encodeIdx x ++ rest
    decodeIdx (bs.getD 0 0x00#8) (bs.getD 1 0x00#8) (bs.getD 2 0x00#8) = (x, (encodeIdx x).length - 1) := by
  cases x
  case off5 r n =>
    obtain ⟨h7, hregister, hoffset⟩ := shortOffset_fields r n
    simp [encodeIdx, decodeIdx, h7, hoffset, baseOf_eq hregister]
  case illegal pb => exact decodeIdx_illegal hw _ _
  case extInd a => simp [encodeIdx, decodeIdx_extInd]
  all_goals simp [encodeIdx, decodeIdx, postByte_fields, baseOf_postByte]

/-- The 16 sub-modes, each with either indirect bit (R140, R153). -/
theorem encodeIdx_decodeIdx_postByte (rr : BitVec 2) (ind : Bool) (n : Nat) (hn : n < 16) (o1 o2 : Byte) :
    let r := decodeIdx (postByte rr ind (BitVec.ofNat 4 n)) o1 o2
    encodeIdx r.1 = [postByte rr ind (BitVec.ofNat 4 n), o1, o2].take (1 + r.2) ∧ r.2 ≤ 2 ∧ r.1.wf = true := by
  have hbits (sub : BitVec 4) : baseBits (baseOf (postByte rr ind sub)) = rr := by
    obtain ⟨-, hregister, -⟩ := postByte_fields rr ind sub
    rw [baseBits_baseOf, hregister]
  rcases Nat.lt_or_eq_of_le (Nat.le_of_lt_succ hn) with hlt | rfl
  · cases ind <;> interval_cases n <;>
      simp [decodeIdx, postByte_fields, encodeIdx, Idx.wf, isIllegalPostByte_postByte, hbits]
  · by_cases hext : postByte rr ind 0b1111#4 = 0x9F#8
    · rw [hext, decodeIdx_extInd]
      simp [encodeIdx, Idx.wf]
    · simp [decodeIdx, postByte_fields, encodeIdx, Idx.wf, isIllegalPostByte_postByte, hext]

/-- R140, R155: every post-byte with its offset bytes is the encoding of a well-formed operand. -/
theorem encodeIdx_decodeIdx (pb o1 o2 : Byte) :
    encodeIdx (decodeIdx pb o1 o2).1 = [pb, o1, o2].take (1 + (decodeIdx pb o1 o2).2) ∧
    (decodeIdx pb o1 o2).2 ≤ 2 ∧ (decodeIdx pb o1 o2).1.wf = true := by
  cases h7 : pb.getLsbD 7
  case false =>
    simp only [decodeIdx, h7]
    simp [encodeIdx, Idx.wf, baseBits_baseOf, shortOffset_of_fields _ h7]
  case true =>
    have h := encodeIdx_decodeIdx_postByte (pb.extractLsb' 5 2) (pb.getLsbD 4) (loNibble pb).toNat (loNibble pb).isLt o1 o2
    rw [BitVec.ofNat_toNat, BitVec.setWidth_eq, postByte_of_fields pb h7] at h
    exact h

/-! ## Stack masks and register pairs -/

theorem decodeMask_encodeMask (m : StackMask) : decodeMask (encodeMask m) = m := by
  obtain ⟨pc, other, y, x, dp, b, a, cc⟩ := m
  revert pc other y x dp b a cc
  decide

theorem encodeMask_decodeMask (v : Byte) : encodeMask (decodeMask v) = v := by
  revert v
  decide

theorem decodeReg_encodeReg (c : RegCode) (hw : c.wf = true) : decodeReg (encodeReg c) = c := by
  cases c with
  | r16 r => cases r <;> rfl
  | r8 r => cases r <;> rfl
  | unassigned c =>
    revert c
    decide

theorem encodeReg_decodeReg (c : BitVec 4) : encodeReg (decodeReg c) = c ∧ (decodeReg c).wf = true := by
  revert c
  decide

theorem decodePair_encodePair (p : RegPair) (hw : p.wf = true) : decodePair (encodePair p) = p := by
  obtain ⟨hsrc, hdst⟩ := Bool.and_eq_true_iff.1 hw
  have hhi : hiNibble (encodePair p) = encodeReg p.src := BitVec.extractLsb'_append_eq_left
  have hlo : loNibble (encodePair p) = encodeReg p.dst := BitVec.extractLsb'_append_eq_right
  rw [decodePair, hhi, hlo, decodeReg_encodeReg _ hsrc, decodeReg_encodeReg _ hdst]

theorem hiNibble_append_loNibble (v : Byte) : hiNibble v ++ loNibble v = v := by
  revert v
  decide

theorem encodePair_decodePair (v : Byte) : encodePair (decodePair v) = v ∧ (decodePair v).wf = true := by
  obtain ⟨hsrc, hsrcWf⟩ := encodeReg_decodeReg (hiNibble v)
  obtain ⟨hdst, hdstWf⟩ := encodeReg_decodeReg (loNibble v)
  refine ⟨?_, Bool.and_eq_true_iff.2 ⟨hsrcWf, hdstWf⟩⟩
  simp only [encodePair, decodePair, hsrc, hdst, hiNibble_append_loNibble]

/-! ## Operand assembly -/

/-- The operand of every kind that three bytes hold. -/
def Operand.read (b1 b2 b3 : Byte) : Operand where
  byte := b1
  word := joinBytes b1 b2
  idx := (decodeIdx b1 b2 b3).1
  mask := decodeMask b1
  pair := decodePair b1

/-- R95: assembly builds from the operand it reads, and the bytes it takes are that operand's. -/
theorem assemble_reads (f : Form) (b1 b2 b3 : Byte) :
    let o := Operand.read b1 b2 b3
    let r := f.assemble b1 b2 b3
    r.1 = f.build o ∧ f.operandBytes o = [b1, b2, b3].take r.2 ∧ r.2 ≤ 3 ∧ (f.selects = none → f.admits o = true) := by
  cases f
  case inh | invalid => exact ⟨rfl, rfl, Nat.zero_le 3, fun _ => rfl⟩
  case pageSelect => exact ⟨rfl, rfl, Nat.zero_le 3, nofun⟩
  case imm8 | dir | rel8 => exact ⟨rfl, rfl, Nat.le_of_ble_eq_true rfl, fun _ => rfl⟩
  case imm16 | ext | rel16 =>
    exact ⟨rfl, by simp [Form.operandBytes, Form.assemble, Operand.read], Nat.le_of_ble_eq_true rfl, fun _ => rfl⟩
  case stk => exact ⟨rfl, congrArg ([·]) (encodeMask_decodeMask b1), Nat.le_of_ble_eq_true rfl, fun _ => rfl⟩
  case rr =>
    obtain ⟨hbyte, hwf⟩ := encodePair_decodePair b1
    exact ⟨rfl, congrArg ([·]) hbyte, Nat.le_of_ble_eq_true rfl, fun _ => hwf⟩
  case idx =>
    obtain ⟨hbytes, hcount, hwf⟩ := encodeIdx_decodeIdx b1 b2 b3
    exact ⟨rfl, hbytes, by simp only [Form.assemble]; omega, fun _ => hwf⟩

/-- R95: from the bytes of an operand, whatever follows them, assembly builds from that operand and takes those bytes. -/
theorem assemble_operandBytes (f : Form) (o : Operand) (h : f.admits o = true) (rest : List Byte) :
    let bs := f.operandBytes o ++ rest
    f.assemble (bs.getD 0 0x00#8) (bs.getD 1 0x00#8) (bs.getD 2 0x00#8) = (f.build o, (f.operandBytes o).length) := by
  cases f
  case inh | invalid | imm8 | dir | rel8 => rfl
  case imm16 | ext | rel16 => simp [Form.operandBytes, Form.assemble, Form.build]
  case pageSelect => cases h
  case stk => simp [Form.operandBytes, Form.assemble, Form.build, decodeMask_encodeMask]
  case rr => simp [Form.operandBytes, Form.assemble, Form.build, decodePair_encodePair _ h]
  case idx =>
    obtain ⟨hpos, -⟩ := Laws.EncodedLength.encodeIdx_length o.idx
    simp only [Form.operandBytes, Form.assemble, Form.build, decodeIdx_encodeIdx o.idx h rest, Nat.add_sub_cancel' hpos]

/-! ## From bytes to an instruction and back -/

/-- What an entry that selects no page builds is well-formed, and its encoding is the bytes it was built from. -/
theorem assemble_encodes {page : Page} {op : Byte} (hsel : selectedPage page op = none) (b1 b2 b3 : Byte) :
    let r := (opTable page op).form.assemble b1 b2 b3
    r.1.wf = true ∧ r.2 ≤ 3 ∧ encode r.1 = entryBytes page op ++ [b1, b2, b3].take r.2 := by
  obtain ⟨hencode, hwf, hselects, -⟩ := rowAgrees page op
  obtain ⟨hinstr, hbytes, hle, hadmits⟩ := assemble_reads (opTable page op).form b1 b2 b3
  refine ⟨?_, hle, ?_⟩
  · rw [hinstr, hwf]
    exact hadmits (hselects.trans hsel)
  · rw [hinstr, hencode, hbytes]

/-- Settles O3: the window begins with the bytes of an entry that selects no page, and such an entry drops no bit. -/
theorem everyWindowIsOneInstruction : Obligations.EveryWindowIsOneInstruction := by
  intro b0 b1 b2 b3 b4
  rcases pageSelected_cases b0 with ⟨rfl, hpage⟩ | ⟨rfl, hpage⟩ | ⟨hsel, hpage⟩ <;>
    simp only [decodeWindow, hpage, decodeBehindPage, decodeEntry]
  · obtain ⟨hwf, hle, hencode⟩ := assemble_encodes (page := .p1) (op := b1) rfl b2 b3 b4
    exact ⟨hwf, by omega, by omega, by rw [hencode, ← Nat.add_assoc, Nat.add_comm]; rfl⟩
  · obtain ⟨hwf, hle, hencode⟩ := assemble_encodes (page := .p2) (op := b1) rfl b2 b3 b4
    exact ⟨hwf, by omega, by omega, by rw [hencode, ← Nat.add_assoc, Nat.add_comm]; rfl⟩
  · obtain ⟨hwf, hle, hencode⟩ := assemble_encodes hsel b1 b2 b3
    refine ⟨hwf, by omega, by omega, ?_⟩
    rw [hencode, ← List.take_append_of_le_length (l₂ := [b4]) hle, Nat.add_comm]
    rfl

/-- The page and the opcode with which a list of bytes begins. -/
def entryKey : List Byte → Page × Byte
  | [] => (.p0, 0x00#8)
  | b :: bs =>
    match selectedPage .p0 b, bs with
    | some page, op :: _ => (page, op)
    | _, _ => (.p0, b)

theorem entryKey_invalid (page : Page) (op : Byte) : entryKey (encode (.invalid page op)) = (page, op) := by
  cases page
  case p0 => simp only [encode, entryKey]; cases selectedPage .p0 op <;> rfl
  case p1 | p2 => rfl

/-- R100 to R103: every well-formed instruction is built by the entry with which its encoding begins. -/
theorem exists_row (i : Instr) (hw : i.wf = true) :
    ∃ page op o, entryKey (encode i) = (page, op) ∧ (opTable page op).form.build o = i := by
  cases i
  case lda src | ldb src | adda src | addb src | adca src | adcb src | suba src | subb src | sbca src | sbcb src
      | cmpa src | cmpb src | anda src | andb src | ora src | orb src | eora src | eorb src | bita src | bitb src =>
    rcases src with v | ⟨lo | x | a⟩
    · exact ⟨_, _, { byte := v }, rfl, rfl⟩
    · exact ⟨_, _, { byte := lo }, rfl, rfl⟩
    · exact ⟨_, _, { idx := x }, rfl, rfl⟩
    · exact ⟨_, _, { word := a }, rfl, rfl⟩
  case ldd src | ldx src | ldy src | ldu src | lds src | addd src | subd src | cmpd src | cmpx src | cmpy src
      | cmpu src | cmps src =>
    rcases src with v | ⟨lo | x | a⟩
    · exact ⟨_, _, { word := v }, rfl, rfl⟩
    · exact ⟨_, _, { byte := lo }, rfl, rfl⟩
    · exact ⟨_, _, { idx := x }, rfl, rfl⟩
    · exact ⟨_, _, { word := a }, rfl, rfl⟩
  case sta ea | stb ea | std ea | stx ea | sty ea | stu ea | sts ea | clr ea | neg ea | inc ea | dec ea | tst ea | com ea
      | asl ea | asr ea | lsr ea | rol ea | ror ea | jmp ea | jsr ea =>
    rcases ea with lo | x | a
    · exact ⟨_, _, { byte := lo }, rfl, rfl⟩
    · exact ⟨_, _, { idx := x }, rfl, rfl⟩
    · exact ⟨_, _, { word := a }, rfl, rfl⟩
  case leax x | leay x | leas x | leau x => exact ⟨_, _, { idx := x }, rfl, rfl⟩
  case orcc v | andcc v | cwai v | bra v | brn v | bhi v | bls v | bcc v | bcs v | bne v | beq v | bvc v | bvs v | bpl v
      | bmi v | bge v | blt v | bgt v | ble v | bsr v => exact ⟨_, _, { byte := v }, rfl, rfl⟩
  case lbra w | lbrn w | lbhi w | lbls w | lbcc w | lbcs w | lbne w | lbeq w | lbvc w | lbvs w | lbpl w | lbmi w | lbge w
      | lblt w | lbgt w | lble w | lbsr w => exact ⟨_, _, { word := w }, rfl, rfl⟩
  case pshs m | puls m | pshu m | pulu m => exact ⟨_, _, { mask := m }, rfl, rfl⟩
  case tfr p | exg p => exact ⟨_, _, { pair := p }, rfl, rfl⟩
  case page2 | page3 => cases hw
  case invalid page op => exact ⟨page, op, {}, entryKey_invalid page op, by rw [opTable_invalid hw]; rfl⟩
  all_goals exact ⟨_, _, {}, rfl, rfl⟩

/-- R94: the window that begins with the bytes of an entry is what that entry assembles from the bytes behind them. -/
theorem windowOf_entryBytes {page : Page} {op : Byte} (hsel : selectedPage page op = none) (l : List Byte) :
    let r := (opTable page op).form.assemble (l.getD 0 0x00#8) (l.getD 1 0x00#8) (l.getD 2 0x00#8)
    Machine.windowOf (entryBytes page op ++ l) = ⟨page, op, r.1, (entryBytes page op).length + r.2⟩ := by
  cases page
  case p0 =>
    rcases pageSelected_cases op with ⟨rfl, -⟩ | ⟨rfl, -⟩ | ⟨-, hnone⟩
    · cases hsel
    · cases hsel
    · show decodeWindow op _ _ _ _ = _
      rw [decodeWindow, hnone]
      rfl
  case p1 | p2 =>
    simp only [entryBytes, List.length_cons, List.length_nil, Nat.zero_add, Nat.add_assoc 1 1]
    rfl

/-- R90: the window that begins with an encoding is that instruction, whatever follows it. -/
theorem windowOf_encode {i : Instr} (hw : i.wf = true) {page : Page} {op : Byte} (hkey : entryKey (encode i) = (page, op))
    (rest : List Byte) : Machine.windowOf (encode i ++ rest) = ⟨page, op, i, (encode i).length⟩ := by
  obtain ⟨page', op', o, hrow, hbuild⟩ := exists_row i hw
  obtain ⟨rfl, rfl⟩ := Prod.mk.inj (hrow.symm.trans hkey)
  obtain ⟨hencode, hwf, hselects, -⟩ := rowAgrees page' op'
  have hadmits : (opTable page' op').form.admits o = true := by rw [← hwf, hbuild, hw]
  have hsel : selectedPage page' op' = none := by rw [← hselects, selects_of_admits hadmits]
  rw [← hbuild, hencode, List.append_assoc, windowOf_entryBytes hsel, assemble_operandBytes _ o hadmits, List.length_append]

theorem decode_eq (l : List Byte) :
    decode l =
      if (Machine.windowOf l).length ≤ l.length then
        .ok ((Machine.windowOf l).instr, l.drop (Machine.windowOf l).length)
      else .error .truncated := rfl

/-- Settles O2: the window at the head of the list is the instruction, with the length of its encoding. -/
theorem decodeInvertsEncode : Obligations.DecodeInvertsEncode := by
  intro i rest hw
  rw [decode_eq, windowOf_encode hw rfl rest, if_pos (by simp), List.drop_left]

/-- Settles O4: the encoding of an invalid opcode is its entry's bytes alone, and decoding inverts it. -/
theorem invalidEntriesTakeNoOperand : Obligations.InvalidEntriesTakeNoOperand := fun op rest =>
  ⟨decodeInvertsEncode (.invalid .p0 op) rest, decodeInvertsEncode (.invalid .p1 op) rest,
    decodeInvertsEncode (.invalid .p2 op) rest⟩

/-- Settles O1: fifteen closed words, evaluated. -/
theorem decodesWordsOfEveryFamily : Obligations.DecodesWordsOfEveryFamily :=
  ⟨rfl, rfl, rfl, rfl, rfl, rfl, rfl, rfl, rfl, rfl, rfl, rfl, rfl, rfl, rfl⟩

end Sys2Proof

namespace Sys2Proof.Machine

/-! ## The page, and the step that runs an instruction -/

/-- Settles O44: both meanings are one update of the page. -/
theorem pageSelectionSetsThePage : Obligations.PageSelectionSetsThePage := by
  intro s p hp
  have hcases : p = (.page2, .p1) ∨ p = (.page3, .p2) := by simpa using hp
  rcases hcases with rfl | rfl <;>
    exact ⟨_, rfl, rfl, rfl, SameMemory.refl s, rfl, SameControl.refl _⟩

/-- Settles O5: the five bytes at `PC` are the window that the step decodes, and nothing else is served at the boundary. -/
theorem stepRunsTheDecodedInstruction : Obligations.StepRunsTheDecodedInstruction := by
  intro s i rest hb hn hdecode
  have hlength : (bytesFrom s 5 (s.get16 .pc)).length = 5 := rfl
  have hat : decodeAt s = windowOf (bytesFrom s 5 (s.get16 .pc)) := decodeAt_eq_windowOf s (Nat.le_refl 5)
  rw [decode_eq, hlength, ← hat] at hdecode
  split at hdecode
  case isFalse => cases hdecode
  case isTrue hle =>
    obtain ⟨hinstr, hrest⟩ := Prod.mk.inj (Except.ok.inj hdecode)
    refine ⟨hinstr, ?_, ?_⟩
    · rw [← hrest, List.length_drop, hlength]
      omega
    · obtain ⟨t, hexec⟩ := exec_next i (fetched (decodeAt s) s)
      simp only [step, atomicStep, running_of_noRequest hb hn, startInstruction, hinstr, hexec]

/-! ## A step as clock cycles -/

/-- Passing cycles do not look at the counters of the sequencer. -/
theorem ticks_clocks (n : Nat) (s : State) (due : Nat) (used : Byte) :
    ticks n { s with clocksDue := due, clocksUsed := used } = { ticks n s with clocksDue := due, clocksUsed := used } := by
  induction n generalizing s with
  | zero => rfl
  | succ n ih => rw [ticks, tick_clocks, ih, ticks]

/-- R96, R97: after one of several cycles the others are due, and they end as all of them do. -/
theorem runOut_advance {s : State} {n : Nat} (h : s.clocksDue = n + 2) :
    (advance s).clocksDue = n + 1 ∧ runOut (advance s) = runOut s := by
  have hused : s.clocksUsed + 1#8 + BitVec.ofNat 8 (n + 1) = s.clocksUsed + BitVec.ofNat 8 (n + 1 + 1) := by
    rw [BitVec.add_assoc, ← BitVec.ofNat_add, Nat.add_comm 1]
  constructor
  · simp only [advance, h]
  · simp only [runOut, advance, h, ticks_clocks, hused]
    rfl

/-- R96, R99: a sequence of `n + 1` cycles ends with the `n + 1`st call of `Step()`, as when all its cycles pass at once. -/
theorem clockSteps_of_running {s r : State} {n : Nat} (hr : running s = .next r) (hdue : r.clocksDue = n + 1) :
    clockSteps (n + 1) s = .next (runOut r) := by
  induction n generalizing s r with
  | zero =>
    simp only [clockSteps, clockStep_of_running hr, advance, hdue, runOut]
    rfl
  | succ n ih =>
    obtain ⟨hrest, hend⟩ := runOut_advance hdue
    have hgoes : running (advance r) = .next (advance r) := by rw [running, hrest, if_neg (Nat.succ_ne_zero n)]
    calc clockSteps (n + 1 + 1) s = clockSteps (n + 1) (advance r) := by rw [clockSteps, clockStep_of_running hr]
      _ = .next (runOut (advance r)) := ih hgoes hrest
      _ = .next (runOut r) := by rw [hend]

/-- Settles O54: what a `Step` call starts takes no time itself; then one idle cycle passes, or the cycles that are due. -/
theorem stepIsItsClockCycles : Obligations.StepIsItsClockCycles := by
  intro s t h
  obtain ⟨r, hr, ⟨-, -, -, -, hcycles⟩, -⟩ := running_spec s
  obtain rfl : runOut r = t := Host.Outcome.next.inj ((step_of_running hr).symm.trans h)
  cases hdue : r.clocksDue with
  | zero =>
    have hspan : (runOut r).cycles = s.cycles + 1 := by rw [runOut_idle hdue, tick_eq, hcycles]
    refine ⟨by omega, ?_⟩
    rw [hspan, Nat.add_sub_cancel_left]
    simp only [clockSteps, clockStep_of_running hr, advance, hdue, runOut_idle hdue]
  | succ n =>
    have hspan : (runOut r).cycles = s.cycles + (n + 1) := by rw [runOut_due hdue, hcycles]
    refine ⟨by omega, ?_⟩
    rw [hspan, Nat.add_sub_cancel_left]
    exact clockSteps_of_running hr hdue

/-! ## Cycle counts -/

/-- R97: a well-formed instruction takes more cycles than leaving its wait does. -/
theorem exitCycles_lt_of_key {i : Instr} (hw : i.wf = true) {page : Page} {op : Byte} (hkey : entryKey (encode i) = (page, op)) :
    exitCycles ((waitOf i).getD .none) < (opTable page op).cycles := by
  obtain ⟨o1, o2, o3, hinstr⟩ : ∃ o1 o2 o3, (windowOf (encode i ++ [])).instr =
      ((opTable (windowOf (encode i ++ [])).page (windowOf (encode i ++ [])).opcode).form.assemble o1 o2 o3).1 :=
    decodeWindow_instr _ _ _ _ _
  rw [windowOf_encode hw hkey] at hinstr
  have h := exitCycles_lt_opTable page op o1 o2 o3
  rwa [← hinstr] at h

/-- R501: the cycles of an instruction are those of the entry with which its encoding begins, and what it takes beyond them. -/
theorem takesCycles_of_key {s : State} {i : Instr} {n : Nat} {page : Page} {op : Byte} (hb : AtBoundary s) (hn : NoRequest s)
    (hkey : entryKey (encode i) = (page, op))
    (hcount : ∀ t, exec i (fetched ⟨page, op, i, (encode i).length⟩ s) = .next t →
      (opTable page op).cycles + extraCycles i s.regs.cc t.regs.cc - exitCycles ((waitOf i).getD .none) = n) :
    TakesCycles s i n ((waitOf i).getD .none) := by
  intro hw
  obtain ⟨t, ht⟩ := exec_next i (fetched ⟨page, op, i, (encode i).length⟩ s)
  have hpos : 0 < n := by
    have := exitCycles_lt_of_key hw hkey
    have := hcount t ht
    omega
  exact takesCycles_of hb hn (fun _ rest => windowOf_encode hw hkey rest) rfl hpos hcount hw

/-- Whatever `CC` an instruction leaves, from `cc` it takes `n` cycles and goes on to `a`. -/
structure Costs (cc : Byte) (i : Instr) (n : Nat) (a : Active) : Prop where
  waits : (waitOf i).getD .none = a
  count : ∃ page op, entryKey (encode i) = (page, op) ∧
    ∀ cc', (opTable page op).cycles + extraCycles i cc cc' - exitCycles a = n

theorem Costs.takesCycles {s : State} {i : Instr} {n : Nat} {a : Active} (h : Costs s.regs.cc i n a) (hb : AtBoundary s)
    (hn : NoRequest s) : TakesCycles s i n a := by
  obtain ⟨rfl, page, op, hkey, hcount⟩ := h
  exact takesCycles_of_key hb hn hkey fun t _ => hcount t.regs.cc

/-! ### Instructions with a memory operand -/

/-- The count of a memory operand's row, `n` that of the direct one, with the addition of an indexed form. -/
def eaTotal (n : Nat) : Ea → Nat
  | .dir _ => n
  | .idx x => n + idxCycles x
  | .ext _ => n + 1

/-- The same of an 8-bit source operand. -/
def src8Total : Src8 → Nat
  | .imm _ => 2
  | .mem ea => eaTotal 4 ea

/-- The same of a 16-bit source operand, `n` the count of the immediate row. -/
def src16Total (n : Nat) : Src16 → Nat
  | .imm _ => n
  | .mem ea => eaTotal (n + 2) ea

theorem costs_of_src8 (cc : Byte) :
    ∀ f ∈ [Instr.lda, .ldb, .adda, .addb, .adca, .adcb, .suba, .subb, .sbca, .sbcb, .cmpa, .cmpb, .anda, .andb, .ora, .orb,
        .eora, .eorb, .bita, .bitb], ∀ src, Costs cc (f src) (src8Total src) .none := by
  simp only [List.forall_mem_cons, List.not_mem_nil, IsEmpty.forall_iff, implies_true, and_true]
  and_intros <;> rintro (v | ⟨lo | x | a⟩) <;> exact ⟨rfl, _, _, rfl, fun _ => rfl⟩

theorem costs_of_src16 (cc : Byte) :
    ∀ p ∈ [(Instr.ldd, 3), (.ldx, 3), (.ldu, 3), (.ldy, 4), (.lds, 4), (.addd, 4), (.subd, 4), (.cmpx, 4), (.cmpd, 5),
        (.cmpy, 5), (.cmpu, 5), (.cmps, 5)], ∀ src, Costs cc (p.1 src) (src16Total p.2 src) .none := by
  simp only [List.forall_mem_cons, List.not_mem_nil, IsEmpty.forall_iff, implies_true, and_true]
  and_intros <;> rintro (v | ⟨lo | x | a⟩) <;> exact ⟨rfl, _, _, rfl, fun _ => rfl⟩

theorem costs_of_ea (cc : Byte) :
    ∀ p ∈ [(Instr.sta, 4), (.stb, 4), (.std, 5), (.stx, 5), (.stu, 5), (.sty, 6), (.sts, 6), (.jmp, 3), (.jsr, 7), (.clr, 6),
        (.neg, 6), (.inc, 6), (.dec, 6), (.com, 6), (.tst, 6), (.asl, 6), (.asr, 6), (.lsr, 6), (.rol, 6), (.ror, 6)],
      ∀ ea, Costs cc (p.1 ea) (eaTotal p.2 ea) .none := by
  simp only [List.forall_mem_cons, List.not_mem_nil, IsEmpty.forall_iff, implies_true, and_true]
  and_intros <;> rintro (lo | x | a) <;> exact ⟨rfl, _, _, rfl, fun _ => rfl⟩

theorem costs_of_lea (cc : Byte) :
    ∀ f ∈ [Instr.leax, .leay, .leas, .leau], ∀ x, Costs cc (f x) (4 + idxCycles x) .none := by
  simp only [List.forall_mem_cons, List.not_mem_nil, IsEmpty.forall_iff, implies_true, and_true]
  and_intros <;> exact fun x => ⟨rfl, _, _, rfl, fun _ => rfl⟩

/-- R158: the list of indexed forms gives each its addition. -/
theorem idxCycles_of_mem {r : Base} {rr : BitVec 2} {n5 : BitVec 5} {n8 pb : Byte} {n16 : Word} :
    ∀ q ∈ indexedAdditions r rr n5 n8 pb n16, idxCycles q.1 = q.2 := by
  simp [indexedAdditions, idxCycles, indirectCycles]

/-- Settles O60: by the four tables of counts, with the additions of R158. -/
theorem cycleCountsOfOperandForms : Obligations.CycleCountsOfOperandForms := by
  intro s r rr n5 n8 lo pb n16 hb hn forms
  refine ⟨fun f hf => ?_, fun p hp => ?_, fun p hp => ?_, fun f hf q hq => ?_⟩
  · have h := fun src => (costs_of_src8 s.regs.cc f hf src).takesCycles hb hn
    refine ⟨h _, h _, h _, fun q hq => ?_⟩
    rw [← idxCycles_of_mem q hq]
    exact h _
  · have h := fun src => (costs_of_src16 s.regs.cc p hp src).takesCycles hb hn
    refine ⟨h _, h _, h _, fun q hq => ?_⟩
    rw [← idxCycles_of_mem q hq]
    exact h _
  · have h := fun ea => (costs_of_ea s.regs.cc p hp ea).takesCycles hb hn
    refine ⟨h _, h _, fun q hq => ?_⟩
    rw [← idxCycles_of_mem q hq]
    exact h _
  · rw [← idxCycles_of_mem q hq]
    exact (costs_of_lea s.regs.cc f hf q.1).takesCycles hb hn

/-! ### Instructions without a memory operand -/

/-- R385: `CC` comes from the top of the stack, and no later pull writes it. -/
theorem returnFromException_cc (s : State) : (returnFromException s).regs.cc = s.byteAt s.regs.s := by
  simp only [returnFromException]
  split <;> rfl

/-- R385: the `E` that RTI pulls chooses its count. -/
theorem takesCycles_rti {s : State} (hb : AtBoundary s) (hn : NoRequest s) :
    TakesCycles s .rti (if (s.byteAt s.regs.s).getLsbD 7 then 15 else 6) .none := by
  refine takesCycles_of_key hb hn (page := .p0) (op := 0x3B#8) rfl fun t ht => ?_
  obtain rfl : returnFromException _ = t := Host.Outcome.next.inj ht
  rw [returnFromException_cc, fetched, fetchBytes_eq]
  show 6 + (if (s.byteAt s.regs.s).getLsbD 7 then 9 else 0) = _
  split <;> rfl

theorem takesCycles_invalid {s : State} (hb : AtBoundary s) (hn : NoRequest s) (page : Page) (op : Byte) :
    TakesCycles s (.invalid page op) (Config.invalidCycles (page != .p0)) .none := by
  intro hw
  have hcosts : Costs s.regs.cc (.invalid page op) (Config.invalidCycles (page != .p0)) .none :=
    ⟨rfl, page, op, entryKey_invalid page op, fun _ => by rw [opTable_invalid hw]; rfl⟩
  exact hcosts.takesCycles hb hn hw

/-- R300: a conditional long branch takes one cycle more when its predicate holds. -/
theorem costs_longBranch {cc : Byte} {i : Instr} {k : Cond} {taken : Bool} (hw : (waitOf i).getD .none = .none)
    (hrow : ∃ page op, entryKey (encode i) = (page, op) ∧ (opTable page op).cycles = 5)
    (hextra : ∀ cc', extraCycles i cc cc' = takenCycles k cc) (hk : k.taken cc = taken) :
    Costs cc i (if taken then 6 else 5) .none := by
  obtain ⟨page, op, hkey, hcycles⟩ := hrow
  refine ⟨hw, page, op, hkey, fun cc' => ?_⟩
  rw [hextra, hcycles, takenCycles, hk]
  cases taken <;> rfl

/-- Settles O49: each count is the table's with what R501 adds; RTI, the invalid entries and the long branches by their lemmas. -/
theorem cycleCounts : Obligations.CycleCounts := by
  intro s hb hn
  have takes {i : Instr} {n : Nat} {a : Active} (h : Costs s.regs.cc i n a) : TakesCycles s i n a := h.takesCycles hb hn
  simp only [List.forall_mem_cons, List.not_mem_nil, IsEmpty.forall_iff, implies_true, and_true, stackImage_length]
  refine ⟨?fixed, ?implied, fun v => ?byte, fun o16 => ?jump, fun pair => ?pair, fun o8 => ?short, fun o16 => ?long,
    fun m => ?mask, fun v => ?cwai, ?sync⟩
  case fixed =>
    and_intros
    iterate 6 · exact takes ⟨rfl, _, _, rfl, fun _ => rfl⟩
    · exact takesCycles_rti hb hn
  case byte =>
    and_intros
    iterate 3 · exact takes ⟨rfl, _, _, rfl, fun _ => rfl⟩
    iterate 3 · exact takesCycles_invalid hb hn _ v
  case long =>
    and_intros <;> refine takes (costs_longBranch rfl ⟨_, _, rfl, rfl⟩ (fun _ => rfl) ?_) <;>
      simp only [Cond.taken, Flag.get, Flag.bit, ← Bool.bne_eq_xor, bne, Bool.not_not]
  all_goals and_intros <;> exact takes ⟨rfl, _, _, rfl, fun _ => rfl⟩

end Sys2Proof.Machine

namespace Sys2Proof

/-! ## Addresses from signed offsets -/

/-- R7, R23: adding a sign-extended offset is adding its signed value modulo 65536. -/
theorem add_signExtend_eq_ofInt {n : Nat} (w : Word) (v : BitVec n) :
    w + v.signExtend 16 = BitVec.ofInt 16 (w.toNat + v.toInt) := by
  rw [BitVec.ofInt_add, BitVec.ofInt_natCast, BitVec.ofNat_toNat, BitVec.setWidth_eq, BitVec.signExtend]

theorem add_joinBytes_eq_ofNat (w : Word) (h l : Byte) :
    w + joinBytes h l = BitVec.ofNat 16 (w.toNat + (256 * h.toNat + l.toNat)) := by
  rw [← joinBytes_toNat, BitVec.ofNat_add, BitVec.ofNat_toNat, BitVec.ofNat_toNat, BitVec.setWidth_eq, BitVec.setWidth_eq]

end Sys2Proof

namespace Sys2Proof.Machine

/-! ## Effective addresses -/

/-- Settles O9: each form is its equation of the resolver; the signed offsets and `D` are sums of numbers. -/
theorem directAddresses : Obligations.DirectAddresses := by
  intro s r lo n8 n16 n5 rr base
  have hsigned {n : Nat} (w : Word) (v : BitVec n) :
      some (w + v.signExtend 16, s) = some (BitVec.ofInt 16 (w.toNat + v.toInt), s) := by rw [add_signExtend_eq_ofInt]
  have hd : some (base + joinBytes s.regs.a s.regs.b, s) =
      some (BitVec.ofNat 16 (base.toNat + (256 * s.regs.a.toNat + s.regs.b.toNat)), s) := by rw [add_joinBytes_eq_ofNat]
  exact ⟨⟨joinBytes s.regs.dp lo, rfl, hiByte_joinBytes _ _, loByte_joinBytes _ _⟩, rfl, hsigned base n5, rfl, rfl, rfl, rfl,
    rfl, hsigned base s.regs.b, hsigned base s.regs.a, hd, hsigned base n8, rfl, hsigned s.regs.pc n8, rfl⟩

/-- R64, R70: a word is read, where `s` and `s1` hold the same memory; nothing but the record of the bus changes. -/
theorem read16_frame {s s1 : State} (hmem : s1.mem = s.mem) (a : Word) :
    ∃ t, read16 a s1 = (joinBytes (s.byteAt a) (s.byteAt (a + 1#16)), t) ∧
      t.regs = s1.regs ∧ SameMemory s1 t ∧ SameControl s1 t ∧
      t.bus = [.read (a + 1#16) false (s.byteAt (a + 1#16)), .read a false (s.byteAt a)] ++ s1.bus := by
  rw [← byteAt_of_mem hmem, ← byteAt_of_mem hmem, read16_spec]
  exact ⟨_, rfl, rfl, SameMemory.refl s1, SameControl.refl s1, rfl⟩

/-- R153: a form that reads the word at the address of its direct form, in the state which that form leaves. -/
theorem indirectForm_spec {s s1 : State} {ea direct : Ea} {pointer : Word} (hdirect : resolve direct s = some (pointer, s1))
    (hindirect : resolve ea s = some (read16 pointer s1)) :
    ∃ pointer s1 t, resolve direct s = some (pointer, s1) ∧
      resolve ea s = some (joinBytes (s.byteAt pointer) (s.byteAt (pointer + 1#16)), t) ∧
      t.regs = s1.regs ∧ SameMemory s1 t ∧ SameControl s1 t ∧
      t.bus = [.read (pointer + 1#16) false (s.byteAt (pointer + 1#16)), .read pointer false (s.byteAt pointer)] ++ s1.bus := by
  obtain ⟨hmem, -, -⟩ := resolve_spec hdirect
  obtain ⟨t, hread, hframe⟩ := read16_frame hmem pointer
  exact ⟨pointer, s1, t, hdirect, hindirect.trans (congrArg some hread), hframe⟩

/-- Settles O10: every pair is one form with and without the read of R153; extended indirect is that read alone. -/
theorem indirectAddresses : Obligations.IndirectAddresses := by
  intro s r n8 n16 rr
  refine ⟨?_, ?_⟩
  · simp only [List.forall_mem_cons, List.not_mem_nil, IsEmpty.forall_iff, implies_true, and_true]
    and_intros <;> exact indirectForm_spec rfl rfl
  · obtain ⟨t, hread, hframe⟩ := read16_frame (s := s) rfl n16
    exact ⟨t, congrArg some hread, hframe⟩

/-! ## What a resolver changes -/

/-- R142, R143: the base register that an auto-increment or auto-decrement form updates. -/
def autoBase : Ea → Option Base
  | .idx (.inc1 r) | .idx (.inc2 r _) | .idx (.dec1 r) | .idx (.dec2 r _) => some r
  | _ => none

theorem autoBase_eq_some_iff {ea : Ea} {r : Base} :
    autoBase ea = some r ↔
      ∃ ind, ea = .idx (.inc1 r) ∨ ea = .idx (.inc2 r ind) ∨ ea = .idx (.dec1 r) ∨ ea = .idx (.dec2 r ind) := by
  constructor
  · intro h
    unfold autoBase at h
    split at h
    case h_5 => cases h
    all_goals
      cases h
      simp
  · rintro ⟨ind, rfl | rfl | rfl | rfl⟩ <;> rfl

/-- R142, R143, R156: the only register a resolver writes is the base register of an auto form. -/
theorem resolve_regs {ea : Ea} {s t : State} {a : Word} (h : resolve ea s = some (a, t)) :
    t.regs = s.regs ∨ ∃ r v, autoBase ea = some r ∧ t.regs = s.regs.set16 (baseReg r) v := by
  have hindirect {ind : Bool} {p : Word} {q : State} (hq : some (indirect ind p q) = some (a, t)) : t.regs = q.regs := by
    obtain ⟨hregs, -, -⟩ := indirect_spec ind p q
    rwa [Option.some.inj hq] at hregs
  cases ea with
  | dir lo => cases h; exact .inl rfl
  | ext n => cases h; exact .inl rfl
  | idx i =>
    cases i
    case illegal => cases h
    case off5 => cases h; exact .inl rfl
    case inc1 r | dec1 r => cases h; exact .inr ⟨r, _, rfl, rfl⟩
    case inc2 r ind | dec2 r ind => exact .inr ⟨r, _, rfl, hindirect h⟩
    all_goals exact .inl (hindirect h)

/-- Settles O11: the registers are as before, or a base register is written, and only in an auto form of that register. -/
theorem resolversChangeOnlyTheirBase : Obligations.ResolversChangeOnlyTheirBase := by
  intro s t ea a h
  obtain ⟨hmem, hcontrol, -⟩ := resolve_spec h
  refine ⟨sameMemory_of_mem hmem, hcontrol, ?_⟩
  rcases resolve_regs h with hregs | ⟨r, v, hauto, hregs⟩
  · rw [hregs]
    exact ⟨rfl, rfl, rfl, rfl, rfl, fun _ => rfl, fun _ _ _ q _ => congrArg (Regs.get16 · q) hregs⟩
  · obtain ⟨ha, hb, hdp, hcc, hpc⟩ := set16_baseReg_others s.regs r v
    rw [hregs]
    refine ⟨ha, hb, hdp, hcc, hpc, fun hno => ?_, fun r' ind hea q hq => ?_⟩
    · obtain ⟨ind, hea⟩ := autoBase_eq_some_iff.1 hauto
      exact absurd hea (by simp [hno r ind])
    · obtain rfl : r' = r := Option.some.inj ((autoBase_eq_some_iff.2 ⟨ind, hea⟩).symm.trans hauto)
      exact (congrArg (Regs.get16 · q) hregs).trans (set16_get16_other s.regs v hq)

/-! ## Operands -/

/-- Settles O12: behind the resolver stands one `read8` or one `read16`. -/
theorem operandsAreReadOnce : Obligations.OperandsAreReadOnce := by
  intro s v8 v16 ea
  refine ⟨rfl, rfl, fun a s1 h => ⟨?_, ?_⟩, fun h => ?_⟩
  · simp only [operand8, h]
    exact ⟨_, rfl, rfl, SameMemory.refl s1, SameControl.refl s1, rfl⟩
  · obtain ⟨t, hread, hframe⟩ := read16_frame (s := s1) rfl a
    refine ⟨t, ?_, hframe⟩
    simp only [operand16, h, Option.map_some, hread]
  · simp only [operand8, operand16, h, Option.map_none, and_self]

/-! ## Post-bytes without a meaning -/

/-- R155: only an illegal post-byte has no effective address. -/
theorem resolve_eq_none_iff (ea : Ea) (s : State) : resolve ea s = none ↔ ∃ pb, ea = .idx (.illegal pb) := by
  constructor
  · intro h
    rcases ea with lo | i | n
    case idx =>
      cases i
      case illegal pb => exact ⟨pb, rfl⟩
      all_goals cases h
    all_goals cases h
  · rintro ⟨pb, rfl⟩
    rfl

/-- Settles O13: an illegal post-byte resolves to nothing, and every shape stands behind its operand (`orNothing`). -/
theorem illegalPostBytesDoNothing : Obligations.IllegalPostBytesDoNothing := by
  intro s ea
  simp only [List.forall_mem_cons, List.not_mem_nil, IsEmpty.forall_iff, implies_true, and_true]
  refine ⟨resolve_eq_none_iff ea s, fun h => ?_, fun pb => ?_⟩
  · obtain ⟨pb, rfl⟩ := (resolve_eq_none_iff ea s).1 h
    and_intros <;> rfl
  · and_intros <;> rfl

end Sys2Proof.Machine

namespace Sys2Proof.Machine

/-! ## Loads -/

/-- R159, R70: what an operand of a byte is, and its calls on the bus. -/
theorem operand8_bus {src : Src8} {s s1 : State} {m : Byte} (h : operand8 src s = some (m, s1)) :
    (∀ v, src = .imm v → m = v ∧ s1.bus = s.bus) ∧
    (∀ ea a s0, src = .mem ea → resolve ea s = some (a, s0) → m = s0.byteAt a ∧ s1.bus = .read a false m :: s0.bus) := by
  refine ⟨?_, ?_⟩
  · rintro v rfl
    cases h
    exact ⟨rfl, rfl⟩
  · rintro ea a s0 rfl hea
    simp only [operand8, hea, Option.map_some] at h
    cases h
    exact ⟨rfl, rfl⟩

/-- R159, R70: what an operand of a word is, and its calls on the bus. -/
theorem operand16_bus {src : Src16} {s s1 : State} {m : Word} (h : operand16 src s = some (m, s1)) :
    (∀ v, src = .imm v → m = v ∧ s1.bus = s.bus) ∧
    (∀ ea a s0, src = .mem ea → resolve ea s = some (a, s0) →
      m = joinBytes (s0.byteAt a) (s0.byteAt (a + 1#16)) ∧
      s1.bus = [.read (a + 1#16) false (loByte m), .read a false (hiByte m)] ++ s0.bus) := by
  refine ⟨?_, ?_⟩
  · rintro v rfl
    cases h
    exact ⟨rfl, rfl⟩
  · rintro ea a s0 rfl hea
    simp only [operand16, hea, Option.map_some, read16_spec, State.wordAt] at h
    cases h
    rw [hiByte_joinBytes, loByte_joinBytes]
    exact ⟨rfl, rfl⟩

/-- R184: everything a load of a byte does; it adds no call to those of its operand. -/
theorem load8_spec {r : Reg8} {src : Src8} {s s1 : State} {m : Byte} (h : operand8 src s = some (m, s1)) :
    let t := accumulate8 r loadOp src s
    Writes8 r m [.n, .z, .v] s1 t ∧ ShowsNZ8 m t ∧ ¬ FlagSet .v t ∧
    (∀ v, src = .imm v → m = v ∧ t.bus = s.bus) ∧
    (∀ ea a s0, src = .mem ea → resolve ea s = some (a, s0) → m = s0.byteAt a ∧ t.bus = .read a false m :: s0.bus) := by
  obtain ⟨hn, hz, hv, hkept⟩ := nzv8_spec m (s1.get8 .cc)
  rw [accumulate8_of h]
  exact ⟨writes8_of hkept, ⟨hn, hz⟩, ne_true_of_eq_false hv, operand8_bus (s1 := s1) h⟩

/-- R184: everything a load of a word does; it adds no call to those of its operand. -/
theorem load16_spec {r : Reg16} {src : Src16} {s s1 : State} {m : Word} (h : operand16 src s = some (m, s1)) :
    let t := accumulate16 r loadOp16 src s
    Writes16 r m [.n, .z, .v] s1 t ∧ ShowsNZ16 m t ∧ ¬ FlagSet .v t ∧
    (∀ v, src = .imm v → m = v ∧ t.bus = s.bus) ∧
    (∀ ea a s0, src = .mem ea → resolve ea s = some (a, s0) →
      m = joinBytes (s0.byteAt a) (s0.byteAt (a + 1#16)) ∧
      t.bus = [.read (a + 1#16) false (loByte m), .read a false (hiByte m)] ++ s0.bus) := by
  obtain ⟨hn, hz, hv, hkept⟩ := nzv16_spec m (s1.get8 .cc)
  rw [accumulate16_of h]
  exact ⟨writes16_of hkept, ⟨hn, hz⟩, ne_true_of_eq_false hv, operand16_bus (s1 := s1) h⟩

/-- Settles O14: each of the seven is the load of its width into its register. -/
theorem loadsOfBytesAndWords : Obligations.LoadsOfBytesAndWords := by
  refine ⟨fun s s1 src m h => ?_, fun s s1 src m h => ?_⟩
  all_goals simp only [List.forall_mem_cons, List.not_mem_nil, IsEmpty.forall_iff, implies_true, and_true]
  · and_intros <;> exact ⟨_, rfl, load8_spec h⟩
  · and_intros <;> exact ⟨_, rfl, load16_spec h⟩

/-! ## Stores -/

/-- R31, R32, R185: the flags that N and Z of a byte leave. -/
theorem nz8_keeps (r cc : Byte) (k : Flag) (hk : k ∉ [Flag.n, .z]) : k.get (nz8 r cc) = k.get cc := by
  simp only [List.mem_cons, List.not_mem_nil, or_false, not_or] at hk
  obtain ⟨hn, hz⟩ := hk
  exact nz8_other r cc hn hz

/-- R31, R32, R185: the flags that N and Z of a word leave. -/
theorem nz16_keeps (r : Word) (cc : Byte) (k : Flag) (hk : k ∉ [Flag.n, .z]) : k.get (nz16 r cc) = k.get cc := by
  simp only [List.mem_cons, List.not_mem_nil, or_false, not_or] at hk
  obtain ⟨hn, hz⟩ := hk
  exact nz16_other r cc hn hz

/-- R185: everything a store of a byte does. -/
theorem store8_spec {r : Reg8} {ea : Ea} {s s1 : State} {a : Word} (h : resolve ea s = some (a, s1)) :
    let t := store8 r ea s
    Stores8 a (s1.get8 r) [.write a (s1.get8 r)] [.n, .z] s1 t ∧ ShowsNZ8 (s1.get8 r) t := by
  rw [store8_of h]
  exact ⟨stores8_of (nz8_keeps _ _), nz8_n _ _, nz8_z _ _⟩

/-- R185, R65: everything a store of a word does. -/
theorem store16_spec {r : Reg16} {ea : Ea} {s s1 : State} {a : Word} (h : resolve ea s = some (a, s1)) :
    let t := store16 r ea s
    Stores16 a (s1.get16 r) [.n, .z] s1 t ∧ ShowsNZ16 (s1.get16 r) t := by
  rw [store16_of h]
  exact ⟨stores16_of (nz16_keeps _ _), nz16_n _ _, nz16_z _ _⟩

/-- Settles O15: both are the store of a byte of their register. -/
theorem storesOfAByte : Obligations.StoresOfAByte := by
  intro s s1 ea a h
  simp only [List.forall_mem_cons, List.not_mem_nil, IsEmpty.forall_iff, implies_true, and_true]
  and_intros <;> exact ⟨_, rfl, store8_spec h⟩

/-- Settles O16: the five are the store of a word of their register. -/
theorem storesOfAWord : Obligations.StoresOfAWord := by
  intro s s1 ea a h
  simp only [List.forall_mem_cons, List.not_mem_nil, IsEmpty.forall_iff, implies_true, and_true]
  and_intros <;> exact ⟨_, rfl, store16_spec h⟩

/-! ## Effective addresses as results -/

/-- R188, R189: everything LEAS and LEAU do. -/
theorem loadAddress_spec {r : Reg16} {i : Idx} {s s1 : State} {a : Word} (h : resolveIdx i s = some (a, s1)) :
    Writes16 r a [] s1 (loadAddress r i s) := by
  simp only [loadAddress, h, orNothing]
  exact ⟨rfl, fun k _ => congrArg k.get (set16_cc s1.regs r a), fun _ => rfl, rfl, SameControl.refl s1⟩

/-- R186, R187: everything LEAX and LEAY do. -/
theorem loadAddressZ_spec {r : Reg16} {i : Idx} {s s1 : State} {a : Word} (h : resolveIdx i s = some (a, s1)) :
    let t := loadAddressZ r i s
    Writes16 r a [.z] s1 t ∧ (FlagSet .z t ↔ a.toNat = 0) := by
  have hcc : (s1.set16 r a).get8 .cc = s1.get8 .cc := set16_cc s1.regs r a
  simp only [loadAddressZ, h, orNothing, State.setFlag, hcc]
  refine ⟨writes16_of fun k hk => ?_, ?_⟩
  · rw [Flag.get_put, if_neg (List.ne_of_not_mem_cons hk)]
  · show Flag.z.get (Flag.z.put (a == 0#16) (s1.get8 .cc)) = true ↔ _
    rw [Flag.get_put, if_pos rfl, word_zero_iff]

/-- Settles O17: LEAX and LEAY write Z with their register, LEAS and LEAU the register alone. -/
theorem loadsOfAnAddress : Obligations.LoadsOfAnAddress := by
  intro s s1 i a h
  simp only [List.forall_mem_cons, List.not_mem_nil, IsEmpty.forall_iff, implies_true, and_true]
  exact ⟨⟨⟨_, rfl, loadAddressZ_spec h⟩, _, rfl, loadAddressZ_spec h⟩, ⟨_, rfl, loadAddress_spec h⟩, _, rfl, loadAddress_spec h⟩

/-! ## What an operation on one byte computes -/

/-- R30, R231: in every state whose `CC` the operation gave, its result and flags are as the rule says, and the flags it does not write
are those it was given. -/
def Computes (op : Byte → Byte → Byte × Byte) (written : List Flag) (rule : Byte → Bool → Byte → State → Prop) : Prop :=
  ∀ (m cc : Byte) (t : State), (op m cc).2 = t.get8 .cc →
    rule m (Flag.c.get cc) (op m cc).1 t ∧ ∀ k : Flag, k ∉ written → k.get (t.get8 .cc) = k.get cc

/-- R219 -/
theorem negOp_computes : Computes negOp [.n, .z, .v, .c] Negated := by
  intro m cc t ht
  obtain ⟨hval, hn, hz, hv, hc, hkept⟩ := ht ▸ negOp_spec m cc
  exact ⟨⟨hval, ⟨hn, hz⟩, hv, hc⟩, hkept⟩

/-- R222 -/
theorem incOp_computes : Computes incOp [.n, .z, .v] Incremented := by
  intro m cc t ht
  obtain ⟨hval, hn, hz, hv, hkept⟩ := ht ▸ incOp_spec m cc
  exact ⟨⟨hval, ⟨hn, hz⟩, hv⟩, hkept⟩

/-- R225 -/
theorem decOp_computes : Computes decOp [.n, .z, .v] Decremented := by
  intro m cc t ht
  obtain ⟨hval, hn, hz, hv, hkept⟩ := ht ▸ decOp_spec m cc
  exact ⟨⟨hval, ⟨hn, hz⟩, hv⟩, hkept⟩

/-- R190 -/
theorem clrOp_computes : Computes clrOp [.n, .z, .v, .c] Cleared := by
  intro m cc t ht
  obtain ⟨hval, hn, hz, hv, hc, hkept⟩ := ht ▸ clrOp_spec m cc
  exact ⟨⟨congrArg BitVec.toNat hval, ne_true_of_eq_false hn, hz, ne_true_of_eq_false hv, ne_true_of_eq_false hc⟩, hkept⟩

/-- R255 -/
theorem comOp_computes : Computes comOp [.n, .z, .v, .c] Complemented := by
  intro m cc t ht
  obtain ⟨hval, hn, hz, hv, hc, hkept⟩ := ht ▸ comOp_spec m cc
  exact ⟨⟨hval, ⟨hn, hz⟩, ne_true_of_eq_false hv, hc⟩, hkept⟩

section

variable {op : Byte → Byte → Byte × Byte} {written : List Flag} {rule : Byte → Bool → Byte → State → Prop}

/-- R231: everything a read-modify-write of memory does, from the rule of its operation. -/
theorem modify_computes {ea : Ea} {s s1 : State} {a : Word} (hop : Computes op written rule) (h : resolve ea s = some (a, s1)) :
    let t := Machine.modify op ea s
    let v := (op (s1.byteAt a) (s1.get8 .cc)).1
    Stores8 a v [.write a v, .read a false (s1.byteAt a)] written s1 t ∧
    rule (s1.byteAt a) (Flag.c.get (s1.get8 .cc)) v t := by
  rw [modify_of h]
  obtain ⟨hrule, hkept⟩ := hop (s1.byteAt a) (s1.get8 .cc) (write8 a _ (State.set8 _ .cc _)) rfl
  exact ⟨stores8_of_modify hkept, hrule⟩

/-- R231: everything the accumulator form does, from the rule of its operation. -/
theorem modifyAcc_computes {r : Reg8} {s : State} (hop : Computes op written rule) :
    let t := modifyAcc r op s
    let v := (op (s.get8 r) (s.get8 .cc)).1
    Writes8 r v written s t ∧ rule (s.get8 r) (Flag.c.get (s.get8 .cc)) v t := by
  obtain ⟨hrule, hkept⟩ := hop (s.get8 r) (s.get8 .cc) (modifyAcc r op s) rfl
  exact ⟨writes8_of hkept, hrule⟩

end

/-- Settles O21: each of the five is the read-modify-write of an operation that computes its rule. -/
theorem arithmeticOnMemory : Obligations.ArithmeticOnMemory := by
  intro s s1 ea a h
  simp only [List.forall_mem_cons, List.not_mem_nil, IsEmpty.forall_iff, implies_true, and_true]
  exact ⟨⟨_, _, rfl, modify_computes negOp_computes h⟩,
    ⟨_, _, rfl, modify_computes incOp_computes h⟩,
    ⟨_, _, rfl, modify_computes decOp_computes h⟩,
    ⟨_, _, rfl, modify_computes clrOp_computes h⟩,
    ⟨_, _, rfl, modify_computes comOp_computes h⟩⟩

/-- Settles O22: each of the ten is the accumulator form of an operation that computes its rule. -/
theorem arithmeticOnAnAccumulator : Obligations.ArithmeticOnAnAccumulator := by
  intro s
  simp only [List.forall_mem_cons, List.not_mem_nil, IsEmpty.forall_iff, implies_true, and_true]
  exact ⟨⟨_, _, rfl, modifyAcc_computes negOp_computes⟩, ⟨_, _, rfl, modifyAcc_computes negOp_computes⟩,
    ⟨_, _, rfl, modifyAcc_computes incOp_computes⟩, ⟨_, _, rfl, modifyAcc_computes incOp_computes⟩,
    ⟨_, _, rfl, modifyAcc_computes decOp_computes⟩, ⟨_, _, rfl, modifyAcc_computes decOp_computes⟩,
    ⟨_, _, rfl, modifyAcc_computes clrOp_computes⟩, ⟨_, _, rfl, modifyAcc_computes clrOp_computes⟩,
    ⟨_, _, rfl, modifyAcc_computes comOp_computes⟩, ⟨_, _, rfl, modifyAcc_computes comOp_computes⟩⟩

end Sys2Proof.Machine

namespace Sys2Proof.Machine

/-! ## Addition and subtraction -/

theorem get16_d_toNat (s : State) : (s.get16 .d).toNat = 256 * s.regs.a.toNat + s.regs.b.toNat :=
  joinBytes_toNat s.regs.a s.regs.b

section

variable {r : Reg8} {op : Byte → Byte → Byte → Byte × Byte} {src : Src8} {s s1 : State} {m : Byte} {c : Bool}

/-- R203: everything an addition to an accumulator does, where `c` is the carry that its operation brings in. -/
theorem accumulate8_add (h : operand8 src s = some (m, s1))
    (hop : op (s1.get8 r) m (s1.get8 .cc) = add8 (s1.get8 r) m c (s1.get8 .cc)) :
    let sum := (s1.get8 r).toNat + m.toNat + c.toNat
    let t := accumulate8 r op src s
    Writes8 r (BitVec.ofNat 8 sum) [.h, .n, .z, .v, .c] s1 t ∧ ShowsNZ8 (BitVec.ofNat 8 sum) t ∧
    (FlagSet .c t ↔ 255 < sum) ∧ (FlagSet .v t ↔ ¬ FitsSigned8 ((s1.get8 r).toInt + m.toInt + c.toNat)) ∧
    (FlagSet .h t ↔ 15 < (s1.get8 r).toNat % 16 + m.toNat % 16 + c.toNat) := by
  obtain ⟨hval, hn, hz, hc, hv, hh, hkept⟩ := add8_spec (s1.get8 r) m c (s1.get8 .cc)
  simp only [accumulate8_of h, hop, ← hval]
  exact ⟨writes8_of hkept, ⟨hn, hz⟩, hc, hv, hh⟩

/-- R209: everything a subtraction from an accumulator does, where `c` is the borrow that its operation brings in. -/
theorem accumulate8_sub (h : operand8 src s = some (m, s1))
    (hop : op (s1.get8 r) m (s1.get8 .cc) = sub8 (s1.get8 r) m c (s1.get8 .cc)) :
    let difference : Int := (s1.get8 r).toNat - m.toNat - c.toNat
    let t := accumulate8 r op src s
    Writes8 r (BitVec.ofInt 8 difference) [.n, .z, .v, .c] s1 t ∧ ShowsNZ8 (BitVec.ofInt 8 difference) t ∧
    (FlagSet .c t ↔ difference < 0) ∧ (FlagSet .v t ↔ ¬ FitsSigned8 ((s1.get8 r).toInt - m.toInt - c.toNat)) := by
  obtain ⟨hval, hn, hz, hc, hv, hkept⟩ := sub8_spec (s1.get8 r) m c (s1.get8 .cc)
  simp only [accumulate8_of h, hop, ← hval]
  exact ⟨writes8_of hkept, ⟨hn, hz⟩, hc, hv⟩

end

/-- R202, R203: everything ADDD does; H is not written. -/
theorem accumulate16_add {src : Src16} {s s1 : State} {m : Word} (h : operand16 src s = some (m, s1)) :
    let sum := (s1.get16 .d).toNat + m.toNat
    let t := accumulate16 .d add16 src s
    Writes16 .d (BitVec.ofNat 16 sum) [.n, .z, .v, .c] s1 t ∧ ShowsNZ16 (BitVec.ofNat 16 sum) t ∧
    (FlagSet .c t ↔ 65535 < sum) ∧ (FlagSet .v t ↔ ¬ FitsSigned16 ((s1.get16 .d).toInt + m.toInt)) := by
  obtain ⟨hval, hn, hz, hc, hv, hkept⟩ := add16_spec (s1.get16 .d) m (s1.get8 .cc)
  simp only [accumulate16_of h, ← hval]
  exact ⟨writes16_of hkept, ⟨hn, hz⟩, hc, hv⟩

/-- R208, R209: everything SUBD does. -/
theorem accumulate16_sub {src : Src16} {s s1 : State} {m : Word} (h : operand16 src s = some (m, s1)) :
    let difference := BitVec.ofInt 16 ((s1.get16 .d).toNat - m.toNat)
    let t := accumulate16 .d sub16 src s
    Writes16 .d difference [.n, .z, .v, .c] s1 t ∧ ShowsNZ16 difference t ∧
    (FlagSet .c t ↔ (s1.get16 .d).toNat < m.toNat) ∧ (FlagSet .v t ↔ ¬ FitsSigned16 ((s1.get16 .d).toInt - m.toInt)) := by
  obtain ⟨hval, hn, hz, hc, hv, hkept⟩ := sub16_spec (s1.get16 .d) m (s1.get8 .cc)
  simp only [accumulate16_of h, ← hval]
  exact ⟨writes16_of hkept, ⟨hn, hz⟩, hc, hv⟩

/-- Settles O18: the four of a byte are `add8` with no carry or the old one, and ADDD is `add16`. -/
theorem additionOfBytesAndWords : Obligations.AdditionOfBytesAndWords := by
  refine ⟨fun s s1 src m h => ?_, fun s s1 src m h => ?_⟩
  · simp only [List.forall_mem_cons, List.not_mem_nil, IsEmpty.forall_iff, implies_true, and_true]
    and_intros <;> exact ⟨_, rfl, accumulate8_add h rfl⟩
  · rw [← get16_d_toNat]
    exact ⟨_, rfl, accumulate16_add h⟩

/-- Settles O19: the four of a byte are `sub8` with no borrow or the old one, and SUBD is `sub16`. -/
theorem subtractionOfBytesAndWords : Obligations.SubtractionOfBytesAndWords := by
  refine ⟨fun s s1 src m h => ?_, fun s s1 src m h => ?_⟩
  · simp only [List.forall_mem_cons, List.not_mem_nil, IsEmpty.forall_iff, implies_true, and_true]
    and_intros <;> exact ⟨_, rfl, accumulate8_sub h rfl⟩
  · rw [← get16_d_toNat]
    exact ⟨_, rfl, accumulate16_sub h⟩

/-! ## Comparison -/

/-- R209: a difference of numbers modulo the width is the difference of words. -/
theorem ofInt_sub_toNat {w : Nat} (x y : BitVec w) : BitVec.ofInt w (x.toNat - y.toNat) = x - y := by
  rw [sub_eq_add_neg, BitVec.ofInt_add, BitVec.ofInt_neg, BitVec.ofInt_natCast, BitVec.ofInt_natCast, BitVec.ofNat_toNat,
    BitVec.ofNat_toNat, BitVec.setWidth_eq, BitVec.setWidth_eq, ← BitVec.sub_eq_add_neg]

theorem sub_toNat_eq_zero_iff {w : Nat} (x y : BitVec w) : (x - y).toNat = 0 ↔ x = y := by
  simp [← sub_eq_zero (a := x), ← BitVec.toNat_inj]

/-- R34: the sign of a byte difference is that of the signed difference unless it overflows. -/
theorem sub_sign_ne_overflow8 (x y : Byte) :
    ¬ ((x - y).toInt < 0 ↔ ¬ FitsSigned8 (x.toInt - y.toInt)) ↔ x.toInt < y.toInt := by
  have hx := x.isLt
  have hy := y.isLt
  rw [FitsSigned8, BitVec.toInt_sub, Int.bmod_def, byte_toInt, byte_toInt]
  split <;> split <;> split <;> omega

theorem sub_sign_ne_overflow16 (x y : Word) :
    ¬ ((x - y).toInt < 0 ↔ ¬ FitsSigned16 (x.toInt - y.toInt)) ↔ x.toInt < y.toInt := by
  have hx := x.isLt
  have hy := y.isLt
  rw [FitsSigned16, BitVec.toInt_sub, Int.bmod_def, word_toInt, word_toInt]
  split <;> split <;> split <;> omega

/-- R209, R212, R213: everything a compare of a byte does. -/
theorem compare8_sub {r : Reg8} {src : Src8} {s s1 : State} {m : Byte} (h : operand8 src s = some (m, s1)) :
    let t := compare8 r subOp src s
    WritesFlags [.n, .z, .v, .c] s1 t ∧ ShowsNZ8 (s1.get8 r - m) t ∧ (FlagSet .z t ↔ s1.get8 r = m) ∧
    (FlagSet .c t ↔ (s1.get8 r).toNat < m.toNat) ∧ (FlagSet .v t ↔ ¬ FitsSigned8 ((s1.get8 r).toInt - m.toInt)) ∧
    ((¬ (FlagSet .n t ↔ FlagSet .v t)) ↔ (s1.get8 r).toInt < m.toInt) := by
  obtain ⟨hval, hn, hz, hc, hv, hkept⟩ := sub8_spec (s1.get8 r) m false (s1.get8 .cc)
  simp only [Bool.toNat_false, Nat.cast_zero, sub_zero, ofInt_sub_toNat] at hval hc hv
  rw [hval] at hn hz
  rw [compare8_of h]
  exact ⟨writesFlags_of hkept, ⟨hn, hz⟩, hz.trans (sub_toNat_eq_zero_iff _ m), hc.trans (by omega), hv,
    (not_congr (iff_congr hn hv)).trans (sub_sign_ne_overflow8 _ m)⟩

/-- R209, R214 to R218: everything a compare of a word does. -/
theorem compare16_sub {r : Reg16} {src : Src16} {s s1 : State} {m : Word} (h : operand16 src s = some (m, s1)) :
    let t := compare16 r sub16 src s
    WritesFlags [.n, .z, .v, .c] s1 t ∧ ShowsNZ16 (s1.get16 r - m) t ∧ (FlagSet .z t ↔ s1.get16 r = m) ∧
    (FlagSet .c t ↔ (s1.get16 r).toNat < m.toNat) ∧ (FlagSet .v t ↔ ¬ FitsSigned16 ((s1.get16 r).toInt - m.toInt)) ∧
    ((¬ (FlagSet .n t ↔ FlagSet .v t)) ↔ (s1.get16 r).toInt < m.toInt) := by
  obtain ⟨hval, hn, hz, hc, hv, hkept⟩ := sub16_spec (s1.get16 r) m (s1.get8 .cc)
  rw [hval, ofInt_sub_toNat] at hn hz
  rw [compare16_of h]
  exact ⟨writesFlags_of hkept, ⟨hn, hz⟩, hz.trans (sub_toNat_eq_zero_iff _ m), hc, hv,
    (not_congr (iff_congr hn hv)).trans (sub_sign_ne_overflow16 _ m)⟩

/-- Settles O20: each of the seven is the compare of its width with its register. -/
theorem comparisons : Obligations.Comparisons := by
  refine ⟨fun s s1 src m h => ?_, fun s s1 src m h => ?_⟩
  all_goals simp only [List.forall_mem_cons, List.not_mem_nil, IsEmpty.forall_iff, implies_true, and_true]
  · and_intros <;> exact ⟨_, rfl, compare8_sub h⟩
  · and_intros <;> exact ⟨_, rfl, compare16_sub h⟩

/-! ## Test -/

theorem set8_get8_self (r : Regs) (k : Reg8) : r.set8 k (r.get8 k) = r := by cases k <;> rfl

/-- R228: everything TST of memory does, `s1` being the state that the resolver leaves. -/
theorem test_tst {ea : Ea} {s s1 : State} {a : Word} (h : resolve ea s = some (a, s1)) :
    let t := test tstOp ea s
    t.regs = s1.regs.set8 .cc (t.get8 .cc) ∧ SameFlags [.n, .z, .v] s1 t ∧ SameMemory s1 t ∧
    t.bus = .read a false (s1.byteAt a) :: s1.bus ∧ SameControl s1 t ∧ ShowsNZ8 (s1.byteAt a) t ∧ ¬ FlagSet .v t := by
  obtain ⟨hn, hz, hv, hkept⟩ := nzv8_spec (s1.byteAt a) (s1.get8 .cc)
  rw [test_of h]
  exact ⟨rfl, hkept, SameMemory.refl s1, rfl, SameControl.refl s1, ⟨hn, hz⟩, ne_true_of_eq_false hv⟩

/-- R229, R230: everything TST of an accumulator does; the accumulator is written with its own value. -/
theorem modifyAcc_tst (r : Reg8) (s : State) :
    let t := modifyAcc r tstOp s
    WritesFlags [.n, .z, .v] s t ∧ ShowsNZ8 (s.get8 r) t ∧ ¬ FlagSet .v t := by
  obtain ⟨hn, hz, hv, hkept⟩ := nzv8_spec (s.get8 r) (s.get8 .cc)
  have hregs : (modifyAcc r tstOp s).regs = s.regs.set8 .cc (nzv8 (s.get8 r) (s.get8 .cc)) :=
    congrArg (Regs.set8 · .cc _) (set8_get8_self s.regs r)
  exact ⟨⟨hregs, hkept, SameMemory.refl s, rfl, SameControl.refl s⟩, ⟨hn, hz⟩, ne_true_of_eq_false hv⟩

/-- Settles O23: by the memory form and the accumulator form of TST. -/
theorem testsOfAByte : Obligations.TestsOfAByte := by
  refine ⟨fun s s1 ea a h => ⟨_, rfl, test_tst h⟩, fun s => ?_⟩
  simp only [List.forall_mem_cons, List.not_mem_nil, IsEmpty.forall_iff, implies_true, and_true]
  exact ⟨⟨_, rfl, modifyAcc_tst .a s⟩, _, rfl, modifyAcc_tst .b s⟩

end Sys2Proof.Machine

namespace Sys2Proof.Machine

/-! ## MUL, SEX and ABX -/

/-- R237: what an instruction does that writes a 16-bit register and no flag. -/
theorem writes16_set16 (r : Reg16) (v : Word) (s : State) : Writes16 r v [] s (s.set16 r v) :=
  ⟨rfl, fun k _ => congrArg k.get (set16_cc s.regs r v), SameMemory.refl s, rfl, SameControl.refl s⟩

theorem add_zext8_eq_ofNat (w : Word) (v : Byte) : w + zext8 v = BitVec.ofNat 16 (w.toNat + v.toNat) := by
  rw [zext8, BitVec.ofNat_add, BitVec.ofNat_toNat, BitVec.ofNat_toNat, BitVec.setWidth_eq]

theorem word_bit7_iff (w : Word) : w.getLsbD 7 = true ↔ 128 ≤ w.toNat % 256 := by
  rw [BitVec.getLsbD, Nat.testBit_eq_decide_div_mod_eq, decide_eq_true_eq]
  omega

/-- R232 on numbers: the product of two bytes fits in a word. -/
theorem mulOp_spec (a b cc : Byte) :
    let product := a.toNat * b.toNat
    let out := mulOp a b cc
    out.1 = BitVec.ofNat 16 product ∧ (Flag.z.get out.2 = true ↔ product = 0) ∧
    (Flag.c.get out.2 = true ↔ 128 ≤ product % 256) ∧ (∀ k : Flag, k ∉ [Flag.z, .c] → k.get out.2 = k.get cc) := by
  intro product out
  have hval : out.1 = BitVec.ofNat 16 product := by
    rw [BitVec.ofNat_mul, BitVec.ofNat_toNat, BitVec.ofNat_toNat]
    rfl
  have hlt : product < 65536 := Nat.mul_lt_mul'' a.isLt b.isLt
  have hnat : out.1.toNat = product := by rw [hval, BitVec.toNat_ofNat, Nat.mod_eq_of_lt hlt]
  refine ⟨hval, ?_, ?_, ?_⟩
  · simp only [out, mulOp, Flag.get_put, reduceCtorEq, if_false, if_true]
    rw [← hnat]
    exact word_zero_iff _
  · simp only [out, mulOp, Flag.get_put, if_true]
    rw [← hnat]
    exact word_bit7_iff _
  · intro k hk
    simp only [List.mem_cons, List.not_mem_nil, or_false, not_or] at hk
    simp only [out, mulOp, Flag.get_put, hk, if_false]

/-- R233: a high byte of sign bits extends the signed value. -/
theorem sexOp_fst (b cc : Byte) : (sexOp b cc).1 = BitVec.ofInt 16 b.toInt := by
  apply BitVec.eq_of_toNat_eq
  have hb := b.isLt
  have hjoin : (sexOp b cc).1 = joinBytes (if b.getLsbD 7 then 0xFF#8 else 0x00#8) b := rfl
  rw [hjoin, joinBytes_toNat, BitVec.toNat_ofInt, byte_sign, byte_toInt]
  by_cases h : 128 ≤ b.toNat
  · rw [decide_eq_true h, if_pos rfl, if_neg (Nat.not_lt.2 h), BitVec.toNat_ofNat]
    omega
  · rw [decide_eq_false h, if_neg Bool.false_ne_true, if_pos (Nat.not_le.1 h), BitVec.toNat_ofNat]
    omega

/-- Settles O24: MUL and SEX write `D` and the flags of their operation, ABX a sum to `X`. -/
theorem multiplySignExtendAddB : Obligations.MultiplySignExtendAddB := by
  intro s
  refine ⟨?_, ?_, ?_⟩
  · obtain ⟨hval, hz, hc, hkept⟩ := mulOp_spec s.regs.a s.regs.b s.regs.cc
    rw [← hval]
    exact ⟨_, rfl, writes16_of hkept, hz, hc⟩
  · rw [← sexOp_fst s.regs.b s.regs.cc]
    exact ⟨_, rfl, writes16_of (nz16_keeps _ _), nz16_n _ _, nz16_z _ _⟩
  · rw [← add_zext8_eq_ofNat]
    exact ⟨_, rfl, writes16_set16 .x _ s⟩

/-! ## DAA -/

/-- R235: the correction on numbers, of the byte `a` with the flags H and C. -/
def decimalCorrection (a : Nat) (h c : Bool) : Nat :=
  (if 9 < a % 16 ∨ h = true then 0x06 else 0) +
  (if (8 < a / 16 ∧ 9 < a % 16) ∨ 9 < a / 16 ∨ c = true then 0x60 else 0)

theorem daaCorrection_toNat (a cc : Byte) :
    (daaCorrection a cc).toNat = decimalCorrection a.toNat (Flag.h.get cc) (Flag.c.get cc) := by
  simp only [daaCorrection, decimalCorrection, loNibble_toNat, hiNibble_toNat]
  split <;> split <;> rfl

/-- R235 on numbers. -/
theorem daaOp_spec (a cc : Byte) :
    let corrected := a.toNat + decimalCorrection a.toNat (Flag.h.get cc) (Flag.c.get cc)
    let out := daaOp a cc
    out.1 = BitVec.ofNat 8 corrected ∧
    (Flag.n.get out.2 = true ↔ out.1.toInt < 0) ∧ (Flag.z.get out.2 = true ↔ out.1.toNat = 0) ∧
    (Flag.c.get out.2 = true ↔ Flag.c.get cc = true ∨ 255 < corrected) ∧
    (∀ k : Flag, k ∉ [Flag.n, .z, .c] → k.get out.2 = k.get cc) := by
  have ha := a.isLt
  have hcorrection := (daaCorrection a cc).isLt
  simp only [← daaCorrection_toNat]
  refine ⟨?_, ?_, ?_, ?_, ?_⟩
  · exact BitVec.eq_of_toNat_eq (by simp [daaOp])
  · simp only [daaOp, Flag.get_put, reduceCtorEq, if_false]; exact nz8_n _ _
  · simp only [daaOp, Flag.get_put, reduceCtorEq, if_false]; exact nz8_z _ _
  · simp only [daaOp, Flag.get_put, if_true, Bool.or_eq_true, word_bit8, decide_eq_true_eq, BitVec.toNat_add,
      BitVec.toNat_setWidth]
    exact or_congr_right (by omega)
  · intro k hk
    simp only [List.mem_cons, List.not_mem_nil, or_false, not_or] at hk
    obtain ⟨hn, hz, hc⟩ := hk
    simp only [daaOp, Flag.get_put, hc, if_false, nz8_other _ _ hn hz]

/-- R235: everything DAA does. -/
theorem modifyAcc_daa (s : State) :
    let corrected := s.regs.a.toNat + decimalCorrection s.regs.a.toNat (Flag.h.get s.regs.cc) (Flag.c.get s.regs.cc)
    let t := modifyAcc .a daaOp s
    Writes8 .a (BitVec.ofNat 8 corrected) [.n, .z, .c] s t ∧ ShowsNZ8 (BitVec.ofNat 8 corrected) t ∧
    (FlagSet .c t ↔ FlagSet .c s ∨ 255 < corrected) := by
  obtain ⟨hval, hn, hz, hc, hkept⟩ := daaOp_spec s.regs.a s.regs.cc
  simp only [← hval]
  exact ⟨writes8_of hkept, ⟨hn, hz⟩, hc⟩

/-- Settles O25: the correction is the sum of its two digits, each there or not. -/
theorem decimalAdjust : Obligations.DecimalAdjust := by
  intro s lo hi low high
  refine ⟨decimalCorrection s.regs.a.toNat (Flag.h.get s.regs.cc) (Flag.c.get s.regs.cc), _, rfl, ?_, ?_, ?_, ?_,
    modifyAcc_daa s⟩
  all_goals
    rintro ⟨hlow, hhigh⟩
  · exact congrArg₂ (· + ·) (if_neg hlow) (if_neg hhigh)
  · exact congrArg₂ (· + ·) (if_pos hlow) (if_neg hhigh)
  · exact congrArg₂ (· + ·) (if_neg hlow) (if_pos hhigh)
  · exact congrArg₂ (· + ·) (if_pos hlow) (if_pos hhigh)

/-! ## Decimal addition -/

/-- R235: a number below 100 as two decimal digits of 4 bits. -/
def packed (n : Nat) : Nat := 16 * (n / 10) + n % 10

theorem packed_lt {n : Nat} (h : n < 100) : packed n < 256 := by
  rw [packed]
  omega

theorem packed_mod_sixteen (n : Nat) : packed n % 16 = n % 10 := by
  rw [packed]
  omega

/-- The idea of R235: 6 for each carry of the units and `$60` for each carry of the tens turn a sum of digits to the base 16
into a sum to the base 10. -/
theorem packed_of_digit_sums (t u : Nat) :
    16 * t + u + (0x06 * (u / 10) + 0x60 * ((10 * t + u) / 100)) = 256 * ((10 * t + u) / 100) + packed ((10 * t + u) % 100) := by
  have hunits : (10 * t + u) % 100 % 10 = u % 10 := by omega
  have htens : (10 * t + u) % 100 / 10 + 10 * ((10 * t + u) / 100) = t + u / 10 := by omega
  rw [packed, hunits]
  omega

section

/-! `t` and `u` are the sums of the tens and of the units (with the carry) of two packed numbers, `a` the byte that the binary
addition leaves, `h` and `c` its carries. -/

variable {t u a : Nat} {h c : Bool} (ht : t ≤ 18) (hu : u ≤ 19) (ha : a = (16 * t + u) % 256)
  (hh : h = true ↔ 15 < u) (hc : c = true ↔ 255 < 16 * t + u)

include ht hu ha hh hc

/-- R235: each digit is corrected exactly when it carries in decimal. -/
theorem decimalCorrection_of_sum : decimalCorrection a h c = 0x06 * (u / 10) + 0x60 * ((10 * t + u) / 100) := by
  have hlo : a % 16 = u % 16 := by omega
  have hhi : a / 16 = (t + u / 16) % 16 := by omega
  have hunits : (9 < a % 16 ∨ h = true) ↔ 10 ≤ u := by rw [hlo, hh]; omega
  have htens : ((8 < a / 16 ∧ 9 < a % 16) ∨ 9 < a / 16 ∨ c = true) ↔ 100 ≤ 10 * t + u := by rw [hlo, hhi, hc]; omega
  simp only [decimalCorrection, hunits, htens]
  split <;> split <;> omega

/-- R235: the corrected byte is the decimal sum, packed, and its carry the decimal carry. -/
theorem corrected_sum :
    (a + decimalCorrection a h c) % 256 = packed ((10 * t + u) % 100) ∧
    (c = true ∨ 255 < a + decimalCorrection a h c ↔ 100 ≤ 10 * t + u) := by
  have hsum := packed_of_digit_sums t u
  have hlt : packed ((10 * t + u) % 100) < 256 := packed_lt (Nat.mod_lt _ (by decide))
  rw [← decimalCorrection_of_sum ht hu ha hh hc] at hsum
  refine ⟨?_, ?_⟩
  · rw [ha, Nat.mod_add_mod, ← ha, hsum, Nat.mul_add_mod, Nat.mod_eq_of_lt hlt]
  · rw [hc]
    omega

end

/-- R235: DAA of a state that a binary addition left, `t` and `u` as above. -/
theorem daa_of_digit_sums {s : State} {t u : Nat} (ht : t ≤ 18) (hu : u ≤ 19) (ha : s.regs.a.toNat = (16 * t + u) % 256)
    (hh : FlagSet .h s ↔ 15 < u) (hc : FlagSet .c s ↔ 255 < 16 * t + u) :
    let s' := modifyAcc .a daaOp s
    s'.regs.a = BitVec.ofNat 8 (packed ((10 * t + u) % 100)) ∧ (FlagSet .c s' ↔ 100 ≤ 10 * t + u) := by
  obtain ⟨hval, hcarry⟩ := corrected_sum ht hu ha hh hc
  obtain ⟨⟨hregs, -⟩, -, hc'⟩ := modifyAcc_daa s
  refine ⟨?_, hc'.trans hcarry⟩
  rw [hregs, ← hval]
  exact BitVec.eq_of_toNat_eq (Nat.mod_mod _ 256).symm

/-- R200, R204, R235: DAA after an addition of packed numbers to A, where `c` is the carry that the addition brings in. -/
theorem daa_after_add {s : State} {x y : Nat} {op : Byte → Byte → Byte → Byte × Byte} {c : Bool} (hx : x < 100) (hy : y < 100)
    (ha : s.regs.a = BitVec.ofNat 8 (packed x)) (hop : ∀ r m, op r m s.regs.cc = add8 r m c s.regs.cc) :
    let s' := modifyAcc .a daaOp (accumulate8 .a op (.imm (BitVec.ofNat 8 (packed y))) s)
    s'.regs.a = BitVec.ofNat 8 (packed ((x + y + c.toNat) % 100)) ∧ (FlagSet .c s' ↔ 100 ≤ x + y + c.toNat) := by
  have hcarry := Bool.toNat_le c
  have hdecimal : x + y + c.toNat = 10 * (x / 10 + y / 10) + (x % 10 + y % 10 + c.toNat) := by omega
  have hbinary : packed x + packed y + c.toNat = 16 * (x / 10 + y / 10) + (x % 10 + y % 10 + c.toNat) := by
    rw [packed, packed]
    omega
  have hxa : (s.get8 .a).toNat = packed x := by
    rw [State.get8, Regs.get8, ha, BitVec.toNat_ofNat, Nat.mod_eq_of_lt (packed_lt hx)]
  have hym : (BitVec.ofNat 8 (packed y)).toNat = packed y := by
    rw [BitVec.toNat_ofNat, Nat.mod_eq_of_lt (packed_lt hy)]
  obtain ⟨⟨hregs, -⟩, -, hc, -, hh⟩ :=
    accumulate8_add (r := .a) (src := .imm (BitVec.ofNat 8 (packed y))) rfl (hop (s.get8 .a) _)
  rw [hxa, hym] at hregs hc hh
  rw [hbinary] at hregs hc
  rw [packed_mod_sixteen, packed_mod_sixteen] at hh
  rw [hdecimal]
  refine daa_of_digit_sums (by omega) (by omega) ?_ hh hc
  rw [hregs]
  exact BitVec.toNat_ofNat _ 8

/-- Settles O26: ADDA and ADCA are additions with no carry or the old one. -/
theorem decimalAdditionIsDecimal : Obligations.DecimalAdditionIsDecimal := by
  intro s x y hx hy bcd ha
  simp only [List.forall_mem_cons, List.not_mem_nil, IsEmpty.forall_iff, implies_true, and_true]
  exact ⟨⟨_, _, rfl, rfl, daa_after_add (c := false) hx hy ha fun _ _ => rfl⟩,
    _, _, rfl, rfl, daa_after_add (c := Flag.c.get s.regs.cc) hx hy ha fun _ _ => rfl⟩

end Sys2Proof.Machine

namespace Sys2Proof.Machine

/-! ## Shifts of memory -/

/-- R280 -/
theorem aslOp_computes : Computes aslOp [.n, .z, .v, .c] ShiftedLeft := by
  intro m cc t ht
  obtain ⟨hval, hn, hz, hc, hv, hkept⟩ := ht ▸ aslOp_spec m cc
  exact ⟨⟨hval, ⟨hn, hz⟩, hc, hv⟩, hkept⟩

/-- R283 -/
theorem asrOp_computes : Computes asrOp [.n, .z, .c] ShiftedRightArithmetic := by
  intro m cc t ht
  obtain ⟨hval, hn, hz, hc, hkept⟩ := ht ▸ asrOp_spec m cc
  exact ⟨⟨hval, ⟨hn, hz⟩, hc⟩, hkept⟩

/-- R286: N is clear, as half of a byte is below 128. -/
theorem lsrOp_computes : Computes lsrOp [.n, .z, .c] ShiftedRightLogical := by
  intro m cc t ht
  obtain ⟨hval, hn, hz, hc, hkept⟩ := ht ▸ lsrOp_spec m cc
  have hpositive : ¬ (lsrOp m cc).1.toInt < 0 := by
    have hm := m.isLt
    rw [← byte_sign_iff, byte_bit7_iff, hval]
    omega
  exact ⟨⟨hval, ⟨hn, hz⟩, mt hn.1 hpositive, hc⟩, hkept⟩

/-- R289 -/
theorem rolOp_computes : Computes rolOp [.n, .z, .v, .c] RotatedLeft := by
  intro m cc t ht
  obtain ⟨hval, hn, hz, hc, hv, hkept⟩ := ht ▸ rolOp_spec m cc
  exact ⟨⟨hval, ⟨hn, hz⟩, hc, hv⟩, hkept⟩

/-- R292 -/
theorem rorOp_computes : Computes rorOp [.n, .z, .c] RotatedRight := by
  intro m cc t ht
  obtain ⟨hval, hn, hz, hc, hkept⟩ := ht ▸ rorOp_spec m cc
  exact ⟨⟨hval, ⟨hn, hz⟩, hc⟩, hkept⟩

/-- Settles O29: each of the five is the read-modify-write of an operation that computes its rule. -/
theorem shiftsOfMemory : Obligations.ShiftsOfMemory := by
  intro s s1 ea a h
  simp only [List.forall_mem_cons, List.not_mem_nil, IsEmpty.forall_iff, implies_true, and_true]
  exact ⟨⟨_, _, rfl, modify_computes aslOp_computes h⟩,
    ⟨_, _, rfl, modify_computes asrOp_computes h⟩,
    ⟨_, _, rfl, modify_computes lsrOp_computes h⟩,
    ⟨_, _, rfl, modify_computes rolOp_computes h⟩,
    ⟨_, _, rfl, modify_computes rorOp_computes h⟩⟩

end Sys2Proof.Machine

namespace Sys2Proof.Machine

/-! ## Logical operations -/

/-- R250, R253, R260: the operation works on each bit alone, sets N and Z from its result and clears V. -/
def Bitwise (op : Byte → Byte → Byte → Byte × Byte) (onBits : Bool → Bool → Bool) : Prop :=
  ∀ r m cc : Byte, (op r m cc).2 = nzv8 (op r m cc).1 cc ∧
    ∀ k, k < 8 → (op r m cc).1.getLsbD k = onBits (r.getLsbD k) (m.getLsbD k)

/-- R250, R258 -/
theorem andOp_bitwise : Bitwise andOp (fun x y => x && y) := fun _ _ _ => ⟨rfl, fun _ _ => BitVec.getLsbD_and⟩

/-- R260 -/
theorem orOp_bitwise : Bitwise orOp (fun x y => x || y) := fun _ _ _ => ⟨rfl, fun _ _ => BitVec.getLsbD_or⟩

/-- R253 -/
theorem eorOp_bitwise : Bitwise eorOp (fun x y => x != y) := fun _ _ _ => ⟨rfl, fun _ _ => BitVec.getLsbD_xor⟩

section

variable {r : Reg8} {op : Byte → Byte → Byte → Byte × Byte} {onBits : Bool → Bool → Bool} {src : Src8} {s s1 : State} {m : Byte}

/-- R250, R253, R260: what a bitwise operation keeps of `CC`, and its result and flags in every state whose `CC` it gave. -/
theorem Bitwise.spec (hop : Bitwise op onBits) (x m cc : Byte) (t : State) (ht : (op x m cc).2 = t.get8 .cc) :
    (∀ k : Flag, k ∉ [Flag.n, .z, .v] → k.get (op x m cc).2 = k.get cc) ∧
    ShowsNZ8 (op x m cc).1 t ∧ ¬ FlagSet .v t ∧
    ∀ k, k < 8 → (op x m cc).1.getLsbD k = onBits (x.getLsbD k) (m.getLsbD k) := by
  obtain ⟨hcc, hbits⟩ := hop x m cc
  obtain ⟨hn, hz, hv, hkept⟩ := nzv8_spec (op x m cc).1 cc
  rw [← hcc] at hn hz hv hkept
  rw [ht] at hn hz hv
  exact ⟨hkept, ⟨hn, hz⟩, ne_true_of_eq_false hv, hbits⟩

/-- R250 to R254, R260: everything a bitwise operation on an accumulator does. -/
theorem accumulate8_bitwise (hop : Bitwise op onBits) (h : operand8 src s = some (m, s1)) :
    let t := accumulate8 r op src s
    let v := (op (s1.get8 r) m (s1.get8 .cc)).1
    Writes8 r v [.n, .z, .v] s1 t ∧ ShowsNZ8 v t ∧ ¬ FlagSet .v t ∧
    ∀ k, k < 8 → v.getLsbD k = onBits ((s1.get8 r).getLsbD k) (m.getLsbD k) := by
  rw [accumulate8_of h]
  obtain ⟨hkept, hresult⟩ := hop.spec (s1.get8 r) m (s1.get8 .cc) (State.set8 _ .cc _) rfl
  exact ⟨writes8_of hkept, hresult⟩

/-- R258, R259: everything a bitwise test of an accumulator does; the result is written nowhere. -/
theorem compare8_bitwise (hop : Bitwise op onBits) (h : operand8 src s = some (m, s1)) :
    let t := compare8 r op src s
    let v := (op (s1.get8 r) m (s1.get8 .cc)).1
    WritesFlags [.n, .z, .v] s1 t ∧ ShowsNZ8 v t ∧ ¬ FlagSet .v t ∧
    ∀ k, k < 8 → v.getLsbD k = onBits ((s1.get8 r).getLsbD k) (m.getLsbD k) := by
  rw [compare8_of h]
  obtain ⟨hkept, hresult⟩ := hop.spec (s1.get8 r) m (s1.get8 .cc) (State.set8 _ .cc _) rfl
  exact ⟨writesFlags_of hkept, hresult⟩

end

/-- Settles O27: each of the eight is a bitwise operation, BIT with its result dropped. -/
theorem logicalOperations : Obligations.LogicalOperations := by
  intro s s1 src m h
  simp only [List.forall_mem_cons, List.not_mem_nil, IsEmpty.forall_iff, implies_true, and_true]
  exact ⟨⟨⟨_, _, rfl, accumulate8_bitwise andOp_bitwise h⟩, ⟨_, _, rfl, accumulate8_bitwise andOp_bitwise h⟩,
    ⟨_, _, rfl, accumulate8_bitwise orOp_bitwise h⟩, ⟨_, _, rfl, accumulate8_bitwise orOp_bitwise h⟩,
    ⟨_, _, rfl, accumulate8_bitwise eorOp_bitwise h⟩, ⟨_, _, rfl, accumulate8_bitwise eorOp_bitwise h⟩⟩,
    ⟨_, _, rfl, compare8_bitwise andOp_bitwise h⟩, ⟨_, _, rfl, compare8_bitwise andOp_bitwise h⟩⟩

/-! ## Masks on the condition codes -/

/-- R261 -/
theorem Flag.get_or_iff (k : Flag) (cc imm : Byte) : k.get (cc ||| imm) = true ↔ k.get cc = true ∨ imm.getLsbD k.bit = true := by
  rw [Flag.get, Flag.get, BitVec.getLsbD_or, Bool.or_eq_true]

/-- R262 -/
theorem Flag.get_and_iff (k : Flag) (cc imm : Byte) : k.get (cc &&& imm) = true ↔ k.get cc = true ∧ imm.getLsbD k.bit = true := by
  rw [Flag.get, Flag.get, BitVec.getLsbD_and, Bool.and_eq_true]

/-- Settles O28: both write `CC` alone, and a flag is a bit of `CC`. -/
theorem masksOnTheConditionCodes : Obligations.MasksOnTheConditionCodes := fun s imm =>
  ⟨⟨_, rfl, rfl, SameMemory.refl s, rfl, SameControl.refl s, fun k => Flag.get_or_iff k (s.get8 .cc) imm⟩,
    _, rfl, rfl, SameMemory.refl s, rfl, SameControl.refl s, fun k => Flag.get_and_iff k (s.get8 .cc) imm⟩

end Sys2Proof.Machine

namespace Sys2Proof.Machine

/-! ## Shifts of an accumulator -/

/-- Settles O30: each of the ten is the accumulator form of an operation that computes its rule. -/
theorem shiftsOfAnAccumulator : Obligations.ShiftsOfAnAccumulator := by
  intro s
  simp only [List.forall_mem_cons, List.not_mem_nil, IsEmpty.forall_iff, implies_true, and_true]
  exact ⟨⟨_, _, rfl, modifyAcc_computes aslOp_computes⟩, ⟨_, _, rfl, modifyAcc_computes aslOp_computes⟩,
    ⟨_, _, rfl, modifyAcc_computes asrOp_computes⟩, ⟨_, _, rfl, modifyAcc_computes asrOp_computes⟩,
    ⟨_, _, rfl, modifyAcc_computes lsrOp_computes⟩, ⟨_, _, rfl, modifyAcc_computes lsrOp_computes⟩,
    ⟨_, _, rfl, modifyAcc_computes rolOp_computes⟩, ⟨_, _, rfl, modifyAcc_computes rolOp_computes⟩,
    ⟨_, _, rfl, modifyAcc_computes rorOp_computes⟩, ⟨_, _, rfl, modifyAcc_computes rorOp_computes⟩⟩

/-! ## Rotates of the byte and C together -/

/-- R289, R292: the ring of nine bits that a rotate turns, of an operand with its `CC`: C at position 0, bit `k` at position `k + 1`. -/
def carryRing (q : Byte × Byte) : Fin 9 → Bool := Fin.cons (Flag.c.get q.2) fun k : Fin 8 => q.1.getLsbD k

/-- The ring is the whole of the byte and C. -/
theorem carryRing_inj {p q : Byte × Byte} : carryRing p = carryRing q ↔ p.1 = q.1 ∧ Flag.c.get p.2 = Flag.c.get q.2 := by
  rw [carryRing, carryRing, Fin.cons_inj, and_comm, funext_iff, BitVec.eq_of_getLsbD_eq_iff, Fin.forall_iff]

/-- The step moves each bit of the ring by `d` positions, round the end. -/
def Turns (d : Fin 9) (f : Byte × Byte → Byte × Byte) : Prop := ∀ q i, carryRing (f q) (i + d) = carryRing q i

theorem turns_comp {d e : Fin 9} {f g : Byte × Byte → Byte × Byte} (hg : Turns e g) (hf : Turns d f) : Turns (d + e) (g ∘ f) := by
  intro q i
  rw [← add_assoc]
  exact (hg (f q) (i + d)).trans (hf q i)

theorem turns_iterate {d : Fin 9} {f : Byte × Byte → Byte × Byte} (hf : Turns d f) : ∀ n : ℕ, Turns (n • d) f^[n]
  | 0 => fun q i => by rw [zero_nsmul, add_zero]; rfl
  | n + 1 => by
    rw [succ_nsmul, Function.iterate_succ']
    exact turns_comp hf (turns_iterate hf n)

/-- A whole turn gives the byte and C back. -/
theorem restores_of_turns_zero {f : Byte × Byte → Byte × Byte} (hf : Turns 0 f) (q : Byte × Byte) :
    (f q).1 = q.1 ∧ Flag.c.get (f q).2 = Flag.c.get q.2 :=
  carryRing_inj.1 (funext fun i => by simpa using hf q i)

/-- Nine steps of any turn are a whole turn. -/
theorem turns_nine {d : Fin 9} {f : Byte × Byte → Byte × Byte} (hf : Turns d f) : Turns 0 f^[9] := by
  have hround : ∀ d : Fin 9, 9 • d = 0 := by decide
  exact hround d ▸ turns_iterate hf 9

/-- What relates C to bit 0, each bit to the next, and bit 7 to C, relates each position of the ring to the next. -/
theorem forall_next_position {P : Fin 9 → Fin 9 → Prop} (first : P 0 1) (inner : ∀ j : Fin 7, P j.castSucc.succ j.succ.succ)
    (last : P 8 0) : ∀ i, P i (i + 1) := by
  refine Fin.cases first (Fin.lastCases last fun j => ?_)
  rw [Fin.succ_castSucc, Fin.coeSucc_eq_succ, ← Fin.succ_castSucc]
  exact inner j

/-- R289: C enters at bit 0, each bit moves up, bit 7 leaves to C. -/
theorem rolOp_turns : Turns 1 (Function.uncurry rolOp) := by
  rintro ⟨m, cc⟩
  refine forall_next_position (P := fun i next => carryRing (rolOp m cc) next = carryRing (m, cc) i) ?first (fun j => ?inner) ?last
  case first =>
    show (rolOp m cc).1.getLsbD 0 = Flag.c.get cc
    cases h : Flag.c.get cc <;> simp [rolOp, h]
  case inner =>
    show (rolOp m cc).1.getLsbD (j + 1) = m.getLsbD j
    have hj : (j : ℕ) + 1 < 8 := Nat.succ_lt_succ j.isLt
    cases h : Flag.c.get cc <;> simpa [rolOp, h] using fun _ => hj
  case last =>
    show Flag.c.get (rolOp m cc).2 = m.getLsbD 7
    simp [rolOp]

/-- R292: C enters at bit 7, each bit moves down, bit 0 leaves to C. -/
theorem rorOp_turns : Turns (-1) (Function.uncurry rorOp) := by
  rintro ⟨m, cc⟩ i
  suffices hnext : ∀ i, carryRing (rorOp m cc) i = carryRing (m, cc) (i + 1) by
    rw [Function.uncurry_apply_pair, hnext, neg_add_cancel_right]
  refine forall_next_position (P := fun i next => carryRing (rorOp m cc) i = carryRing (m, cc) next) ?first (fun j => ?inner) ?last
  case first =>
    show Flag.c.get (rorOp m cc).2 = m.getLsbD 0
    simp [rorOp]
  case inner =>
    show (rorOp m cc).1.getLsbD j = m.getLsbD (j + 1)
    have hlow : ∀ j : Fin 7, (0x80#8).getLsbD j = false := by decide
    cases h : Flag.c.get cc <;> simp [rorOp, h, hlow, Nat.add_comm 1]
  case last =>
    show (rorOp m cc).1.getLsbD 7 = Flag.c.get cc
    cases h : Flag.c.get cc <;> simp [rorOp, h]

/-- Settles O31: ROL turns the ring of nine bits one way, ROR the other. -/
theorem rotatesAreNineBitRotations : Obligations.RotatesAreNineBitRotations := by
  intro m cc around
  obtain ⟨hrol, hrolC⟩ := restores_of_turns_zero (turns_nine rolOp_turns) (m, cc)
  obtain ⟨hror, hrorC⟩ := restores_of_turns_zero (turns_nine rorOp_turns) (m, cc)
  obtain ⟨hback, -⟩ := restores_of_turns_zero (turns_comp rorOp_turns rolOp_turns) (m, cc)
  exact ⟨hrol, hrolC, hror, hrorC, hback⟩

end Sys2Proof.Machine

namespace Sys2Proof.Machine

/-! ## Branches -/

theorem set16_pc_jumpsTo (target : Word) (s : State) : JumpsTo target s (s.set16 .pc target) :=
  ⟨rfl, SameMemory.refl s, rfl, SameControl.refl s⟩

/-- R131, R300: the branch is taken exactly when the predicate holds of `CC`, and nothing but `PC` changes. -/
theorem branch_jumpsTo {k : Cond} {s : State} {taken : Bool} (hk : k.taken s.regs.cc = taken) (offset : Word) :
    JumpsTo (if taken then s.regs.pc + offset else s.regs.pc) s (branch k offset s) := by
  have hbranch : branch k offset s = if taken then s.set16 .pc (s.regs.pc + offset) else s := by rw [← hk]; rfl
  rw [hbranch]
  cases taken <;> exact set16_pc_jumpsTo _ s

/-- R300 to R333: two instructions that branch on one condition, by a signed byte and by a word. -/
theorem branches_follow {k : Cond} {s : State} {short long : Instr} {o8 : Byte} {o16 : Word} {taken : Bool}
    (hshort : exec short s = .next (branch k (sext8 o8) s)) (hlong : exec long s = .next (branch k o16 s))
    (hk : k.taken s.regs.cc = taken) :
    (∃ t, exec short s = .next t ∧
      JumpsTo (if taken then BitVec.ofInt 16 (s.regs.pc.toNat + o8.toInt) else s.regs.pc) s t) ∧
    (∃ t, exec long s = .next t ∧ JumpsTo (if taken then s.regs.pc + o16 else s.regs.pc) s t) := by
  rw [← add_signExtend_eq_ofInt]
  exact ⟨⟨_, hshort, branch_jumpsTo hk _⟩, _, hlong, branch_jumpsTo hk _⟩

/-- Settles O32: each pair branches on its condition; the model writes "N and V agree" of BGE and BGT as a negated exclusive or. -/
theorem branchesFollowTheirPredicates : Obligations.BranchesFollowTheirPredicates := by
  intro s o8 o16
  have hge : Cond.ge.taken s.regs.cc = (Flag.n.get s.regs.cc == Flag.v.get s.regs.cc) := Bool.not_not _
  have hgt : Cond.gt.taken s.regs.cc = (!Flag.z.get s.regs.cc && (Flag.n.get s.regs.cc == Flag.v.get s.regs.cc)) :=
    congrArg (!Flag.z.get s.regs.cc && ·) hge
  iterate 12 refine List.forall_mem_cons.2 ⟨branches_follow rfl rfl rfl, ?_⟩
  refine List.forall_mem_cons.2 ⟨branches_follow rfl rfl hge, ?_⟩
  refine List.forall_mem_cons.2 ⟨branches_follow rfl rfl rfl, ?_⟩
  refine List.forall_mem_cons.2 ⟨branches_follow rfl rfl hgt, ?_⟩
  exact List.forall_mem_singleton.2 (branches_follow rfl rfl rfl)

/-! ## Jumps, calls and the return -/

/-- R338, R24: everything a call does; the return address stands at the new stack pointer. -/
theorem call_spec (target : Word) (s : State) :
    let t := call target s
    t.regs = { s.regs with pc := target, s := s.regs.s - 2#16 } ∧
    HoldsBytes t t.regs.s (wordBytes s.regs.pc) ∧ SameMemoryOutside t.regs.s 2 s t ∧
    t.bus = pushCalls t.regs.s (wordBytes s.regs.pc) ++ s.bus ∧ SameControl s t := by
  have hlength : (wordBytes s.regs.pc).length < 65536 := (by decide : 2 < 65536)
  obtain ⟨hregs, hholds, hout, hbus, hcontrol, -⟩ := pushImage_spec (.inl rfl) (wordBytes s.regs.pc) hlength s
  exact ⟨congrArg (Regs.set16 · .pc target) hregs, hholds, hout, hbus, hcontrol⟩

/-- R337, R24: everything the return does, which pulls the word at the stack pointer. -/
theorem return_spec (s : State) :
    let t := pullReg16 .s .pc s
    t.regs = { s.regs with pc := joinBytes (s.byteAt s.regs.s) (s.byteAt (s.regs.s + 1#16)), s := s.regs.s + 2#16 } ∧
    SameMemory s t ∧ t.bus = (readCalls s.regs.s (bytesFrom s 2 s.regs.s)).reverse ++ s.bus ∧ SameControl s t := by
  have hword : wordBytes (s.wordAt s.regs.s) = bytesFrom s 2 s.regs.s := by
    rw [wordBytes, State.wordAt, hiByte_joinBytes, loByte_joinBytes]; rfl
  have hholds : HoldsBytes s (s.get16 .s) (wordBytes (s.wordAt s.regs.s) ++ []) := by
    rw [hword]
    exact ⟨rfl, rfl, trivial⟩
  obtain ⟨hregs, -, hmem, hbus, hcontrol⟩ := pullReg16_pulls (r := .pc) (.inl rfl) (by decide) hholds
  rw [hword] at hbus
  exact ⟨hregs, sameMemory_of_mem hmem, hbus, hcontrol⟩

/-- Settles O33: JMP and JSR jump and call where their address resolves, BSR and LBSR call at their offset, RTS pulls. -/
theorem jumpsCallsAndReturns : Obligations.JumpsCallsAndReturns := by
  refine ⟨fun s s1 ea a h => ⟨?jmp, ?jsr⟩, fun s o8 o16 => ?relative, fun s => ⟨_, rfl, return_spec s⟩⟩
  case jmp =>
    refine ⟨s1.set16 .pc a, ?_, set16_pc_jumpsTo a s1⟩
    simp only [exec, execJmp, h, orNothing]
  case jsr =>
    refine ⟨call a s1, ?_, call_spec a s1⟩
    simp only [exec, execJsr, h, orNothing]
  case relative =>
    simp only [List.forall_mem_cons, List.not_mem_nil, IsEmpty.forall_iff, implies_true, and_true, ← add_signExtend_eq_ofInt]
    exact ⟨⟨_, rfl, call_spec _ s⟩, _, rfl, call_spec _ s⟩

end Sys2Proof.Machine

namespace Sys2Proof.Machine

/-! ## Pushing the masked registers -/

/-- R355, R24: everything a push of masked registers does, which is the push of their image. -/
theorem pushMask_spec {sp : Reg16} (hsp : sp = .s ∨ sp = .u) (other : Reg16) (m : StackMask) (s : State) :
    let image := stackImage other m s.regs
    let t := pushMask sp other m s
    t.regs = s.regs.set16 sp (s.get16 sp - BitVec.ofNat 16 image.length) ∧
    HoldsBytes t (t.get16 sp) image ∧ SameMemoryOutside (t.get16 sp) image.length s t ∧
    t.bus = pushCalls (t.get16 sp) image ++ s.bus ∧ SameControl s t := by
  have hlength : (stackImage other m s.regs).length < 65536 := by
    rw [stackImage_length]
    exact (maskBytes_le m).trans_lt (by decide)
  rw [pushMask_eq_pushImage]
  obtain ⟨hregs, hholds, hout, hbus, hcontrol, -⟩ := pushImage_spec hsp _ hlength s
  exact ⟨hregs, hholds, hout, hbus, hcontrol⟩

/-- Settles O34: PSHS and PSHU are the push of masked registers on either stack. -/
theorem pushesLeaveTheImage : Obligations.PushesLeaveTheImage := fun s m =>
  ⟨⟨_, rfl, pushMask_spec (.inl rfl) .u m s⟩, _, rfl, pushMask_spec (.inr rfl) .s m s⟩

/-! ## Pulling the masked registers -/

theorem set16_get16_self (r : Regs) (k : Reg16) : r.set16 k (r.get16 k) = r := by
  cases k <;> simp [Regs.set16, Regs.get16]

/-- R355: a byte of the image pulled, if its bit `c` of the mask is set. -/
theorem pullReg8_onlyIf {sp : Reg16} {r : Reg8} {s : State} {c : Bool} {b : Byte} {cs : List Byte} (hsp : sp = .s ∨ sp = .u)
    (h : HoldsBytes s (s.get16 sp) ((if c then [b] else []) ++ cs)) :
    let bytes := if c then [b] else []
    Pulls sp bytes (fun q => (q.set16 sp (q.get16 sp + BitVec.ofNat 16 bytes.length)).set8 r (if c then b else q.get8 r))
      s (if c then pullReg8 sp r s else s) := by
  cases c with
  | false => simpa [set16_get16_self, set8_get8_self, Function.id_def] using Pulls.refl sp s
  | true => exact pullReg8_pulls hsp h

/-- R355: a word of the image pulled, if its bit `c` of the mask is set. -/
theorem pullReg16_onlyIf {sp r : Reg16} {s : State} {c : Bool} {w : Word} {cs : List Byte} (hsp : sp = .s ∨ sp = .u)
    (hr : r ≠ sp) (h : HoldsBytes s (s.get16 sp) ((if c then wordBytes w else []) ++ cs)) :
    let bytes := if c then wordBytes w else []
    Pulls sp bytes (fun q => (q.set16 sp (q.get16 sp + BitVec.ofNat 16 bytes.length)).set16 r (if c then w else q.get16 r))
      s (if c then pullReg16 sp r s else s) := by
  cases c with
  | false => simpa [set16_get16_self, Function.id_def] using Pulls.refl sp s
  | true => exact pullReg16_pulls hsp hr h

/-- The registers `q` with the masked ones taken from `r`; `other` is bit 6's register. -/
def takeMasked (other : Reg16) (m : StackMask) (r q : Regs) : Regs :=
  Regs.set16
    { q with
      cc := if m.cc then r.cc else q.cc, a := if m.a then r.a else q.a, b := if m.b then r.b else q.b
      dp := if m.dp then r.dp else q.dp, x := if m.x then r.x else q.x, y := if m.y then r.y else q.y
      pc := if m.pc then r.pc else q.pc }
    other (if m.other then r.get16 other else q.get16 other)

/-- R355, R24: everything a pull of masked registers does, where memory holds their image. -/
theorem pullMask_spec {sp other : Reg16} (hstacks : sp = .s ∧ other = .u ∨ sp = .u ∧ other = .s) {m : StackMask} {r : Regs}
    {s : State} (h : HoldsBytes s (s.get16 sp) (stackImage other m r)) :
    let image := stackImage other m r
    let t := pullMask sp other m s
    SameMemory s t ∧ SameControl s t ∧ t.bus = (readCalls (s.get16 sp) image).reverse ++ s.bus ∧
    t.regs = (takeMasked other m r s.regs).set16 sp (s.get16 sp + BitVec.ofNat 16 image.length) := by
  have hsp : sp = .s ∨ sp = .u := hstacks.imp And.left And.left
  have hx : .x ≠ sp := by rintro rfl; simp at hsp
  have hy : .y ≠ sp := by rintro rfl; simp at hsp
  have hpc : .pc ≠ sp := by rintro rfl; simp at hsp
  have hother : other ≠ sp := by rcases hstacks with ⟨rfl, rfl⟩ | ⟨rfl, rfl⟩ <;> decide
  rw [← List.append_nil (stackImage other m r)] at h
  simp only [stackImage, List.append_assoc] at h
  -- each pull leaves the bytes after its own at the stack pointer
  have pcc := pullReg8_onlyIf (r := .cc) hsp h
  have h := pcc.holds h
  have pa := pullReg8_onlyIf (r := .a) hsp h
  have h := pa.holds h
  have pb := pullReg8_onlyIf (r := .b) hsp h
  have h := pb.holds h
  have pdp := pullReg8_onlyIf (r := .dp) hsp h
  have h := pdp.holds h
  have px := pullReg16_onlyIf hsp hx h
  have h := px.holds h
  have py := pullReg16_onlyIf hsp hy h
  have h := py.holds h
  have pother := pullReg16_onlyIf hsp hother h
  have ppc := pullReg16_onlyIf hsp hpc (pother.holds h)
  obtain ⟨hregs, hget, hmem, hbus, hcontrol⟩ :=
    ((((((pcc.trans pa).trans pb).trans pdp).trans px).trans py).trans pother).trans ppc
  refine ⟨sameMemory_of_mem hmem, hcontrol, hbus, ?_⟩
  calc (pullMask sp other m s).regs
    _ = (pullMask sp other m s).regs.set16 sp ((pullMask sp other m s).get16 sp) := (set16_get16_self _ sp).symm
    _ = Regs.set16 _ sp (s.get16 sp + BitVec.ofNat 16 (stackImage other m r).length) :=
      congrArg₂ (Regs.set16 · sp ·) hregs hget
    _ = _ := by rcases hstacks with ⟨rfl, rfl⟩ | ⟨rfl, rfl⟩ <;> rfl

/-- Settles O35: PULS and PULU are the pull of masked registers on either stack. -/
theorem pullsTakeTheImage : Obligations.PullsTakeTheImage := fun _ _ _ =>
  ⟨fun h => ⟨_, rfl, pullMask_spec (.inl ⟨rfl, rfl⟩) h⟩, fun h => ⟨_, rfl, pullMask_spec (.inr ⟨rfl, rfl⟩) h⟩⟩

end Sys2Proof.Machine

namespace Sys2Proof.Machine

/-! ## Register transfer and exchange -/

/-- R21: of the 16-bit registers only `D` is made of 8-bit ones. -/
theorem set8_get16_other (r : Regs) (q : Reg8) (v : Byte) {k : Reg16} (h : k ≠ .d) : (r.set8 q v).get16 k = r.get16 k := by
  cases k with
  | d => exact absurd rfl h
  | _ => cases q <;> rfl

/-- R361: two writes of values read before exchange the registers, also where they are one register. -/
theorem set16_set16_exchanges (regs : Regs) (r q : Reg16) :
    let t := (regs.set16 r (regs.get16 q)).set16 q (regs.get16 r)
    t.get16 q = regs.get16 r ∧ t.get16 r = regs.get16 q ∧ ∀ k, k ≠ q → k ≠ r → t.get16 k = regs.get16 k := by
  refine ⟨set16_get16_same _ _ _, ?_, fun k hq hr => (set16_get16_other _ _ hq).trans (set16_get16_other _ _ hr)⟩
  by_cases h : r = q
  · subst h; exact set16_get16_same _ _ _
  · exact (set16_get16_other _ _ h).trans (set16_get16_same _ _ _)

/-- R361 for the 8-bit registers. -/
theorem set8_set8_exchanges (regs : Regs) (r q : Reg8) :
    let t := (regs.set8 r (regs.get8 q)).set8 q (regs.get8 r)
    t.get8 q = regs.get8 r ∧ t.get8 r = regs.get8 q ∧ ∀ k, k ≠ q → k ≠ r → t.get8 k = regs.get8 k := by
  refine ⟨set8_get8_same _ _ _, ?_, fun k hq hr => (set8_get8_other _ _ hq).trans (set8_get8_other _ _ hr)⟩
  by_cases h : r = q
  · subst h; exact set8_get8_same _ _ _
  · exact (set8_get8_other _ _ h).trans (set8_get8_same _ _ _)

/-- R360 to R363: the pairs that do nothing, by D8: those of mixed width and those with a code that names no register. -/
theorem transfer_exchange_illegal {p : RegPair} {r : Reg16} {q : Reg8} {c : BitVec 4} {o : RegCode}
    (hp : p ∈ [RegPair.mk (.r16 r) (.r8 q), ⟨.r8 q, .r16 r⟩, ⟨.unassigned c, o⟩, ⟨o, .unassigned c⟩]) (s : State) :
    transfer p s = s ∧ exchange p s = s := by
  simp only [List.mem_cons, List.not_mem_nil, or_false] at hp
  obtain rfl | rfl | rfl | rfl := hp
  · exact ⟨rfl, rfl⟩
  · exact ⟨rfl, rfl⟩
  · cases o <;> exact ⟨rfl, rfl⟩
  · cases o <;> exact ⟨rfl, rfl⟩

/-- Settles O36: a legal pair is one write, or two of values read before either, and an illegal pair is none. -/
theorem transfersAndExchanges : Obligations.TransfersAndExchanges := by
  intro s
  refine ⟨fun r q => ⟨?tfr16, ?exg16⟩, fun r q => ⟨?tfr8, ?exg8⟩, ?illegal⟩
  case tfr16 =>
    exact ⟨_, rfl, set16_get16_same _ _ _, fun _ => set16_get16_other _ _, set16_cc _ _ _, set16_dp _ _ _, SameMemory.refl s, rfl,
      SameControl.refl s⟩
  case exg16 =>
    obtain ⟨hq, hr, hothers⟩ := set16_set16_exchanges s.regs r q
    exact ⟨_, rfl, hq, hr, hothers, (set16_cc _ _ _).trans (set16_cc _ _ _), (set16_dp _ _ _).trans (set16_dp _ _ _),
      SameMemory.refl s, rfl, SameControl.refl s⟩
  case tfr8 =>
    exact ⟨_, rfl, set8_get8_same _ _ _, fun _ => set8_get8_other _ _, fun _ => set8_get16_other _ _ _, SameMemory.refl s, rfl,
      SameControl.refl s⟩
  case exg8 =>
    obtain ⟨hq, hr, hothers⟩ := set8_set8_exchanges s.regs r q
    exact ⟨_, rfl, hq, hr, hothers, fun _ hd => (set8_get16_other _ _ _ hd).trans (set8_get16_other _ _ _ hd),
      SameMemory.refl s, rfl, SameControl.refl s⟩
  case illegal =>
    intro r q c o p hp
    obtain ⟨htransfer, hexchange⟩ := transfer_exchange_illegal hp s
    exact ⟨congrArg Host.Outcome.next htransfer, congrArg Host.Outcome.next hexchange⟩

end Sys2Proof.Machine

namespace Sys2Proof.Machine

/-! ## Interrupt instructions that enter, return or do nothing -/

/-- Settles O37: the three enter an exception with the full frame, SWI alone with the masks. -/
theorem softwareInterruptsEnter : Obligations.SoftwareInterruptsEnter := by
  intro s
  simp only [List.forall_mem_cons, List.not_mem_nil, IsEmpty.forall_iff, implies_true, and_true]
  exact ⟨⟨_, rfl, enterException_spec true true swiVector s⟩, ⟨_, rfl, enterException_spec true false swi2Vector s⟩,
    _, rfl, enterException_spec true false swi3Vector s⟩

/-- Settles O43: both meanings answer the state they start from. -/
theorem noOperationsDoNothing : Obligations.NoOperationsDoNothing := fun _ _ _ => ⟨rfl, rfl⟩

/-! ## Returning from an exception -/

/-- R430: the registers of a frame as a stack mask: all but the stack pointer, or `PC` and `CC`. -/
def frameMask (full : Bool) : StackMask := ⟨true, full, full, full, full, full, full, true⟩

theorem stackImage_frameMask (full : Bool) (r : Regs) :
    stackImage .u (frameMask full) r = if full then frameAll r else frameFast r := by
  cases full <;> rfl

/-- R385: RTI is a pull from `S` of the registers that the `E` at the stack pointer names. -/
theorem returnFromException_eq_pullMask (s : State) :
    returnFromException s = pullMask .s .u (frameMask (Flag.e.get (s.byteAt s.regs.s))) s := by
  have hcc : (pullReg8 .s .cc s).get8 .cc = s.byteAt s.regs.s := rfl
  simp only [returnFromException, hcc]
  cases Flag.e.get (s.byteAt s.regs.s) <;> rfl

/-- R385: everything RTI does where memory holds a frame whose own `E` says which one it is. -/
theorem returnFromException_spec {s : State} {r : Regs} {full : Bool} (he : Flag.e.get r.cc = full)
    (h : HoldsBytes s s.regs.s (if full then frameAll r else frameFast r)) :
    let frame := if full then frameAll r else frameFast r
    let t := returnFromException s
    SameMemory s t ∧ SameControl s t ∧ t.bus = (readCalls s.regs.s frame).reverse ++ s.bus ∧
    t.regs = (takeMasked .u (frameMask full) r s.regs).set16 .s (s.regs.s + BitVec.ofNat 16 frame.length) := by
  have hpulled : s.byteAt s.regs.s = r.cc := by cases full <;> exact h.1
  rw [returnFromException_eq_pullMask, hpulled, he]
  rw [← stackImage_frameMask] at h ⊢
  exact pullMask_spec (.inl ⟨rfl, rfl⟩) h

/-- Settles O38: the two forms of the frame. -/
theorem rtiTakesTheFrame : Obligations.RtiTakesTheFrame := by
  intro s r
  constructor
  · intro he h
    obtain ⟨hmem, hcontrol, hbus, hregs⟩ := returnFromException_spec (full := true) he h
    exact ⟨_, rfl, hregs, hmem, hcontrol, hbus⟩
  · intro he h
    obtain ⟨hmem, hcontrol, hbus, hregs⟩ := returnFromException_spec (full := false) (Bool.eq_false_of_not_eq_true he) h
    exact ⟨_, rfl, hregs, hmem, hcontrol, hbus⟩

/-- A flag put in `CC`, with whatever else happens to the state. -/
theorem sameFlags_of_put {s t : State} {k : Flag} {b : Bool} (h : t.regs.cc = k.put b s.regs.cc) :
    SameFlags [k] s t ∧ (FlagSet k t ↔ b = true) := by
  have hget (q : Flag) : q.get (t.get8 .cc) = if q = k then b else q.get (s.get8 .cc) :=
    (congrArg q.get h).trans (Flag.get_put q k b _)
  refine ⟨fun q hq => ?_, ?_⟩
  · rw [hget, if_neg (by simpa using hq)]
  · rw [FlagSet, hget, if_pos rfl]

/-- R437: everything RTI does from a state with the stack pointer and memory that an entry left. -/
theorem returnFromException_of_entered {full masks : Bool} {vector : Word} {s h : State}
    (hs : h.regs.s = (enterException full masks vector s).regs.s) (hm : SameMemory (enterException full masks vector s) h) :
    let t := returnFromException h
    t.regs = { takeMasked .u (frameMask full) { s.regs with cc := t.regs.cc } h.regs with s := s.regs.s } ∧
    SameFlags [.e] s t ∧ (FlagSet .e t ↔ full = true) ∧ SameMemory h t := by
  obtain ⟨⟨hsp, hholds, -⟩, -⟩ := enterException_spec full masks vector s
  have hframe := hholds.congr hm
  rw [← hs] at hsp hframe
  obtain ⟨hmem, -, -, hregs⟩ := returnFromException_spec (by simp) hframe
  rw [hsp, BitVec.sub_add_cancel] at hregs
  have hcc : (returnFromException h).regs.cc = Flag.e.put full s.regs.cc := by rw [hregs]; rfl
  obtain ⟨hflags, he⟩ := sameFlags_of_put hcc
  refine ⟨?_, hflags, he, hmem⟩
  rw [hcc]
  exact hregs

/-- Settles O39: RTI pulls the frame that the entry pushed, with the `E` that the entry set. -/
theorem returnUndoesEntry : Obligations.ReturnUndoesEntry := by
  intro s h masks vector
  constructor
  · intro hs hm
    obtain ⟨hregs, hflags, he, hmem⟩ := returnFromException_of_entered hs hm
    exact ⟨_, rfl, hregs, hflags, he.2 rfl, hmem⟩
  · intro hs hm
    obtain ⟨hregs, hflags, he, hmem⟩ := returnFromException_of_entered hs hm
    exact ⟨_, rfl, hregs, hflags, mt he.1 nofun, hmem⟩

/-! ## Waiting -/

/-- R430: everything `StackAll` does. -/
theorem stackAll_spec (s : State) :
    let t := stackAll s
    t.regs = { s.regs with s := s.regs.s - 12#16 } ∧ HoldsBytes t t.regs.s (frameAll s.regs) ∧
    SameMemoryOutside t.regs.s 12 s t ∧ t.bus = pushCalls t.regs.s (frameAll s.regs) ++ s.bus ∧ SameControl s t := by
  rw [stackAll_eq_pushImage]
  obtain ⟨hregs, hholds, hout, hbus, hcontrol, -⟩ :=
    pushImage_spec (sp := .s) (.inl rfl) (frameAll s.regs) (Nat.le_of_ble_eq_true rfl) s
  exact ⟨hregs, hholds, hout, hbus, hcontrol⟩

/-- R98: going on to wait is all that happens to the dispatcher. -/
theorem SameControl.thenWait {s t : State} (h : SameControl s t) (a : Active) :
    SameControl { s with resume := a } (thenWait a t) := by
  obtain ⟨hactive, hpage, hused, hdue, -, hrest⟩ := h
  exact ⟨hactive, hpage, hused, hdue, rfl, hrest⟩

/-- R386: the `CC` that CWAI stacks. -/
def cwaiCc (imm cc : Byte) : Byte := Flag.e.put true (cc &&& imm)

theorem cwaiCc_get_iff (k : Flag) (imm cc : Byte) :
    k.get (cwaiCc imm cc) = true ↔ k = .e ∨ (k.get cc = true ∧ imm.getLsbD k.bit = true) := by
  rw [cwaiCc, Flag.get_put, ← Flag.get_and_iff]
  by_cases hk : k = .e <;> simp [hk]

/-- Settles O40: CWAI is `StackAll` of the state with the masked `CC`, and a wait to go on to. -/
theorem cwaiStacksAndWaits : Obligations.CwaiStacksAndWaits := by
  intro s imm
  have hexec : exec (.cwai imm) s = .next (thenWait .waitCwai (stackAll (s.set8 .cc (cwaiCc imm s.regs.cc)))) := rfl
  obtain ⟨hregs, hholds, hout, hbus, hcontrol⟩ := stackAll_spec (s.set8 .cc (cwaiCc imm s.regs.cc))
  generalize stackAll (s.set8 .cc (cwaiCc imm s.regs.cc)) = t at *
  have hcc : t.regs.cc = cwaiCc imm s.regs.cc := congrArg Regs.cc hregs
  refine ⟨_, hexec, ?_, fun k => ?_, ?_, hout, ?_, rfl, hcontrol.thenWait .waitCwai⟩
  · rw [thenWait_regs, hcc]
    exact hregs
  · rw [FlagSet, State.get8, thenWait_regs]
    exact (iff_of_eq (congrArg (k.get · = true) hcc)).trans (cwaiCc_get_iff k imm _)
  · rw [thenWait_regs, hcc]
    exact hholds.congr fun _ => rfl
  · rw [thenWait_regs, hcc]
    exact hbus

/-! ## What a `Step` call starts, and what it leaves -/

/-- R97, R98: a step that starts a sequence of `n + 1` cycles leaves its registers, memory and bus, and retires. -/
theorem step_retires {s t : State} {n : Nat} (h : running s = .next t) (hresume : t.resume = .none)
    (hdue : t.clocksDue = n + 1) :
    ∃ u, step s = .next u ∧ u.regs = t.regs ∧ u.mem = t.mem ∧ u.bus = t.bus ∧ RetiredAfter (n + 1) s u := by
  obtain ⟨t', ht', ⟨hscratch, hoffset, hlines, hinputs, hcycles⟩, -⟩ := running_spec s
  obtain rfl : t' = t := Host.Outcome.next.inj (ht'.symm.trans h)
  obtain ⟨hticks, hticksInputs⟩ := ticks_lines_of s t' hlines hinputs (n + 1)
  refine ⟨_, step_of_running h, ?_⟩
  rw [runOut_due hdue]
  exact ⟨rfl, rfl, rfl, hresume, rfl, if_pos hresume, rfl, rfl, congrArg (· + (n + 1)) hcycles, hticks, hticksInputs, hscratch,
    hoffset⟩

/-- R97: a step that starts nothing is one idle cycle. -/
theorem step_idle {s : State} (h : running s = .next s) (hdue : s.clocksDue = 0) : step s = .next (tick s) := by
  rw [step_of_running h, runOut_idle hdue]

section

variable {s : State}

/-- R421: RESET comes first. -/
theorem requested_reset (hreset : s.lines.reset = true) : requested s.lines (s.get8 .cc) = some .reset := if_pos hreset

/-- R421, R424: the order of priority behind RESET, with the masks. -/
theorem requested_of_reset_false (hreset : s.lines.reset = false) :
    let firq := s.lines.firq = true ∧ ¬ FlagSet .f s
    let irq := s.lines.irq = true ∧ ¬ FlagSet .i s
    (s.lines.nmi = true → requested s.lines (s.get8 .cc) = some .nmi) ∧
    (s.lines.nmi = false → firq → requested s.lines (s.get8 .cc) = some .firq) ∧
    (s.lines.nmi = false → ¬ firq → irq → requested s.lines (s.get8 .cc) = some .irq) ∧
    (s.lines.nmi = false → ¬ firq → ¬ irq → requested s.lines (s.get8 .cc) = none) := by
  simp only [requested, hreset, FlagSet, Bool.false_eq_true, if_false, Bool.and_eq_true, Bool.not_eq_true', Bool.not_eq_true]
  refine ⟨fun hn => if_pos hn, fun hn hf => ?_, fun hn hf hi => ?_, fun hn hf hi => ?_⟩
  · rw [if_neg (by simp [hn]), if_pos hf]
  · rw [if_neg (by simp [hn]), if_neg hf, if_pos hi]
  · rw [if_neg (by simp [hn]), if_neg hf, if_neg hi]

/-- R421: at a boundary without HALT the sequence that is requested starts. -/
theorem running_of_requested {kind : ExcKind} (hb : AtBoundary s) (hhalt : s.lines.halt = false)
    (h : requested s.lines (s.get8 .cc) = some kind) : running s = .next (startException kind s) := by
  obtain ⟨hactive, hdue⟩ := hb
  simp only [running, hdue, if_true, beginSequence, hactive, boundaryCheck, hhalt, Bool.false_eq_true, if_false, h]

/-- R386: in the CWAI wait. -/
theorem running_waitCwai (hactive : s.active = .waitCwai) (hdue : s.clocksDue = 0) : running s = .next (cwaiWaitCycle s) := by
  simp only [running, hdue, if_true, beginSequence, hactive]

/-- R387: in the SYNC wait. -/
theorem running_waitSync (hactive : s.active = .waitSync) (hdue : s.clocksDue = 0) : running s = .next (syncWaitCycle s) := by
  simp only [running, hdue, if_true, beginSequence, hactive]

/-- R440: with HALT asserted at a boundary nothing starts. -/
theorem running_halted (hb : AtBoundary s) (hhalt : s.lines.halt = true) : running s = .next s := by
  obtain ⟨hactive, hdue⟩ := hb
  simp only [running, hdue, if_true, beginSequence, hactive, boundaryCheck, hhalt]

end

/-! ## The waits -/

/-- R386, D16: everything leaving the CWAI wait through a vector does. -/
theorem leaveCwai_spec (vector : Word) (s : State) :
    leaveCwai vector s =
      { s with
        regs := { s.regs with cc := Flag.f.put true (Flag.i.put true s.regs.cc), pc := s.wordAt vector }
        bus := (readCalls vector (bytesFrom s 2 vector)).reverse ++ s.bus } := rfl

/-- R386: in the CWAI wait a request other than RESET sets the masks and goes through its vector. -/
theorem cwaiWaitCycle_of_requested {s : State} {kind : ExcKind} (h : requested s.lines (s.get8 .cc) = some kind)
    (hkind : kind ≠ .reset) : cwaiWaitCycle s = leaveWait 3 (leaveCwai kind.vector s) := by
  simp only [cwaiWaitCycle, h]
  cases kind with
  | reset => exact absurd rfl hkind
  | nmi | firq | irq => rfl

/-- Settles O41: a request starts the vector fetch of its kind, and without one nothing starts. -/
theorem cwaiWaitsForAnUnmaskedLine : Obligations.CwaiWaitsForAnUnmaskedLine := by
  intro s hactive hdue hreset
  obtain ⟨hnmi, hfirq, hirq, hnone⟩ := requested_of_reset_false hreset
  have hrunning := running_waitCwai hactive hdue
  refine ⟨fun vector hvector => ?_, fun hn hf hi => ?_⟩
  · obtain ⟨kind, hreq, hkind, rfl⟩ : ∃ kind, requested s.lines (s.get8 .cc) = some kind ∧ kind ≠ .reset ∧
        kind.vector = vector := by
      rcases hvector with ⟨hn, rfl⟩ | ⟨hn, hf, rfl⟩ | ⟨hn, hf, hi, rfl⟩
      · exact ⟨.nmi, hnmi hn, nofun, rfl⟩
      · exact ⟨.firq, hfirq hn hf, nofun, rfl⟩
      · exact ⟨.irq, hirq hn hf hi, nofun, rfl⟩
    rw [cwaiWaitCycle_of_requested hreq hkind, leaveCwai_spec] at hrunning
    obtain ⟨u, hstep, hregs, hmem, hbus, hretired⟩ := step_retires hrunning rfl rfl
    have hcc : u.regs.cc = Flag.f.put true (Flag.i.put true s.regs.cc) := congrArg Regs.cc hregs
    have hget (k : Flag) : k.get (u.get8 .cc) = if k = .f then true else if k = .i then true else k.get (s.get8 .cc) := by
      rw [← Flag.get_put, ← Flag.get_put]
      exact congrArg k.get hcc
    refine ⟨u, hstep, ?_, fun k hk => ?_, hget .i, hget .f, sameMemory_of_mem hmem, hbus, hretired⟩
    · rw [hcc]
      exact hregs
    · obtain ⟨hi, hf⟩ : k ≠ .i ∧ k ≠ .f := by simpa using hk
      rw [hget, if_neg hf, if_neg hi]
  · rw [cwaiWaitCycle, hnone hn hf hi] at hrunning
    exact step_idle hrunning hdue

/-- Settles O42: SYNC changes where the block goes on to, and its wait reads the lines without the masks. -/
theorem syncWaitsForAnyLine : Obligations.SyncWaitsForAnyLine := by
  refine ⟨fun s => ⟨_, rfl, rfl, SameMemory.refl s, rfl, rfl, (SameControl.refl s).thenWait .waitSync⟩, ?_⟩
  intro s hactive hdue hreset
  have hrunning := running_waitSync hactive hdue
  rw [syncWaitCycle, if_neg (by simp [hreset])] at hrunning
  refine ⟨fun hany => ?_, fun hn hf hi => ?_⟩
  · rw [if_pos (by simpa [or_assoc] using hany)] at hrunning
    obtain ⟨u, hstep, hregs, hmem, hbus, hretired⟩ := step_retires hrunning rfl rfl
    exact ⟨u, hstep, hregs, sameMemory_of_mem hmem, hbus, hretired⟩
  · rw [if_neg (by simp [hn, hf, hi])] at hrunning
    exact step_idle hrunning hdue

/-! ## The hardware sequences -/

/-- R481: everything the RESET sequence does. -/
theorem resetSequence_spec (s : State) :
    resetSequence s =
      { s with
        regs := { s.regs with cc := 0x00#8, dp := 0x00#8, pc := s.wordAt 0xFFFE#16 }
        bus := (readCalls 0xFFFE#16 (bytesFrom s 2 0xFFFE#16)).reverse ++ s.bus } := rfl

/-- Settles O45: at a boundary and in both waits the RESET sequence starts. -/
theorem resetSequence_holds : Obligations.ResetSequence := by
  intro s hdue hreset hwhere
  have hreq := requested_reset hreset
  have hrunning : running s = .next (startException .reset s) := by
    rcases hwhere with ⟨hactive, hhalt⟩ | hactive | hactive
    · exact running_of_requested ⟨hactive, hdue⟩ hhalt hreq
    · rw [running_waitCwai hactive hdue, cwaiWaitCycle, hreq]
    · rw [running_waitSync hactive hdue, syncWaitCycle, if_pos hreset]
  rw [startException, ExcKind.sequence, resetSequence_spec] at hrunning
  obtain ⟨u, hstep, hregs, hmem, hbus, hretired⟩ := step_retires hrunning rfl rfl
  exact ⟨u, hstep, hregs, sameMemory_of_mem hmem, hbus, hretired⟩

/-- What an entry leaves stands in registers, memory and the record of the bus. -/
theorem Entered.congr {full masks : Bool} {vector : Word} {s t u : State} (h : Entered full masks vector s t)
    (hregs : u.regs = t.regs) (hmem : u.mem = t.mem) (hbus : u.bus = t.bus) : Entered full masks vector s u := by
  have hbyte := byteAt_of_mem hmem
  have hholds (a : Word) (bs : List Byte) : HoldsBytes u a bs ↔ HoldsBytes t a bs :=
    ⟨HoldsBytes.congr (sameMemory_of_mem hmem.symm), HoldsBytes.congr (sameMemory_of_mem hmem)⟩
  simpa only [Entered, FlagSet, SameFlags, SameMemoryOutside, State.wordAt, State.get8, hregs, hbus, hbyte, hholds] using h

/-- R421, R430 to R433: everything a step does at a boundary where an exception that stacks is requested. -/
theorem step_enters {s : State} {kind : ExcKind} {full : Bool} {vector : Word} {n : Nat} (hb : AtBoundary s)
    (hhalt : s.lines.halt = false) (hreq : requested s.lines (s.get8 .cc) = some kind)
    (hsequence : kind.sequence s = enterException full true vector s) (hcycles : kind.cycles = n + 1) :
    ∃ t, step s = .next t ∧ Entered full true vector s t ∧ RetiredAfter (n + 1) s t := by
  obtain ⟨u, hstep, hregs, hmem, hbus, hretired⟩ := step_retires (running_of_requested hb hhalt hreq) rfl hcycles
  obtain ⟨hentered, -⟩ := enterException_spec full true vector s
  rw [← hsequence] at hentered
  exact ⟨u, hstep, hentered.congr hregs hmem hbus, hretired⟩

/-- Settles O46: NMI is requested whatever the masks. -/
theorem nmiEnters : Obligations.NmiEnters := by
  intro s hb hhalt hreset hn
  obtain ⟨hnmi, -⟩ := requested_of_reset_false hreset
  exact step_enters hb hhalt (hnmi hn) rfl rfl

/-- Settles O47: FIRQ is requested before IRQ, each behind its mask. -/
theorem firqAndIrqEnter : Obligations.FirqAndIrqEnter := by
  intro s hb hhalt hreset hn
  obtain ⟨-, hfirq, hirq, -⟩ := requested_of_reset_false hreset
  exact ⟨fun hf => step_enters hb hhalt (hfirq hn hf) rfl rfl, fun hf hi => step_enters hb hhalt (hirq hn hf hi) rfl rfl⟩

/-- Settles O48: HALT starts nothing, and with no cycle due a step and a clock cycle are one tick. -/
theorem haltIdlesAtABoundary : Obligations.HaltIdlesAtABoundary := by
  intro s hb hhalt
  have hrunning := running_halted hb hhalt
  obtain ⟨hactive, hdue⟩ := hb
  refine ⟨tick s, step_idle hrunning hdue, ?_, ?_⟩
  · rw [clockStep_of_running hrunning, advance, hdue]
  · rw [tick_eq]
    exact ⟨rfl, rfl, rfl, hactive, rfl, rfl, hdue, rfl⟩

/-- Settles O50: whatever a `Step` call starts, it answers a next state, and so does every meaning. -/
theorem everyStepAnswers : Obligations.EveryStepAnswers := by
  intro s
  obtain ⟨t, hrunning, -⟩ := running_spec s
  exact ⟨⟨_, step_of_running hrunning⟩, ⟨_, clockStep_of_running hrunning⟩, fun i => exec_next i s⟩

end Sys2Proof.Machine
